-- ==== Sys2Proof/Word.lean ====
section
/-! DEFINITION. The word types of the block's ports and of its slot array. -/

namespace Sys2Proof

/-- A command word `cmd[35:0]` (R96), bit 0 the least significant (R22). -/
abbrev Word := BitVec 36

/-- The operand field `arg[31:0]` of a command word (R96). -/
abbrev Arg := BitVec 32

/-- A pin-state snapshot, and so one slot: `SNAP_W = 8` bits (R7, R104). -/
abbrev Snapshot := BitVec 8

end Sys2Proof
end

