-- ==== Sys2Proof/Syntax.lean ====
section
/-! DEFINITION. The twelve commands of the block, its ports and its agents. -/

namespace Sys2Proof

/-- The two EncoderDecoder instances (R8): `enc0` is the tempo (left) encoder, `enc1` the length-or-scroll
(right) encoder. -/
inductive EncIdx where
  | enc0
  | enc1
  deriving DecidableEq, Repr

/-- The command ports (R95): `producer` is port P (interrupt domain), `consumer` is port C (poll domain).
The event port E is an output; see `State.events`. -/
inductive Port where
  | producer
  | consumer
  deriving DecidableEq, Repr

/-- The two agents that change state (R21, R217). The third agent, ENV, is `State.env`. -/
inductive Agent where
  | isr
  | poll
  deriving DecidableEq, Repr

/-- The commands (R97), one constructor per row of spec/opcode_table.json. A level or phase is a Bool, `true`
for 1 (high, pressed). Tempo operands are integers and times are counts of `1 / TIME_HZ` s, both wider than
their fields: the rules accept any value as a direct operation (U15, U16); WellFormed says which can be encoded. -/
inductive Instr where
  /-- RB.PUSH `s` (R125). -/
  | rbPush (v : Snapshot)
  /-- RB.DRAIN (R128). -/
  | rbDrain
  /-- ENC.PINS `e a b` (R140). -/
  | encPins (e : EncIdx) (a b : Bool)
  /-- ENC.DRAIN `e` (R147). -/
  | encDrain (e : EncIdx)
  /-- ENC.BTN `e level` (R148). -/
  | encBtn (e : EncIdx) (level : Bool)
  /-- T.SETBPM `v` (R161). -/
  | tSetBpm (v : Int)
  /-- T.TICK `n` (R165). -/
  | tTick (n : Nat)
  /-- T.EXTEDGE `level` (R171). -/
  | tExtEdge (level : Bool)
  /-- T.BEGINTAP (R173). -/
  | tBeginTap
  /-- T.TAP `n` (R174). -/
  | tTap (n : Nat)
  /-- T.ENDTAP (R181). -/
  | tEndTap
  /-- POLL `n btn0 btn1` (R190). -/
  | poll (n : Nat) (btn0 btn1 : Bool)
  deriving DecidableEq, Repr

end Sys2Proof
end

