-- ==== Sys2Proof/WellFormed.lean ====
section
/-! DEFINITION. Which commands have an encoding: the operand ranges of the layouts (R101 to R103). Every other
operand's type is exactly its field. An operand out of range is "not encodable" (U15, U16): the assembler
`assemble` of Decode.lean refuses it. -/

namespace Sys2Proof

/-- The operand fits the field its layout gives it: T.SETBPM's 16-bit two's complement `v` (R101), the 32-bit
time of T.TICK and T.TAP (R102), the 30-bit elapsed time of POLL (R103). -/
def Instr.wf : Instr → Bool
  | .rbPush _ => true
  | .rbDrain => true
  | .encPins _ _ _ => true
  | .encDrain _ => true
  | .encBtn _ _ => true
  | .tSetBpm v => decide (-32768 ≤ v) && decide (v ≤ 32767)
  | .tTick n => decide (n < 2 ^ 32)
  | .tExtEdge _ => true
  | .tBeginTap => true
  | .tTap n => decide (n < 2 ^ 32)
  | .tEndTap => true
  | .poll n _ _ => decide (n < 2 ^ 30)

end Sys2Proof
end

