-- ==== Sys2Proof/Decode.lean ====
section
/-! DEFINITION. Decoding of a command word presented at a port (R96 to R103, R107 to R111, R115), then the
encoder, the opcode table and the assembler of the trace syntax (R112). Decoding reads no state of the block
(R115), and there is one length and one format (R111). -/

namespace Sys2Proof

/-- `0 → enc0`, `1 → enc1`: the bit `e` of the encoder layouts (R100). -/
def EncIdx.ofBit (b : Bool) : EncIdx := if b then .enc1 else .enc0

/-- The bit `e` of an encoder instance (R100). -/
def EncIdx.bit : EncIdx → Bool
  | .enc0 => false
  | .enc1 => true

/-- The assigned opcodes (R97). -/
inductive Opcode where
  | rbPush | rbDrain | encPins | encDrain | encBtn | tSetBpm | tTick | tExtEdge | tBeginTap | tTap | tEndTap | poll
  deriving DecidableEq, Repr

/-- The opcode number `cmd[35:32]` (R97). -/
def Opcode.bits : Opcode → BitVec 4
  | .rbPush => 0x1#4
  | .rbDrain => 0x2#4
  | .encPins => 0x3#4
  | .encDrain => 0x4#4
  | .encBtn => 0x5#4
  | .tSetBpm => 0x6#4
  | .tTick => 0x7#4
  | .tExtEdge => 0x8#4
  | .tBeginTap => 0x9#4
  | .tTap => 0xA#4
  | .tEndTap => 0xB#4
  | .poll => 0xC#4

/-- The opcode of a number; `none` for the reserved `0x0`, `0xD`, `0xE`, `0xF` (R97, R107). -/
def Opcode.ofBits (op : BitVec 4) : Option Opcode :=
  match op.toNat with
  | 1 => some .rbPush
  | 2 => some .rbDrain
  | 3 => some .encPins
  | 4 => some .encDrain
  | 5 => some .encBtn
  | 6 => some .tSetBpm
  | 7 => some .tTick
  | 8 => some .tExtEdge
  | 9 => some .tBeginTap
  | 10 => some .tTap
  | 11 => some .tEndTap
  | 12 => some .poll
  | _ => none

/-- The port that accepts the opcode: RB.PUSH at port P, every other at port C (R95, R97). -/
def Opcode.port : Opcode → Port
  | .rbPush => .producer
  | .rbDrain => .consumer
  | .encPins => .consumer
  | .encDrain => .consumer
  | .encBtn => .consumer
  | .tSetBpm => .consumer
  | .tTick => .consumer
  | .tExtEdge => .consumer
  | .tBeginTap => .consumer
  | .tTap => .consumer
  | .tEndTap => .consumer
  | .poll => .consumer

/-- The bits of `arg` that the opcode's layout names (R98 to R103, R110); every other bit is reserved (R108). -/
def Opcode.argMask : Opcode → Arg
  | .rbPush => 0x000000FF#32
  | .rbDrain => 0x00000000#32
  | .encPins => 0x00000103#32
  | .encDrain => 0x00000100#32
  | .encBtn => 0x00000101#32
  | .tSetBpm => 0x0000FFFF#32
  | .tTick => 0xFFFFFFFF#32
  | .tExtEdge => 0x00000001#32
  | .tBeginTap => 0x00000000#32
  | .tTap => 0xFFFFFFFF#32
  | .tEndTap => 0x00000000#32
  | .poll => 0xFFFFFFFF#32

/-- `op = cmd[35:32]` (R96). -/
def opField (w : Word) : BitVec 4 := w.extractLsb' 32 4

/-- `arg = cmd[31:0]` (R96). -/
def argField (w : Word) : Arg := w.extractLsb' 0 32

/-- The operands of the layout, extended as each rule says (R98 to R103, R110): `v` of T.SETBPM is
`sext_16(arg[15:0])`, times are unsigned. -/
def Opcode.operands (arg : Arg) : Opcode → Instr
  | .rbPush => .rbPush (arg.extractLsb' 0 8)
  | .rbDrain => .rbDrain
  | .encPins => .encPins (EncIdx.ofBit (arg.getLsbD 8)) (arg.getLsbD 0) (arg.getLsbD 1)
  | .encDrain => .encDrain (EncIdx.ofBit (arg.getLsbD 8))
  | .encBtn => .encBtn (EncIdx.ofBit (arg.getLsbD 8)) (arg.getLsbD 0)
  | .tSetBpm => .tSetBpm (arg.extractLsb' 0 16).toInt
  | .tTick => .tTick arg.toNat
  | .tExtEdge => .tExtEdge (arg.getLsbD 0)
  | .tBeginTap => .tBeginTap
  | .tTap => .tTap arg.toNat
  | .tEndTap => .tEndTap
  | .poll => .poll (arg.extractLsb' 2 30).toNat (arg.getLsbD 0) (arg.getLsbD 1)

/-- Why a word is no command of the port it is presented at (R107 to R109). -/
inductive DecodeError where
  /-- Reserved opcode, or a non-zero reserved bit of `arg` (R107, R108). -/
  | reservedEncoding (w : Word)
  /-- RB.PUSH at port C, or any other command at port P (R109). -/
  | wrongPort (p : Port) (w : Word)
  deriving DecidableEq, Repr

/-- Decoding, in the order of R115: reserved opcode, port, reserved bits, operands. -/
def decodeAt (p : Port) (w : Word) : Except DecodeError Instr :=
  match Opcode.ofBits (opField w) with
  | none => .error (.reservedEncoding w)
  | some op =>
    if op.port = p then
      if argField w &&& ~~~op.argMask = 0#32 then .ok (op.operands (argField w))
      else .error (.reservedEncoding w)
    else .error (.wrongPort p w)

/-- The opcode of a command (R97). -/
def Instr.opcode : Instr → Opcode
  | .rbPush _ => .rbPush
  | .rbDrain => .rbDrain
  | .encPins _ _ _ => .encPins
  | .encDrain _ => .encDrain
  | .encBtn _ _ => .encBtn
  | .tSetBpm _ => .tSetBpm
  | .tTick _ => .tTick
  | .tExtEdge _ => .tExtEdge
  | .tBeginTap => .tBeginTap
  | .tTap _ => .tTap
  | .tEndTap => .tEndTap
  | .poll _ _ _ => .poll

/-- The port a command belongs to (R97, R214). -/
def Instr.port (i : Instr) : Port := i.opcode.port

/-- The mnemonic of R97, as spec/opcode_table.json spells it. -/
def Instr.mnemonic : Instr → String
  | .rbPush _ => "RB.PUSH"
  | .rbDrain => "RB.DRAIN"
  | .encPins _ _ _ => "ENC.PINS"
  | .encDrain _ => "ENC.DRAIN"
  | .encBtn _ _ => "ENC.BTN"
  | .tSetBpm _ => "T.SETBPM"
  | .tTick _ => "T.TICK"
  | .tExtEdge _ => "T.EXTEDGE"
  | .tBeginTap => "T.BEGINTAP"
  | .tTap _ => "T.TAP"
  | .tEndTap => "T.ENDTAP"
  | .poll _ _ _ => "POLL"

/-- A one-bit field at bit `k` of the operand field. -/
def bitAt (k : Nat) (b : Bool) : Arg := if b then 1#32 <<< k else 0#32

/-- The operand field of a command, by the "encoding" column of R112's table. -/
def Instr.argBits : Instr → Arg
  | .rbPush v => v.setWidth 32
  | .rbDrain => 0#32
  | .encPins e a b => bitAt 8 e.bit ||| bitAt 1 b ||| bitAt 0 a
  | .encDrain e => bitAt 8 e.bit
  | .encBtn e level => bitAt 8 e.bit ||| bitAt 0 level
  | .tSetBpm v => (BitVec.ofInt 16 v).setWidth 32
  | .tTick n => BitVec.ofNat 32 n
  | .tExtEdge level => bitAt 0 level
  | .tBeginTap => 0#32
  | .tTap n => BitVec.ofNat 32 n
  | .tEndTap => 0#32
  | .poll n btn0 btn1 => BitVec.ofNat 30 n ++ BitVec.ofBool btn1 ++ BitVec.ofBool btn0

/-- The word of a well-formed command (R96, R112). -/
def encode (i : Instr) : Word := i.opcode.bits ++ i.argBits

/-- The word of a command, or nothing where an operand does not fit its field (U15, U16). -/
def assemble (i : Instr) : Option Word := if i.wf then some (encode i) else none

/-- A row of the machine-readable opcode map (30_encoding.md, opening): `w` is the command of the row exactly
when `w &&& mask = pattern`. -/
structure OpcodeRow where
  mnemonic : String
  pattern : Word
  mask : Word
  port : Port
  deriving DecidableEq, Repr

/-- The rows of spec/opcode_table.json, as they stand there. -/
def opcodeTable : List OpcodeRow := [
  ⟨"RB.PUSH", 0x100000000#36, 0xFFFFFFF00#36, .producer⟩,
  ⟨"RB.DRAIN", 0x200000000#36, 0xFFFFFFFFF#36, .consumer⟩,
  ⟨"ENC.PINS", 0x300000000#36, 0xFFFFFFEFC#36, .consumer⟩,
  ⟨"ENC.DRAIN", 0x400000000#36, 0xFFFFFFEFF#36, .consumer⟩,
  ⟨"ENC.BTN", 0x500000000#36, 0xFFFFFFEFE#36, .consumer⟩,
  ⟨"T.SETBPM", 0x600000000#36, 0xFFFFF0000#36, .consumer⟩,
  ⟨"T.TICK", 0x700000000#36, 0xF00000000#36, .consumer⟩,
  ⟨"T.EXTEDGE", 0x800000000#36, 0xFFFFFFFFE#36, .consumer⟩,
  ⟨"T.BEGINTAP", 0x900000000#36, 0xFFFFFFFFF#36, .consumer⟩,
  ⟨"T.TAP", 0xA00000000#36, 0xF00000000#36, .consumer⟩,
  ⟨"T.ENDTAP", 0xB00000000#36, 0xFFFFFFFFF#36, .consumer⟩,
  ⟨"POLL", 0xC00000000#36, 0xF00000000#36, .consumer⟩]

/-- The port at which a word is presented when nobody names one: the port of its opcode, port C for a
reserved opcode (R97, R112: "without a prefix `push` is on port P and everything else on port C"). -/
def homePort (w : Word) : Port :=
  match Opcode.ofBits (opField w) with
  | some op => op.port
  | none => .consumer

/-- The command the decoder reads from a word numbered as spec/opcode_table.json numbers it. A command word is
36 bits (R96); the table's whole-byte width adds four bits above it, which must be zero. Bits above `nbits` are
zero. -/
def decodeTableWord (nbits w : Nat) : Option Instr :=
  let bits := w % 2 ^ nbits
  if bits < 2 ^ 36 then
    match decodeAt (homePort (BitVec.ofNat 36 bits)) (BitVec.ofNat 36 bits) with
    | .ok i => some i
    | .error _ => none
  else none

end Sys2Proof
end

