-- ==== Sys2Proof/Config.lean ====
section
/-! DEFINITION. The implementation parameters of the block (00_scope.md, R5 to R19) as plain data, the
reference configuration, and the one free choice a parameter leaves (the rounding). Whether a configuration
is well formed (R20) is checked in Machine/Parameters.lean. -/

namespace Sys2Proof

/-- The parameter `ROUND` (R16): a function from non-negative rationals to integers that is the floor or the
ceiling at every point and the identity on integers. `down` is the floor, `up` the ceiling, `unspecified` any
other admissible function: at each non-integer it goes up or down as the free choice `freeRoundUp` says.
No constructor breaks R16, so an inadmissible `ROUND` cannot be written. -/
inductive Rounding where
  | down
  | up
  | unspecified
  deriving DecidableEq, Repr

/-- FREE VALUE: whether an implementation's own `ROUND` goes up at this non-integer rational (R16 leaves it
open; assumption 3). It has no body, so nothing can be proved about what it answers. -/
opaque freeRoundUp : Rat → Bool

/-- The open parameters of R5 to R17. The fixed ones are `SNAP_W = 8` (`Snapshot`), `NUM_ENC = 2` (`EncIdx`),
`TAP_WINDOW = 4` (`tapWindow`) and `TIME_W = 32` (the operand fields of Decode.lean); `IDX_W` is derived (R6). -/
structure Config where
  /-- `CAP` (R5): number of slots of the ring. -/
  cap : Nat
  /-- `DELTA_W` (R9): width in bits of `pendingDelta`. -/
  deltaW : Nat
  /-- `MIN_TEMPO` (R10). -/
  minTempo : Int
  /-- `MAX_TEMPO` (R10). -/
  maxTempo : Int
  /-- `TPB` (R11): clock ticks per beat. -/
  tpb : Nat
  /-- `DEFAULT_BPM` (R12): `bpm` after reset. -/
  defaultBpm : Int
  /-- `RESET_SOFTCLK` (R12): `softwareClockEnabled` after reset. -/
  resetSoftClk : Bool
  /-- `BPM_STEP` (R13): tempo change per detent of the tempo encoder. -/
  bpmStep : Nat
  /-- `TIPB` (R15): tap intervals per beat. -/
  tipb : Nat
  /-- `ROUND` (R16). -/
  round : Rounding
  /-- `TIME_HZ` (R17): time units per second. -/
  timeHz : Nat
  deriving DecidableEq, Repr

/-- Names of the parameters a constraint can fail on, the info of the refusal `BadConfiguration` (R202). -/
inductive ConfigParam where
  | cap | deltaW | minTempo | maxTempo | tpb | defaultBpm | bpmStep | tipb | timeHz
  deriving DecidableEq, Repr

/-- The reference configuration REF (R19). -/
def Config.ref : Config where
  cap := 8
  deltaW := 8
  minTempo := 30
  maxTempo := 300
  tpb := 4
  defaultBpm := 120
  resetSoftClk := true
  bpmStep := 1
  tipb := 1
  round := .down
  timeHz := 1000000

end Sys2Proof
end

