-- ==== Sys2Proof/Machine/Parameters.lean ====
section
/-! DEFINITION. What the rules compute from the parameters: the constraints of R5 to R17, the derived width of
an index, the range of `pendingDelta`, the size of the tap window, and `ROUND`. -/

namespace Sys2Proof

/-- The first parameter, in the order of R5 to R17, whose constraint fails; `none` for a well-formed configuration
(R20). `ROUND` cannot fail R16 (`Rounding`), and `RESET_SOFTCLK` is unconstrained. DESIGN CHOICE (assumption 22): R202
says only "the parameter". Where a constraint joins two, `MIN_TEMPO <= MAX_TEMPO` (R10) is charged to `maxTempo` and
`MIN_TEMPO <= DEFAULT_BPM <= MAX_TEMPO` (R12) to `defaultBpm`; where several fail, the first is named. -/
def Config.violated (c : Config) : Option ConfigParam :=
  if c.cap < 2 then some .cap
  else if c.deltaW < 2 then some .deltaW
  else if c.minTempo < 1 then some .minTempo
  else if c.maxTempo < c.minTempo ∨ 1000 < c.maxTempo then some .maxTempo
  else if c.tpb < 1 then some .tpb
  else if c.defaultBpm < c.minTempo ∨ c.maxTempo < c.defaultBpm then some .defaultBpm
  else if c.bpmStep < 1 then some .bpmStep
  else if c.tipb < 1 then some .tipb
  else if c.timeHz < 1 then some .timeHz
  else none

/-- The configuration is well formed (R20). -/
def Config.wf (c : Config) : Bool := decide (c.violated = none)

/-- `IDX_W = ceil(log2 CAP)` (R6), for `CAP >= 2`. -/
def Config.idxW (c : Config) : Nat := Nat.log2 (c.cap - 1) + 1

/-- The least value of `pendingDelta`, `-2^(DELTA_W-1)` (R9). -/
def Config.deltaMin (c : Config) : Int := -(2 ^ (c.deltaW - 1))

/-- The greatest value of `pendingDelta`, `2^(DELTA_W-1) - 1` (R9). -/
def Config.deltaMax (c : Config) : Int := 2 ^ (c.deltaW - 1) - 1

/-- `TAP_WINDOW` (R14): fixed at 4 by the source. -/
def tapWindow : Nat := 4

/-- `ROUND` (R16): the floor or the ceiling of `x`, and `x` itself where it is an integer. -/
def Rounding.apply : Rounding → Rat → Int
  | .down, x => x.floor
  | .up, x => x.ceil
  | .unspecified, x => if x.den = 1 then x.num else if freeRoundUp x then x.ceil else x.floor

end Sys2Proof
end

