-- ==== Sys2Proof/Machine/State.lean ====
section
/-! DEFINITION. The state of the block (10_state.md, R30 to R60) as plain data, the model's own fields beside it,
the reasons a step can stop, and the state after reset. -/

namespace Sys2Proof.Machine

/-- The slot array: cells of (slot index, snapshot) in the canonical form `Memory.wf` of Machine/Ops.lean
(R34, R70). -/
abbrev Memory := List Host.Cell

/-- `ISR.stage` (R37): `wrote` between micro-steps P1 and P2 of a push. -/
inductive IsrStage where
  | idle
  | wrote
  deriving DecidableEq, Repr

/-- `POLL.drain` (R38): no drain; `Draining(w)` with the bound C0 sampled; `Holding(w, s)` with the snapshot C1 read. -/
inductive DrainStage where
  | notDraining
  | draining (bound : Nat)
  | holding (bound : Nat) (v : Snapshot)
  deriving DecidableEq, Repr

/-- A latched direction: `-1`, `0` or `+1` (R40). -/
inductive Dir where
  | neg
  | zero
  | pos
  deriving DecidableEq, Repr

/-- The state of one EncoderDecoder instance (R39 to R42). -/
structure Encoder where
  /-- `prevA` (R39). -/
  prevA : Bool
  /-- `prevB` (R39). -/
  prevB : Bool
  /-- `latchedDir` (R40). -/
  latchedDir : Dir
  /-- `pendingDelta` (R41): a signed integer in the `DELTA_W` range of R9. -/
  pendingDelta : Int
  /-- `prevPressed` (R42). -/
  prevPressed : Bool
  deriving DecidableEq, Repr

/-- The state of the RingBuffer (R34 to R36). The indices are naturals in `[0, CAP)` (R23). -/
structure Ring where
  /-- `RB.slot` (R34). -/
  slots : Memory
  /-- `RB.writeIdx` (R35). -/
  writeIdx : Nat
  /-- `RB.readIdx` (R36). -/
  readIdx : Nat
  deriving DecidableEq, Repr

/-- The state of the TempoEngine (R43 to R50). `TE.secondsPerPhase` is no field: it is the function `State.spp`
of `bpm` and `TPB`, as R44 allows. Times are exact rational numbers of seconds (R23). -/
structure Tempo where
  /-- `TE.bpm` (R43). -/
  bpm : Int
  /-- `TE.acc` (R45). -/
  acc : Rat
  /-- `TE.softClk` (R46). -/
  softClk : Bool
  /-- `TE.tapCount` (R47): `-1` when not tapping. -/
  tapCount : Int
  /-- `TE.clkLevel` (R48). -/
  clkLevel : Bool
  /-- `TE.tapBuf` (R49), oldest first. -/
  tapBuf : List Rat
  /-- `TE.lastTap` (R50). -/
  lastTap : Rat
  deriving DecidableEq, Repr

/-- The events of port E (R26). -/
inductive Event where
  | turn (e : EncIdx) (d : Int)
  | press (e : EncIdx)
  | release (e : EncIdx)
  | clockRising
  | clockFalling
  deriving DecidableEq, Repr

/-- A component operation of POLL after its drain (R190, steps (b) and (c)): ENC.DRAIN, the T.SETBPM that a turn by
`d` of the tempo encoder asks for (R193), ENC.BTN, T.TICK. -/
inductive PollPart where
  | encDrain (e : EncIdx)
  | wireTempo (d : Int)
  | encBtn (e : EncIdx) (level : Bool)
  | tick (n : Nat)
  deriving DecidableEq, Repr

/-- What ENV, the environment, chooses next (R21, R33, R79): which command stands at which port and which agent
makes the next step. -/
inductive Action where
  /-- A command is presented at a port and its agent performs it as one piece (R125, R128, R190), with no step
  of the other agent in between. -/
  | issue (p : Port) (w : Word)
  /-- A command is presented at a port and its agent makes the FIRST micro-step of it: P1 of RB.PUSH (the
  interrupt of R209), C0 of RB.DRAIN or of POLL's drain; every other command is one step (R79). -/
  | start (p : Port) (w : Word)
  /-- The agent makes the next micro-step of its operation in flight; an agent with none does nothing. -/
  | advance (a : Agent)
  deriving DecidableEq, Repr

/-- The state. `rb`, `isr`, `drain`, `enc0`, `enc1`, `te` are the state R30 gives the block; `cfg`, `pollRest`,
`events` and `env` are the model's own (assumptions 1, 2, 6 and 5). -/
structure State where
  /-- The configuration, fixed for a machine: no step writes it (R5 to R20). -/
  cfg : Config
  /-- The RingBuffer (R34 to R36). -/
  rb : Ring
  /-- `ISR.stage` (R37). -/
  isr : IsrStage
  /-- `POLL.drain` (R38). -/
  drain : DrainStage
  /-- The component operations a POLL in flight has still to perform, in order (R190, R197). -/
  pollRest : List PollPart
  /-- `ENC[0]` (R39 to R42). -/
  enc0 : Encoder
  /-- `ENC[1]` (R39 to R42). -/
  enc1 : Encoder
  /-- The TempoEngine (R43 to R50). -/
  te : Tempo
  /-- The event output stream of port E, oldest first (R26, R51). -/
  events : List Event
  /-- ENV's choices still to come, next first (R21). -/
  env : List Action
  deriving DecidableEq, Repr

/-- The faults: the two of R202 and one of the model's own. A fault leaves no next state (R202). -/
inductive Fault where
  /-- Raised by T.TAP when `tapCount >= 1` and `now <= lastTap`, before any write (R178, R203). Safe. -/
  | tapIntervalNotPositive (now : Rat)
  /-- Raised by ENC.PINS when a commit would leave the `DELTA_W` range (R146, R204). Safe. -/
  | deltaOverflow (e : EncIdx)
  /-- The model's own: raised by a slot access (P1, C1) or a drain bound outside `[0, CAP)`, addresses that do not
  exist and "cannot arise" (R73). Unreachable where the indices are in range (R53). Safe. -/
  | slotOutOfRange (i : Nat)
  deriving DecidableEq, Repr

/-- The refusals of R202, and the one for an instruction without a meaning. -/
inductive Refusal where
  /-- Raised by an arm of `exec` whose instruction has no meaning yet; no arm is. Safe. -/
  | notModelled (mnemonic : String)
  /-- Raised by decoding: reserved opcode or non-zero reserved bits (R205). Safe. -/
  | reservedEncoding (w : Word)
  /-- Raised by decoding: RB.PUSH at port C, anything else at port P (R206). Safe. -/
  | wrongPort (p : Port) (w : Word)
  /-- Raised before any step: a constraint of R5 to R17 fails (R20, R207); which parameter is named where R202 leaves it
  open is the model's choice (assumption 22). Safe. -/
  | badConfiguration (param : ConfigParam)
  deriving DecidableEq, Repr

/-- The outcome of a step of this machine. -/
abbrev Result := Host.Outcome State Fault Refusal

/-- A decoder at reset: at rest, nothing latched, nothing pending, button released (R39 to R42, R60). -/
def Encoder.atReset : Encoder where
  prevA := true
  prevB := true
  latchedDir := .zero
  pendingDelta := 0
  prevPressed := false

/-- The state after reset of a block with configuration `c` (R60, R231). The slots and `TE.lastTap` are
unspecified and unobservable there (U1, U2); here no slot is listed and `lastTap` is 0 (assumption 4). -/
def State.resetWith (c : Config) : State where
  cfg := c
  rb := { slots := [], writeIdx := 0, readIdx := 0 }
  isr := .idle
  drain := .notDraining
  pollRest := []
  enc0 := Encoder.atReset
  enc1 := Encoder.atReset
  te :=
    { bpm := c.defaultBpm, acc := 0, softClk := c.resetSoftClk, tapCount := -1, clkLevel := false, tapBuf := [],
      lastTap := 0 }
  events := []
  env := []

/-- The machine right after reset, in the reference configuration REF (R19, R60; assumption 1). -/
def State.reset : State := State.resetWith Config.ref

end Sys2Proof.Machine
end

