-- ==== Sys2Proof/Machine/Ops.lean ====
section
/-! DEFINITION. The operations every unit shares: sequencing of outcomes, the slot array, index arithmetic, the
state updates, and the two micro-steps of the interrupt. The block has no synchronous exception (R200) and no return
operation (R219): its one asynchronous event is the interrupt, whose entry is `takeInterrupt` (P1) and whose end is
`endInterrupt` (P2). -/

namespace Sys2Proof.Machine

/-- `o`, then `f` from the state it leaves; a fault or a refusal ends the sequence (R27). -/
def andThen (o : Result) (f : State → Result) : Result :=
  match o with
  | .next s => f s
  | .fault r => .fault r
  | .refused r => .refused r

/-! ### The slot array -/

/-- What a slot reads as that nothing has written (R34: unspecified, unobservable by R137; assumption 4). -/
def Memory.unwritten : Snapshot := 0

/-- The value of a slot. -/
def Memory.read : Memory → Nat → Snapshot
  | [], _ => Memory.unwritten
  | (a, x) :: rest, i => if a = i then x else Memory.read rest i

/-- Put a value at the head of cells that lie above it, or nothing where it is what an unlisted slot reads as. -/
def Memory.cons (i : Nat) (v : Snapshot) (m : Memory) : Memory :=
  if v = Memory.unwritten then m else (i, v) :: m

/-- Replace the value of a slot, keeping the canonical form. -/
def Memory.write : Memory → Nat → Snapshot → Memory
  | [], i, v => Memory.cons i v []
  | (a, x) :: rest, i, v =>
    if i < a then Memory.cons i v ((a, x) :: rest)
    else if i = a then Memory.cons i v rest
    else (a, x) :: Memory.write rest i v

/-- All cells lie above `lo`, strictly rising, and none holds what an unlisted slot reads as. -/
def Memory.wfAbove : Nat → Memory → Bool
  | _, [] => true
  | lo, (a, x) :: rest => decide (lo ≤ a) && decide (x ≠ Memory.unwritten) && Memory.wfAbove (a + 1) rest

/-- The canonical form: slot indices strictly rising, no cell equal to what an unlisted slot reads as. -/
def Memory.wf (m : Memory) : Bool := Memory.wfAbove 0 m

/-- `inc(i) = (i + 1) mod CAP` (R23). -/
def inc (cap i : Nat) : Nat := (i + 1) % cap

/-! ### Updates of the state -/

/-- Write the RingBuffer's state. -/
def State.setRb (s : State) (r : Ring) : State := { s with rb := r }

/-- Write `ISR.stage`. -/
def State.setIsr (s : State) (g : IsrStage) : State := { s with isr := g }

/-- Write `POLL.drain`. -/
def State.setDrain (s : State) (d : DrainStage) : State := { s with drain := d }

/-- Write what a POLL in flight has still to do. -/
def State.setPollRest (s : State) (ps : List PollPart) : State := { s with pollRest := ps }

/-- Write the TempoEngine's state. -/
def State.setTe (s : State) (t : Tempo) : State := { s with te := t }

/-- Write what ENV has still to choose. -/
def State.setEnv (s : State) (acts : List Action) : State := { s with env := acts }

/-- `ENC[e]` (R24). -/
def State.enc (s : State) : EncIdx → Encoder
  | .enc0 => s.enc0
  | .enc1 => s.enc1

/-- Write `ENC[e]`. -/
def State.setEnc (s : State) (e : EncIdx) (x : Encoder) : State :=
  match e with
  | .enc0 => { s with enc0 := x }
  | .enc1 => { s with enc1 := x }

/-- `emit` the events, in order (R26). -/
def State.emit (s : State) (evs : List Event) : State := { s with events := s.events ++ evs }

/-- `TE.secondsPerPhase = 30 / (TE.bpm * TPB)` (R44, R163). -/
def State.spp (s : State) : Rat := 30 / ((s.te.bpm : Rat) * (s.cfg.tpb : Rat))

/-! ### Memory primitives and the interrupt -/

/-- `MemWrite(i, 1, v)` (R25), one single-copy atomic access (R75). -/
def memWrite (i : Nat) (v : Snapshot) (s : State) : Result :=
  if i < s.cfg.cap then .next (s.setRb { s.rb with slots := s.rb.slots.write i v })
  else .fault (.slotOutOfRange i)

/-- `MemRead(i, 1)` (R25), handed to `f`; a read has no side effect (R76). -/
def memRead (i : Nat) (s : State) (f : Snapshot → Result) : Result :=
  if i < s.cfg.cap then f (s.rb.slots.read i) else .fault (.slotOutOfRange i)

/-- Micro-step P1 `v` (R126), which is the interrupt's entry: it saves nothing and changes nothing else (R211). -/
def takeInterrupt (v : Snapshot) (s : State) : Result :=
  andThen (memWrite s.rb.writeIdx v s) fun t => .next (t.setIsr .wrote)

/-- Micro-step P2 (R127), which ends the handler; nothing is restored because nothing was saved (R212). -/
def endInterrupt (s : State) : State :=
  (s.setRb { s.rb with writeIdx := inc s.cfg.cap s.rb.writeIdx }).setIsr .idle

end Sys2Proof.Machine
end

