-- ==== Sys2Proof/Machine/Flags.lean ====
section
/-! DEFINITION. The one-bit and three-valued status elements (R52): the conditions that set them, the edges they
select, and the bit encodings R106 gives two of them. -/

namespace Sys2Proof.Machine

/-- The integer a latched direction stands for (R40). -/
def Dir.toInt : Dir → Int
  | .neg => -1
  | .zero => 0
  | .pos => 1

/-- `latchedDir` in 2 bits, two's complement; `0b10` never occurs (R106). -/
def Dir.bits (d : Dir) : BitVec 2 := BitVec.ofInt 2 d.toInt

/-- `tapCount` in `w >= 4` bits, two's complement, saturating at the largest positive value (R106). -/
def tapCountBits (w : Nat) (n : Int) : BitVec w := BitVec.ofInt w (min n (2 ^ (w - 1) - 1))

/-- `consistent(L, pa, pb)` (R18, R143), kept a definition of its own so that the other reading of decision D13 can
take its place. -/
def consistent (l : Dir) (pa pb : Bool) : Bool :=
  match l with
  | .pos => !pa && pb
  | .neg => pa && !pb
  | .zero => false

/-- `commitCond(a, b, pa, pb, L)` (R141). -/
def commitCond (a b pa pb : Bool) (l : Dir) : Bool :=
  (a && b) && !(pa && pb) && decide (l ≠ .zero) && consistent l pa pb

/-- `latchPos(a, b, pa, pb)` (R142). -/
def latchPos (a b pa pb : Bool) : Bool := pa && pb && a && !b

/-- `latchNeg(a, b, pa, pb)` (R142). -/
def latchNeg (a b pa pb : Bool) : Bool := pa && pb && !a && b

/-- The edge the software clock emits at a clock level (R48, R168). -/
def nextEdge (level : Bool) : Event := if level then .clockFalling else .clockRising

/-- The edge an external press (`true`) or release (`false`) is (R171). -/
def externalEdge (level : Bool) : Event := if level then .clockRising else .clockFalling

/-- The event of a button whose level has changed to `level` (R148). -/
def buttonEvent (e : EncIdx) (level : Bool) : Event := if level then .press e else .release e

end Sys2Proof.Machine
end

