-- ==== Sys2Proof/Machine/Operands.lean ====
section
/-! DEFINITION. How an operand becomes the value an operation uses: times, the phases of a snapshot, the clamp of
a tempo, and the component list of a POLL. -/

namespace Sys2Proof.Machine

/-- The time an operand `n` stands for: `n / TIME_HZ` seconds, exact (R17, R102, R103). -/
def secondsOf (c : Config) (n : Nat) : Rat := (n : Rat) / (c.timeHz : Rat)

/-- Phase A of encoder `e` in a snapshot: `s[2e]` (R104, R132). -/
def phaseA (v : Snapshot) : EncIdx → Bool
  | .enc0 => v.getLsbD 0
  | .enc1 => v.getLsbD 2

/-- Phase B of encoder `e` in a snapshot: `s[2e + 1]` (R104, R132). -/
def phaseB (v : Snapshot) : EncIdx → Bool
  | .enc0 => v.getLsbD 1
  | .enc1 => v.getLsbD 3

/-- `clamp(v, lo, hi)` (R23, R162). -/
def clamp (v lo hi : Int) : Int := if v < lo then lo else if hi < v then hi else v

/-- Steps (b) and (c) of a POLL, in the order of R190 and R192; the tempo wiring joins them when encoder 0 has turned
(`wiredPart` of Machine/PollUnit.lean). -/
def pollParts (n : Nat) (btn0 btn1 : Bool) : List PollPart :=
  [.encDrain .enc0, .encBtn .enc0 btn0, .encDrain .enc1, .encBtn .enc1 btn1, .tick n]

end Sys2Proof.Machine
end

