-- ==== Sys2Proof/Machine/EncoderUnit.lean ====
section
/-! DEFINITION. The operations of one EncoderDecoder (41_encoder.md), performed by ENC.PINS, ENC.DRAIN and ENC.BTN,
by the delivery of a snapshot and by POLL. -/

namespace Sys2Proof.Machine

/-- Whether a sample commits a step (R141). -/
def Encoder.commits (x : Encoder) (a b : Bool) : Bool := commitCond a b x.prevA x.prevB x.latchedDir

/-- What a sample does to a decoder, on unbounded integers (R140, R144, R145). -/
def Encoder.onPins (x : Encoder) (a b : Bool) : Encoder :=
  if x.commits a b then
    { x with pendingDelta := x.pendingDelta + x.latchedDir.toInt, latchedDir := .zero, prevA := a, prevB := b }
  else if latchPos a b x.prevA x.prevB then { x with latchedDir := .pos, prevA := a, prevB := b }
  else if latchNeg a b x.prevA x.prevB then { x with latchedDir := .neg, prevA := a, prevB := b }
  else { x with prevA := a, prevB := b }

/-- `v` is in the range of `pendingDelta` (R9). -/
def deltaInRange (c : Config) (v : Int) : Bool := decide (c.deltaMin ≤ v) && decide (v ≤ c.deltaMax)

/-- ENC.PINS `e a b` (R140), with the fault of R146. -/
def encPins (e : EncIdx) (a b : Bool) (s : State) : Result :=
  if (s.enc e).commits a b && !deltaInRange s.cfg ((s.enc e).pendingDelta + (s.enc e).latchedDir.toInt) then
    .fault (.deltaOverflow e)
  else .next (s.setEnc e ((s.enc e).onPins a b))

/-- The event ENC.DRAIN emits for a delta: none exactly when it is zero (R147). -/
def turnEvents (e : EncIdx) (d : Int) : List Event := if d = 0 then [] else [.turn e d]

/-- ENC.DRAIN `e` (R147). -/
def encDrain (e : EncIdx) (s : State) : State :=
  (s.setEnc e { s.enc e with pendingDelta := 0 }).emit (turnEvents e (s.enc e).pendingDelta)

/-- The event of ENC.BTN: none when the level has not changed (R148). -/
def buttonEvents (e : EncIdx) (prev level : Bool) : List Event := if level = prev then [] else [buttonEvent e level]

/-- ENC.BTN `e level` (R148). -/
def encBtn (e : EncIdx) (level : Bool) (s : State) : State :=
  (s.setEnc e { s.enc e with prevPressed := level }).emit (buttonEvents e (s.enc e).prevPressed level)

end Sys2Proof.Machine
end

