-- ==== Sys2Proof/Machine/RingUnit.lean ====
section
/-! DEFINITION. The consumer side of the ring: micro-steps C0, C1, C2 of RB.DRAIN (40_ringbuffer.md). The producer's
P1 and P2 are `takeInterrupt` and `endInterrupt` of Machine/Ops.lean. -/

namespace Sys2Proof.Machine

/-- `deliver(v)`: ENC.PINS for encoder 0, then for encoder 1, with the snapshot's phases (R132). -/
def deliver (v : Snapshot) (s : State) : Result :=
  andThen (encPins .enc0 (phaseA v .enc0) (phaseB v .enc0) s) fun t =>
    encPins .enc1 (phaseA v .enc1) (phaseB v .enc1) t

/-- The stage a drain with this bound is in when nothing is held: complete exactly when the two indices are equal
(R129, R131). -/
def stageAt (readIdx bound : Nat) : DrainStage := if readIdx = bound then .notDraining else .draining bound

/-- Micro-step C0 (R129): the bound is `RB.writeIdx`, sampled once. -/
def drainC0 (s : State) : State := s.setDrain (stageAt s.rb.readIdx s.rb.writeIdx)

/-- Micro-step C1 (R130). -/
def drainC1 (bound : Nat) (s : State) : Result :=
  memRead s.rb.readIdx s fun v => .next (s.setDrain (.holding bound v))

/-- The advance of `RB.readIdx` and the end test of C2 (R131). -/
def popSlot (bound : Nat) (s : State) : State :=
  (s.setRb { s.rb with readIdx := inc s.cfg.cap s.rb.readIdx }).setDrain
    (stageAt (inc s.cfg.cap s.rb.readIdx) bound)

/-- Micro-step C2 (R131): deliver, advance `RB.readIdx`, test for the bound. -/
def drainC2 (bound : Nat) (v : Snapshot) (s : State) : Result :=
  andThen (deliver v s) fun t => .next (popSlot bound t)

/-- The next micro-step of a drain in flight; nothing when there is none. -/
def drainStep (s : State) : Result :=
  match s.drain with
  | .notDraining => .next s
  | .draining w => drainC1 w s
  | .holding w v => drainC2 w v s

/-- The bound of a drain in flight. -/
def DrainStage.bound : DrainStage → Nat
  | .notDraining => 0
  | .draining w => w
  | .holding w _ => w

/-- Micro-steps of a drain in flight until it is complete, at most `k` of them. With indices and bound in `[0, CAP)`
a drain has at most `2 * (CAP - 1)` left (R128); a drain that has more has a bound that is no slot. -/
def finishDrain : Nat → State → Result
  | 0, s => if s.drain = .notDraining then .next s else .fault (.slotOutOfRange s.drain.bound)
  | k + 1, s => if s.drain = .notDraining then .next s else andThen (drainStep s) (finishDrain k)

/-- A whole drain from C0 on, with no step of ISR in between (R128). -/
def drainRing (s : State) : Result := finishDrain (2 * s.cfg.cap) (drainC0 s)

end Sys2Proof.Machine
end

