-- ==== Sys2Proof/Machine/TempoUnit.lean ====
section
/-! DEFINITION. The operations of the TempoEngine (42_tempo.md), performed by the T commands, by the taps and by
POLL. -/

namespace Sys2Proof.Machine

/-- T.SETBPM with any integer `v` (R161, R162); `secondsPerPhase` follows `bpm` (`State.spp`), nothing else is
written (R164). -/
def setBpm (v : Int) (s : State) : State :=
  s.setTe { s.te with bpm := clamp v s.cfg.minTempo s.cfg.maxTempo }

/-- The edges, the level and the accumulator a run of the catch-up loop leaves (R166). -/
structure ClockRun where
  edges : List Event
  level : Bool
  acc : Rat
  deriving DecidableEq, Repr

/-- The catch-up loop of T.TICK (R165, R166), at most `k` rounds. -/
def catchUp : Nat → Rat → Bool → Rat → ClockRun
  | 0, _, level, acc => ⟨[], level, acc⟩
  | k + 1, spp, level, acc =>
    if spp ≤ acc then
      let r := catchUp k spp (!level) (acc - spp)
      ⟨nextEdge level :: r.edges, r.level, r.acc⟩
    else ⟨[], level, acc⟩

/-- How many rounds the catch-up loop can take: `floor(acc / spp)` (R166, R169). -/
def catchUpRounds (acc spp : Rat) : Nat := (acc / spp).floor.toNat

/-- What T.TICK of `dt` seconds does in software mode: the loop from `acc + dt` (R165). -/
def clockRun (s : State) (dt : Rat) : ClockRun :=
  catchUp (catchUpRounds (s.te.acc + dt) s.spp) s.spp s.te.clkLevel (s.te.acc + dt)

/-- T.TICK `n` (R165); in external mode the time is discarded (R167). -/
def tick (n : Nat) (s : State) : State :=
  if s.te.softClk then
    let r := clockRun s (secondsOf s.cfg n)
    (s.setTe { s.te with acc := r.acc, clkLevel := r.level }).emit r.edges
  else s.setTe { s.te with acc := 0 }

/-- T.EXTEDGE `level` (R171); nothing in software mode (R172). -/
def extEdge (level : Bool) (s : State) : State :=
  if s.te.softClk then s else (s.setTe { s.te with clkLevel := level }).emit [externalEdge level]

/-- T.BEGINTAP (R173). -/
def beginTap (s : State) : State := s.setTe { s.te with tapCount := 0, tapBuf := [] }

/-- The sliding window after one more duration: the oldest is removed once it is full (R177). -/
def pushTap (buf : List Rat) (d : Rat) : List Rat :=
  (if buf.length = tapWindow then buf.drop 1 else buf) ++ [d]

/-- The exact arithmetic mean of the durations (R179). -/
def meanTap (buf : List Rat) : Rat := buf.sum / (buf.length : Rat)

/-- `ROUND(60 / (mean * TIPB))` (R180), an unbounded integer. -/
def tempoOfTaps (c : Config) (buf : List Rat) : Int := c.round.apply (60 / (meanTap buf * (c.tipb : Rat)))

/-- T.TAP `n` (R174): ignored outside tap mode (R175), the first tap records its timestamp only (R176), a later one
sets the tempo (R177, R179, R180) or faults before any write (R178). -/
def tap (n : Nat) (s : State) : Result :=
  let now := secondsOf s.cfg n
  if s.te.tapCount = -1 then .next s
  else if s.te.tapCount = 0 then .next (s.setTe { s.te with lastTap := now, tapCount := 1 })
  else if now - s.te.lastTap ≤ 0 then .fault (.tapIntervalNotPositive now)
  else
    let buf := pushTap s.te.tapBuf (now - s.te.lastTap)
    .next (setBpm (tempoOfTaps s.cfg buf)
      (s.setTe { s.te with lastTap := now, tapBuf := buf, tapCount := s.te.tapCount + 1 }))

/-- T.ENDTAP (R181): a gesture without a tap toggles the clock source and clears the accumulator (R182). -/
def endTap (s : State) : State :=
  if s.te.tapCount = 0 then s.setTe { s.te with softClk := !s.te.softClk, acc := 0, tapCount := -1 }
  else s.setTe { s.te with tapCount := -1 }

end Sys2Proof.Machine
end

