-- ==== Sys2Proof/Machine/PollUnit.lean ====
section
/-! DEFINITION. The component operations of POLL (43_poll.md), what POLL has in flight, and the rule that an agent
takes its next command when the previous one has completed (R95). -/

namespace Sys2Proof.Machine

/-- The tempo-encoder wiring (R193): the T.SETBPM that a turn by `d` of encoder 0 asks for, with `bpm + d * BPM_STEP`
on unbounded integers. -/
def wireTempo (d : Int) (s : State) : State := setBpm (s.te.bpm + d * (s.cfg.bpmStep : Int)) s

/-- One component operation of POLL (R190), one step of R79. -/
def runPart : PollPart → State → State
  | .encDrain e, s => encDrain e s
  | .wireTempo d, s => wireTempo d s
  | .encBtn e level, s => encBtn e level s
  | .tick n, s => tick n s

/-- The component operation that a component, performed in `s`, puts next (R190, R193): the tempo wiring after an
ENC.DRAIN of encoder 0 that emits a turn, nothing after any other. -/
def wiredPart (p : PollPart) (s : State) : List PollPart :=
  match p with
  | .encDrain .enc0 => if s.enc0.pendingDelta = 0 then [] else [.wireTempo s.enc0.pendingDelta]
  | .encDrain .enc1 => []
  | .wireTempo _ => []
  | .encBtn _ _ => []
  | .tick _ => []

/-- Component operations in order, nothing put between them. -/
def runParts : List PollPart → State → State
  | [], s => s
  | p :: ps, s => runParts ps (runPart p s)

/-- Component operations in order, each with what it puts next; the wiring itself puts nothing next. -/
def finishParts : List PollPart → State → State
  | [], s => s
  | p :: ps, s => finishParts ps (runParts (wiredPart p s) (runPart p s))

/-- The component operations a POLL in flight has still to perform. -/
def finishRest (s : State) : State := finishParts s.pollRest (s.setPollRest [])

/-- The operation POLL has in flight, to its end, with no step of ISR in between. -/
def finishPoll (s : State) : Result := andThen (finishDrain (2 * s.cfg.cap) s) fun t => .next (finishRest t)

/-- A command of port C: it is taken when the operation POLL has in flight has completed (R38, R95, R190). -/
def onPoll (s : State) (f : State → Result) : Result := andThen (finishPoll s) f

/-- A command of port P: a second push is taken only after P2 of the first (R80, R212). -/
def finishPush (s : State) : State :=
  match s.isr with
  | .idle => s
  | .wrote => endInterrupt s

/-- Micro-step C0 of the drain of a POLL, with steps (b) and (c) left to do (R190, R191). -/
def startPoll (n : Nat) (btn0 btn1 : Bool) (s : State) : State := drainC0 (s.setPollRest (pollParts n btn0 btn1))

/-- The next micro-step of what POLL has in flight: C1 or C2 of a drain, else the next component of a POLL command
alone, else nothing. A push can fall before and after it (R79, R197), also between an ENC.DRAIN of encoder 0 and the
T.SETBPM it asks for. -/
def pollStep (s : State) : Result :=
  match s.drain with
  | .draining w => drainC1 w s
  | .holding w v => drainC2 w v s
  | .notDraining =>
    match s.pollRest with
    | [] => .next s
    | p :: ps => .next (runPart p (s.setPollRest (wiredPart p s ++ ps)))

end Sys2Proof.Machine
end

