-- ==== Sys2Proof/Machine/EncoderDecoder.lean ====
section
/-! DEFINITION. The meanings of ENC.PINS, ENC.DRAIN and ENC.BTN (41_encoder.md). -/

namespace Sys2Proof.Machine

/-- ENC.PINS `e a b` (R140). -/
def execEncPins (e : EncIdx) (a b : Bool) (s : State) : Result := onPoll s (encPins e a b)

/-- ENC.DRAIN `e` (R147). -/
def execEncDrain (e : EncIdx) (s : State) : Result := onPoll s fun t => .next (encDrain e t)

/-- ENC.BTN `e level` (R148). -/
def execEncBtn (e : EncIdx) (level : Bool) (s : State) : Result := onPoll s fun t => .next (encBtn e level t)

end Sys2Proof.Machine
end

