-- ==== Sys2Proof/Machine/PollTick.lean ====
section
/-! DEFINITION. The meaning of POLL as one piece (43_poll.md). -/

namespace Sys2Proof.Machine

/-- POLL `n btn0 btn1` (R190): the drain of step (a), then the components of steps (b) and (c). -/
def execPoll (n : Nat) (btn0 btn1 : Bool) (s : State) : Result :=
  onPoll s fun t => finishPoll (startPoll n btn0 btn1 t)

end Sys2Proof.Machine
end

