-- ==== Sys2Proof/Machine/RingBuffer.lean ====
section
/-! DEFINITION. The meanings of RB.PUSH and RB.DRAIN, each as one piece (40_ringbuffer.md). -/

namespace Sys2Proof.Machine

/-- RB.PUSH `v` (R125): P1, then P2. It never tests for fullness. -/
def execRbPush (v : Snapshot) (s : State) : Result :=
  andThen (takeInterrupt v (finishPush s)) fun t => .next (endInterrupt t)

/-- RB.DRAIN (R128): C0, then C1 and C2 until the bound is reached. -/
def execRbDrain (s : State) : Result := onPoll s drainRing

end Sys2Proof.Machine
end

