-- ==== Sys2Proof/Machine/TempoEngine.lean ====
section
/-! DEFINITION. The meanings of the six TempoEngine commands (42_tempo.md). -/

namespace Sys2Proof.Machine

/-- T.SETBPM `v` (R161). -/
def execTSetBpm (v : Int) (s : State) : Result := onPoll s fun t => .next (setBpm v t)

/-- T.TICK `n` (R165). -/
def execTTick (n : Nat) (s : State) : Result := onPoll s fun t => .next (tick n t)

/-- T.EXTEDGE `level` (R171). -/
def execTExtEdge (level : Bool) (s : State) : Result := onPoll s fun t => .next (extEdge level t)

/-- T.BEGINTAP (R173). -/
def execTBeginTap (s : State) : Result := onPoll s fun t => .next (beginTap t)

/-- T.TAP `n` (R174). -/
def execTTap (n : Nat) (s : State) : Result := onPoll s (tap n)

/-- T.ENDTAP (R181). -/
def execTEndTap (s : State) : Result := onPoll s fun t => .next (endTap t)

end Sys2Proof.Machine
end

