-- ==== Sys2Proof/Machine/Dispatch.lean ====
section
/-! DEFINITION. Which meaning each command has (R97). -/

namespace Sys2Proof.Machine

/-- The command `i`, performed by its agent as one piece. -/
def exec (i : Instr) (s : State) : Host.Outcome State Fault Refusal :=
  match i with
  | .rbPush v => Sys2Proof.Machine.execRbPush v s
  | .rbDrain => Sys2Proof.Machine.execRbDrain s
  | .encPins e a b => Sys2Proof.Machine.execEncPins e a b s
  | .encDrain e => Sys2Proof.Machine.execEncDrain e s
  | .encBtn e level => Sys2Proof.Machine.execEncBtn e level s
  | .tSetBpm v => Sys2Proof.Machine.execTSetBpm v s
  | .tTick n => Sys2Proof.Machine.execTTick n s
  | .tExtEdge level => Sys2Proof.Machine.execTExtEdge level s
  | .tBeginTap => Sys2Proof.Machine.execTBeginTap s
  | .tTap n => Sys2Proof.Machine.execTTap n s
  | .tEndTap => Sys2Proof.Machine.execTEndTap s
  | .poll n btn0 btn1 => Sys2Proof.Machine.execPoll n btn0 btn1 s

end Sys2Proof.Machine
end

