-- ==== Sys2Proof/Machine/Schedule.lean ====
section
/-! DEFINITION. One choice of ENV carried out (R79): taking a command at a port, the first micro-step of a command,
the next micro-step of an agent, and what happens when ENV has nothing more to say. -/

namespace Sys2Proof.Machine

/-- The refusal a decoding error is (R205, R206). -/
def refusalOf : DecodeError → Refusal
  | .reservedEncoding w => .reservedEncoding w
  | .wrongPort p w => .wrongPort p w

/-- Decode the word at the port and hand the command to `f` (R115). -/
def takeCommand (p : Port) (w : Word) (f : Instr → Result) : Result :=
  match decodeAt p w with
  | .ok i => f i
  | .error err => .refused (refusalOf err)

/-- The first micro-step of a command (R79): P1 of RB.PUSH, C0 of RB.DRAIN and of POLL; every other command is one
step. -/
def startCommand (i : Instr) (s : State) : Result :=
  match i with
  | .rbPush v => takeInterrupt v (finishPush s)
  | .rbDrain => onPoll s fun t => .next (drainC0 t)
  | .encPins e a b => exec (.encPins e a b) s
  | .encDrain e => exec (.encDrain e) s
  | .encBtn e level => exec (.encBtn e level) s
  | .tSetBpm v => exec (.tSetBpm v) s
  | .tTick n => exec (.tTick n) s
  | .tExtEdge level => exec (.tExtEdge level) s
  | .tBeginTap => exec .tBeginTap s
  | .tTap n => exec (.tTap n) s
  | .tEndTap => exec .tEndTap s
  | .poll n btn0 btn1 => onPoll s fun t => .next (startPoll n btn0 btn1 t)

/-- The next micro-step of an agent: P2 of a push in flight (R127), or `pollStep`. -/
def advanceAgent (a : Agent) (s : State) : Result :=
  match a with
  | .isr => .next (finishPush s)
  | .poll => pollStep s

/-- With no choice of ENV left, an operation in flight goes on to its end, ISR before POLL; a block with none in
flight keeps its state (R33, R85; assumption 7). -/
def idleStep (s : State) : Result :=
  match s.isr with
  | .wrote => .next (endInterrupt s)
  | .idle => pollStep s

/-- Carry out ENV's next choice. -/
def runAction (act : Action) (s : State) : Result :=
  match act with
  | .issue p w => takeCommand p w fun i => exec i s
  | .start p w => takeCommand p w fun i => startCommand i s
  | .advance a => advanceAgent a s

/-- One step of a well-formed block: ENV's next choice, taken from the head of its list. -/
def envStep (s : State) : Result :=
  match s.env with
  | [] => idleStep s
  | act :: rest => runAction act (s.setEnv rest)

/-- The action that presents a table word as the next command, at the port its opcode belongs to. -/
def tableAction (nbits w : Nat) : Action :=
  .issue (homePort (BitVec.ofNat 36 (w % 2 ^ nbits))) (BitVec.ofNat 36 (w % 2 ^ nbits))

end Sys2Proof.Machine
end

