-- ==== Sys2Proof/Machine/Step.lean ====
section
/-! DEFINITION. One step of the machine, and where a command is presented. -/

namespace Sys2Proof.Machine

/-- One step: a block whose configuration breaks a constraint is refused before any step (R20, R207); a well-formed
one carries out ENV's next choice. -/
def step (s : State) : Host.Outcome State Fault Refusal :=
  match s.cfg.violated with
  | some param => .refused (.badConfiguration param)
  | none => envStep s

/-- `s` with the table word standing next at the port of its opcode, before everything else ENV has chosen. -/
def State.withFetchWord (s : State) (nbits w : Nat) : State := s.setEnv (tableAction nbits w :: s.env)

end Sys2Proof.Machine
end

