-- ==== Sys2Proof/Machine/EventWord.lean ====
section
/-! DEFINITION. The event words of port E (R105). -/

namespace Sys2Proof.Machine

/-- `kind` (R105). Kinds 0, 6 and 7 are never produced. -/
def Event.kind : Event → BitVec 3
  | .turn _ _ => 1#3
  | .press _ => 2#3
  | .release _ => 3#3
  | .clockRising => 4#3
  | .clockFalling => 5#3

/-- The encoder bit `e`, 0 for a clock edge (R105). -/
def Event.encBit : Event → Bool
  | .turn e _ => e.bit
  | .press e => e.bit
  | .release e => e.bit
  | .clockRising => false
  | .clockFalling => false

/-- The delta a `turn` carries, 0 for any other event (R105). -/
def Event.delta : Event → Int
  | .turn _ d => d
  | .press _ => 0
  | .release _ => 0
  | .clockRising => 0
  | .clockFalling => 0

/-- The event word (R105): `kind`, `e`, four zero bits, and the delta in two's complement in `w` bits, `w` being
`DELTA_W`. With `w = 8` it has 16 bits. -/
def Event.word (w : Nat) (ev : Event) : BitVec (3 + 1 + 4 + w) :=
  ev.kind ++ BitVec.ofBool ev.encBit ++ 0#4 ++ BitVec.ofInt w ev.delta

/-- What port E has delivered: one word per event, in emission order (R95). -/
def State.portE (s : State) : List (BitVec (3 + 1 + 4 + s.cfg.deltaW)) := s.events.map (Event.word s.cfg.deltaW)

end Sys2Proof.Machine
end

