-- ==== Sys2Proof/Safety.lean ====
section
/-! DEFINITION. What counts as a good state (the invariants of 10_state.md section 7), when an agent is between
operations, and what a safe run is. -/

namespace Sys2Proof.Machine

/-- A drain in flight has a bound that is a slot and is not yet reached (R38, R130). -/
def DrainStage.good (c : Config) (readIdx : Nat) : DrainStage → Prop
  | .notDraining => True
  | .draining w => w < c.cap ∧ readIdx ≠ w
  | .holding w _ => w < c.cap ∧ readIdx ≠ w

/-- The ring: indices in `[0, CAP)` (R53), the slot array in canonical form and listing only slots that exist. -/
structure Ring.Good (c : Config) (r : Ring) : Prop where
  write_lt : r.writeIdx < c.cap
  read_lt : r.readIdx < c.cap
  slots_wf : r.slots.wf = true
  slots_lt : ∀ cell ∈ r.slots, cell.1 < c.cap

/-- A decoder: `pendingDelta` is in the range of R9 (R59). That `latchedDir` is one of three values is its type. -/
def Encoder.Good (c : Config) (x : Encoder) : Prop := c.deltaMin ≤ x.pendingDelta ∧ x.pendingDelta ≤ c.deltaMax

/-- The TempoEngine: R54, R45, R56, R47, R57, R49, R50. -/
structure Tempo.Good (c : Config) (t : Tempo) : Prop where
  bpm_ge : c.minTempo ≤ t.bpm
  bpm_le : t.bpm ≤ c.maxTempo
  acc_nonneg : 0 ≤ t.acc
  acc_held : t.softClk = false → t.acc = 0
  tapCount_ge : -1 ≤ t.tapCount
  tapBuf_length : 0 ≤ t.tapCount → (t.tapBuf.length : Int) = min (max (t.tapCount - 1) 0) 4
  tapBuf_le : t.tapBuf.length ≤ tapWindow
  tapBuf_pos : ∀ d ∈ t.tapBuf, 0 < d
  lastTap_nonneg : 0 ≤ t.lastTap

/-- The events of port E: a `turn` carries a non-zero delta in the range of R9 (R26, R105). -/
def Event.Good (c : Config) : Event → Prop
  | .turn _ d => d ≠ 0 ∧ c.deltaMin ≤ d ∧ d ≤ c.deltaMax
  | .press _ => True
  | .release _ => True
  | .clockRising => True
  | .clockFalling => True

/-- THE INVARIANT of the block: a well-formed configuration and every unit in a good state (R53 to R59). -/
structure State.Good (s : State) : Prop where
  cfg : s.cfg.wf = true
  rb : s.rb.Good s.cfg
  drain : s.drain.good s.cfg s.rb.readIdx
  enc : ∀ e, (s.enc e).Good s.cfg
  te : s.te.Good s.cfg
  events : ∀ ev ∈ s.events, ev.Good s.cfg

/-- POLL is between operations: no drain and no POLL command in flight (R38). -/
abbrev State.pollIdle (s : State) : Prop := s.drain = .notDraining ∧ s.pollRest = []

/-- ISR is between pushes (R37). -/
abbrev State.isrIdle (s : State) : Prop := s.isr = .idle

/-- The snapshots a drain that begins now would deliver, oldest first: the slots from `RB.readIdx` up to, not
including, `RB.writeIdx` (R128, R133). -/
def State.unread (s : State) : List Snapshot :=
  (List.range ((s.rb.writeIdx + s.cfg.cap - s.rb.readIdx) % s.cfg.cap)).map fun k =>
    s.rb.slots.read ((s.rb.readIdx + k) % s.cfg.cap)

/-- What a sequence of snapshots does to decoder `e`, on unbounded integers (R132, R140). -/
def Encoder.afterAll (e : EncIdx) (x : Encoder) (vs : List Snapshot) : Encoder :=
  vs.foldl (fun y v => y.onPins (phaseA v e) (phaseB v e)) x

/-- `k` commits, each way, keep the delta of `x` in range. -/
def Encoder.hasRoom (c : Config) (k : Nat) (x : Encoder) : Prop :=
  c.deltaMin ≤ x.pendingDelta - (k : Int) ∧ x.pendingDelta + (k : Int) ≤ c.deltaMax

/-- The agent of a port: ISR issues at port P, POLL at port C (R95, R214). -/
def Port.agent : Port → Agent
  | .producer => .isr
  | .consumer => .poll

/-- The agent whose step one of ENV's choices is (R79). -/
def Action.agent : Action → Agent
  | .issue p _ => Port.agent p
  | .start p _ => Port.agent p
  | .advance a => a

/-- Commands performed one after the other, each as one piece. -/
def runCommands : List Instr → State → Result
  | [], s => .next s
  | i :: rest, s => andThen (exec i s) (runCommands rest)

/-- ENV's choices carried out one after the other, each by one `step`, before everything ENV has chosen already. -/
def runActions : List Action → State → Result
  | [], s => .next s
  | a :: rest, s => andThen (step (s.setEnv (a :: s.env))) (runActions rest)

/-- A SAFE RUN of `k` steps from `s`: no fault and no refusal, the premise of every claim about a run (R202). -/
def SafeRun (k : Nat) (s : State) : Prop := ∃ t, Sys2Proof.core.run k s = .next t

end Sys2Proof.Machine
end

