-- ==== Sys2Proof/Certificates/Slice0/Obligations.lean ====
section
/-! DEFINITION. The statements about the model, for the provers. A claim about a next state holds for every
configuration a state can carry; the reference configuration is never assumed. ENV's choices stand in `State.env`, the
model's own field (assumptions 5 and 8): a statement with `env` in it says what a step does with a choice of ENV. "The
spec's inference" marks a rule that the spec itself marks "[derived: ...]". -/

open Sys2Proof Sys2Proof.Machine

/-! ### Encoding and ports -/

/-- Decoding the word of a well-formed command, at the port of the command, gives the command back. -/
def Obligations.DecodeOfEncode : Prop :=
  ∀ i : Instr, i.wf = true → decodeAt i.port (encode i) = .ok i

/-- A word that decodes is the word of the well-formed command it decodes to, at that command's port. -/
def Obligations.EncodeOfDecode : Prop :=
  ∀ (p : Port) (w : Word) (i : Instr), decodeAt p w = .ok i → i.wf = true ∧ i.port = p ∧ encode i = w

/-- A word is the command of a row of the opcode table exactly when the row's mask and match say so. -/
def Obligations.OpcodeTableDecides : Prop :=
  ∀ row ∈ opcodeTable, ∀ w : Word,
    w &&& row.mask = row.pattern ↔ ∃ i, decodeAt row.port w = .ok i ∧ i.mnemonic = row.mnemonic

/-- Words written out from R112's table decode to the commands it gives them. -/
def Obligations.WrittenWordsDecode : Prop :=
  decodeAt .producer 0x10000000D#36 = .ok (.rbPush 0x0D) ∧
  decodeAt .consumer 0x200000000#36 = .ok .rbDrain ∧
  decodeAt .consumer 0x300000102#36 = .ok (.encPins .enc1 false true) ∧
  decodeAt .consumer 0x400000100#36 = .ok (.encDrain .enc1) ∧
  decodeAt .consumer 0x500000101#36 = .ok (.encBtn .enc1 true) ∧
  decodeAt .consumer 0x60000FFFB#36 = .ok (.tSetBpm (-5)) ∧
  decodeAt .consumer 0x7FFFFFFFF#36 = .ok (.tTick 4294967295) ∧
  decodeAt .consumer 0x800000001#36 = .ok (.tExtEdge true) ∧
  decodeAt .consumer 0x900000000#36 = .ok .tBeginTap ∧
  decodeAt .consumer 0xA00061A80#36 = .ok (.tTap 400000) ∧
  decodeAt .consumer 0xB00000000#36 = .ok .tEndTap ∧
  decodeAt .consumer 0xC0003D092#36 = .ok (.poll 62500 false true)

/-- R107: a word with opcode 0x0, 0xD, 0xE or 0xF is refused at either port, however it is presented. -/
def Obligations.ReservedOpcodeIsRefused : Prop :=
  ∀ (s : State) (p : Port) (w : Word) (rest : List Action), s.cfg.wf = true →
    w.extractLsb' 32 4 ∈ [0x0#4, 0xD#4, 0xE#4, 0xF#4] →
    (s.env = .issue p w :: rest ∨ s.env = .start p w :: rest) → step s = .refused (.reservedEncoding w)

/-- R108: a word with the opcode of a row, at the row's port, with a non-zero bit its layout does not name. -/
def Obligations.ReservedBitIsRefused : Prop :=
  ∀ (s : State) (w : Word) (rest : List Action), ∀ row ∈ opcodeTable, s.cfg.wf = true →
    w.extractLsb' 32 4 = row.pattern.extractLsb' 32 4 → w &&& row.mask ≠ row.pattern →
    (s.env = .issue row.port w :: rest ∨ s.env = .start row.port w :: rest) →
    step s = .refused (.reservedEncoding w)

/-- R109: RB.PUSH at port C, or any other command at port P, whatever its operand bits. -/
def Obligations.WrongPortIsRefused : Prop :=
  ∀ (s : State) (p : Port) (w : Word) (rest : List Action), ∀ row ∈ opcodeTable, s.cfg.wf = true →
    w.extractLsb' 32 4 = row.pattern.extractLsb' 32 4 → row.port ≠ p →
    (s.env = .issue p w :: rest ∨ s.env = .start p w :: rest) → step s = .refused (.wrongPort p w)

/-- R20 (the spec's inference), R207: the step refuses with `BadConfiguration` exactly when a constraint of R5 to R17
fails; `ROUND` cannot break its own (assumption 12). -/
def Obligations.BadConfigurationIsRefused : Prop :=
  ∀ s : State, (∃ param, step s = .refused (.badConfiguration param)) ↔
    ¬ (2 ≤ s.cfg.cap ∧ 2 ≤ s.cfg.deltaW ∧ 1 ≤ s.cfg.minTempo ∧ s.cfg.minTempo ≤ s.cfg.maxTempo ∧
      s.cfg.maxTempo ≤ 1000 ∧ 1 ≤ s.cfg.tpb ∧ s.cfg.minTempo ≤ s.cfg.defaultBpm ∧ s.cfg.defaultBpm ≤ s.cfg.maxTempo ∧
      1 ≤ s.cfg.bpmStep ∧ 1 ≤ s.cfg.tipb ∧ 1 ≤ s.cfg.timeHz)

/-- A step runs the command the presented word decodes to, after taking it off ENV's list. -/
def Obligations.StepRunsTheDecodedCommand : Prop :=
  ∀ (s : State) (p : Port) (w : Word) (rest : List Action) (i : Instr), s.cfg.wf = true →
    s.env = .issue p w :: rest → decodeAt p w = .ok i → step s = exec i { s with env := rest }

/-- A table word put at the head of ENV's list is the command the next step runs. This is about the model's own placing
and no rule of the spec: the block fetches nothing (R33), the list is assumption 5 (DESIGN CHOICE), and the 40-bit table
word of which the low 36 bits are kept is assumption 16 (DEDUCED). -/
def Obligations.PlacedWordRunsNext : Prop :=
  ∀ (s : State) (nbits w : Nat) (i : Instr), s.cfg.wf = true → decodeTableWord nbits w = some i →
    step (s.withFetchWord nbits w) = exec i s

/-- An index register of `IDX_W` bits holds every index, and one of a bit fewer does not (R6). -/
def Obligations.IndexWidthIsTight : Prop :=
  ∀ c : Config, 2 ≤ c.cap → c.cap ≤ 2 ^ c.idxW ∧ 2 ^ (c.idxW - 1) < c.cap

/-- The event words of R105 with `DELTA_W = 8`, field by field. -/
def Obligations.EventWordLayout : Prop :=
  ∀ ev : Event, let w : BitVec 16 := ev.word 8
    w.extractLsb' 8 4 = 0#4 ∧
    (∀ e d, ev = .turn e d → w.extractLsb' 13 3 = 1#3 ∧ w.getLsbD 12 = e.bit ∧ w.extractLsb' 0 8 = BitVec.ofInt 8 d) ∧
    (∀ e, ev = .press e → w.extractLsb' 13 3 = 2#3 ∧ w.getLsbD 12 = e.bit ∧ w.extractLsb' 0 8 = 0#8) ∧
    (∀ e, ev = .release e → w.extractLsb' 13 3 = 3#3 ∧ w.getLsbD 12 = e.bit ∧ w.extractLsb' 0 8 = 0#8) ∧
    (ev = .clockRising → w = 0x8000#16) ∧ (ev = .clockFalling → w = 0xA000#16)

/-- The encodings of R106: `latchedDir` in 2 bits; `tapCount` in `w >= 4` bits, all ones for `-1`, itself while it
fits, the largest positive value from there on. -/
def Obligations.StatusEncodings : Prop :=
  Dir.zero.bits = 0b00#2 ∧ Dir.pos.bits = 0b01#2 ∧ Dir.neg.bits = 0b11#2 ∧ (∀ d : Dir, d.bits ≠ 0b10#2) ∧
  ∀ w : Nat, 4 ≤ w → tapCountBits w (-1) = BitVec.allOnes w ∧
    (∀ n : Nat, (n : Int) ≤ 2 ^ (w - 1) - 1 → (tapCountBits w n).toInt = n) ∧
    (∀ n : Nat, (2 : Int) ^ (w - 1) - 1 ≤ n → (tapCountBits w n).toInt = 2 ^ (w - 1) - 1)

/-! ### Reset and the rules of the whole machine -/

/-- R60, R231, R232: the state after reset, for every configuration (the slots and `lastTap` are unspecified). -/
def Obligations.ResetState : Prop :=
  ∀ c : Config, let s := State.resetWith c
    s.rb.writeIdx = 0 ∧ s.rb.readIdx = 0 ∧ s.isr = .idle ∧ s.drain = .notDraining ∧
    (∀ e, (s.enc e).prevA = true ∧ (s.enc e).prevB = true ∧ (s.enc e).latchedDir = .zero ∧
      (s.enc e).pendingDelta = 0 ∧ (s.enc e).prevPressed = false) ∧
    s.te.bpm = c.defaultBpm ∧ s.spp = 30 / ((c.defaultBpm : Rat) * (c.tpb : Rat)) ∧ s.te.acc = 0 ∧
    s.te.softClk = c.resetSoftClk ∧ s.te.tapCount = -1 ∧ s.te.clkLevel = false ∧ s.te.tapBuf = [] ∧ s.events = []

/-- The invariant holds after reset, in every well-formed configuration. -/
def Obligations.ResetIsGood : Prop := ∀ c : Config, c.wf = true → State.Good (State.resetWith c)

/-- Every step keeps the invariant (R53 to R59, the spec's inferences, and the canonical form of the slot array,
assumption 4). -/
def Obligations.StepKeepsInvariant : Prop := ∀ s t : State, State.Good s → step s = .next t → State.Good t

/-- The event stream only grows, and no step writes the configuration (R26, R30; the stream is
kept in the state, assumption 6). -/
def Obligations.EventsOnlyGrow : Prop :=
  ∀ s t : State, step s = .next t → s.events <+: t.events ∧ t.cfg = s.cfg

/-- R87: a step of POLL writes no slot, not `writeIdx`, not `ISR.stage`; a step of ISR writes not `readIdx`, not
`POLL.drain`, no decoder, nothing of the TempoEngine, and no event. -/
def Obligations.EachElementHasOneWriter : Prop :=
  ∀ (s t : State) (act : Action) (rest : List Action), s.env = act :: rest → step s = .next t →
    (act.agent = .poll → t.rb.slots = s.rb.slots ∧ t.rb.writeIdx = s.rb.writeIdx ∧ t.isr = s.isr) ∧
    (act.agent = .isr → t.rb.readIdx = s.rb.readIdx ∧ t.drain = s.drain ∧ t.pollRest = s.pollRest ∧
      (∀ e, t.enc e = s.enc e) ∧ t.te = s.te ∧ t.events = s.events)

/-- A command is taken when the previous one of its port has completed (R95): at a busy port the meaning is that of
the state in which the operation in flight has run to its end (the model's reading of R95, assumption 9). -/
def Obligations.BusyPortFinishesFirst : Prop :=
  (∀ (v : Snapshot) (s : State), exec (.rbPush v) s = exec (.rbPush v) (finishPush s) ∧ (finishPush s).isrIdle) ∧
  (∀ (i : Instr) (s t : State), i.port = .consumer → finishPoll s = .next t → exec i s = exec i t ∧ t.pollIdle)

/-- A push between two components of a POLL and the component after it can be exchanged (R197, the
spec's inference). -/
def Obligations.PushCommutesWithPollParts : Prop :=
  ∀ (part : PollPart) (v : Snapshot) (s : State),
    exec (.rbPush v) (runPart part s) = andThen (exec (.rbPush v) s) fun t => .next (runPart part t)

/-- No meaning refuses: a command that decodes at its port has an outcome of its own (R138, the spec's inference;
R202). -/
def Obligations.ExecNeverRefuses : Prop := ∀ (i : Instr) (s : State) (r : Refusal), exec i s ≠ .refused r

/-- No step from a good state reaches outside the slot array (R53, R73, the spec's inferences). -/
def Obligations.SlotAccessStaysInRange : Prop := ∀ (s : State) (i : Nat), State.Good s → step s ≠ .fault (.slotOutOfRange i)

/-- With no choice of ENV left and nothing in flight the block keeps its state (the model's choice, assumption 7). -/
def Obligations.IdleBlockKeepsItsState : Prop :=
  ∀ s : State, s.cfg.wf = true → s.env = [] → s.isrIdle → s.pollIdle → step s = .next s

/-! ### RingBuffer -/

/-- RB.PUSH: the slot at `writeIdx` takes the snapshot and every other slot keeps its value; `writeIdx` advances
with wraparound; nothing else changes (R125). -/
def Obligations.PushStoresAndAdvances : Prop :=
  ∀ (v : Snapshot) (s : State), s.isrIdle → s.rb.writeIdx < s.cfg.cap → s.rb.slots.wf = true →
    ∃ t, exec (.rbPush v) s = .next t ∧ t.rb.slots.read s.rb.writeIdx = v ∧
      (∀ i, i ≠ s.rb.writeIdx → t.rb.slots.read i = s.rb.slots.read i) ∧
      t.rb.writeIdx = (s.rb.writeIdx + 1) % s.cfg.cap ∧
      { t with rb := { t.rb with slots := s.rb.slots, writeIdx := s.rb.writeIdx } } = s

/-- The micro-steps of a push: P1 stores the snapshot and leaves `writeIdx`; P2 advances `writeIdx` and leaves the
slots (R126, R127). -/
def Obligations.PushMicroSteps : Prop :=
  (∀ (v : Snapshot) (s : State) (rest : List Action), s.cfg.wf = true → s.isrIdle → s.rb.writeIdx < s.cfg.cap →
    s.rb.slots.wf = true → s.env = .start .producer (encode (.rbPush v)) :: rest →
    ∃ t, step s = .next t ∧ t.isr = .wrote ∧ t.rb.slots.read s.rb.writeIdx = v ∧
      (∀ i, i ≠ s.rb.writeIdx → t.rb.slots.read i = s.rb.slots.read i) ∧
      { t with rb := { t.rb with slots := s.rb.slots }, isr := s.isr, env := s.env } = s) ∧
  (∀ (s : State) (rest : List Action), s.cfg.wf = true → s.isr = .wrote → s.env = .advance .isr :: rest →
    ∃ t, step s = .next t ∧ t.isr = .idle ∧ t.rb.writeIdx = (s.rb.writeIdx + 1) % s.cfg.cap ∧
      { t with rb := { t.rb with writeIdx := s.rb.writeIdx }, isr := s.isr, env := s.env } = s)

/-- A push as one piece is P1 followed by P2 (R125). -/
def Obligations.PushIsP1ThenP2 : Prop :=
  ∀ (v : Snapshot) (s : State), s.cfg.wf = true →
    runActions [.issue .producer (encode (.rbPush v))] s =
      runActions [.start .producer (encode (.rbPush v)), .advance .isr] s

/-- RB.DRAIN as one piece: every unread snapshot, oldest first, goes to both decoders; `readIdx` reaches `writeIdx`;
nothing else changes (R128, R132). It runs wherever no delivered step can overflow a decoder. -/
def Obligations.DrainDeliversTheUnread : Prop :=
  ∀ s : State, s.pollIdle → s.rb.writeIdx < s.cfg.cap → s.rb.readIdx < s.cfg.cap →
    (∀ e, (s.enc e).hasRoom s.cfg s.unread.length) →
    ∃ t, exec .rbDrain s = .next t ∧ t.rb.readIdx = s.rb.writeIdx ∧
      (∀ e, t.enc e = Encoder.afterAll e (s.enc e) s.unread) ∧
      { t with rb := { t.rb with readIdx := s.rb.readIdx }, enc0 := s.enc0, enc1 := s.enc1 } = s

/-- The micro-steps of a drain: C0 samples the bound, C1 reads the slot at `readIdx`, C2 delivers it, advances
`readIdx` and compares it with the bound (R129 to R131). -/
def Obligations.DrainMicroSteps : Prop :=
  (∀ (s : State) (rest : List Action), s.cfg.wf = true → s.pollIdle →
    s.env = .start .consumer (encode .rbDrain) :: rest →
    step s = .next { s with
      env := rest
      drain := (if s.rb.readIdx = s.rb.writeIdx then .notDraining else .draining s.rb.writeIdx) }) ∧
  (∀ (s : State) (w : Nat) (rest : List Action), s.cfg.wf = true → s.drain = .draining w → s.rb.readIdx < s.cfg.cap →
    s.env = .advance .poll :: rest →
    step s = .next { s with env := rest, drain := .holding w (s.rb.slots.read s.rb.readIdx) }) ∧
  (∀ (s : State) (w : Nat) (v : Snapshot) (rest : List Action), s.cfg.wf = true → s.drain = .holding w v →
    (∀ e, (s.enc e).hasRoom s.cfg 1) → s.env = .advance .poll :: rest →
    ∃ t, step s = .next t ∧ t.enc0 = s.enc0.onPins (v.getLsbD 0) (v.getLsbD 1) ∧
      t.enc1 = s.enc1.onPins (v.getLsbD 2) (v.getLsbD 3) ∧ t.rb.readIdx = (s.rb.readIdx + 1) % s.cfg.cap ∧
      t.drain = (if (s.rb.readIdx + 1) % s.cfg.cap = w then .notDraining else .draining w) ∧
      { t with rb := { t.rb with readIdx := s.rb.readIdx }, drain := s.drain, enc0 := s.enc0, enc1 := s.enc1, env := s.env } = s)

/-- A drain as one piece is C0 followed by at most `2 * (CAP - 1)` further micro-steps, with none of ISR in between
(R128). -/
def Obligations.DrainIsBoundedMicroSteps : Prop :=
  ∀ s t : State, State.Good s → s.pollIdle → exec .rbDrain s = .next t →
    ∃ k, k ≤ 2 * (s.cfg.cap - 1) ∧
      runActions (.start .consumer (encode .rbDrain) :: List.replicate k (.advance .poll)) s = .next t

/-- While fewer than `CAP - 1` snapshots are unread, a push adds its snapshot behind them, and C1 with C2 takes the
oldest of them (R82, the spec's inference). -/
def Obligations.UnreadIsAQueue : Prop :=
  (∀ (v : Snapshot) (s : State), State.Good s → s.isrIdle → s.unread.length < s.cfg.cap - 1 →
    ∃ t, exec (.rbPush v) s = .next t ∧ t.unread = s.unread ++ [v]) ∧
  (∀ (s : State) (w : Nat), State.Good s → s.drain = .draining w → s.unread ≠ [] → (∀ e, (s.enc e).hasRoom s.cfg 1) →
    ∃ v t, runActions [.advance .poll, .advance .poll] s = .next t ∧ s.unread = v :: t.unread ∧
      ∀ e, t.enc e = (s.enc e).onPins (phaseA v e) (phaseB v e))

/-- R134, R135 (the spec's inferences): after `k` pushes into an empty ring, a drain delivers exactly the last `k mod
CAP` snapshots pushed, in order, and the rest are lost without any indication; with `k <= CAP - 1` nothing is lost. -/
def Obligations.DrainAfterPushesDeliversLastLap : Prop :=
  ∀ (s : State) (vs : List Snapshot), State.Good s → s.isrIdle → s.pollIdle → s.rb.readIdx = s.rb.writeIdx →
    (∀ e, (s.enc e).hasRoom s.cfg (vs.length % s.cfg.cap)) →
    ∃ t u, runCommands (vs.map .rbPush) s = .next t ∧ exec .rbDrain t = .next u ∧
      (∀ e, u.enc e = Encoder.afterAll e (s.enc e) (vs.drop (vs.length - vs.length % s.cfg.cap))) ∧
      u.rb.readIdx = u.rb.writeIdx ∧ u.rb.writeIdx = (s.rb.writeIdx + vs.length) % s.cfg.cap ∧ u.events = s.events

/-- A drain depends on no slot but those it delivers: whatever the others hold, the outcome is the same (R137, the
spec's inference, and U1; what they hold after reset is assumption 4). -/
def Obligations.DrainReadsOnlyUnreadSlots : Prop :=
  ∀ (s : State) (m : Memory), State.Good s → s.pollIdle → (s.setRb { s.rb with slots := m }).unread = s.unread →
    exec .rbDrain (s.setRb { s.rb with slots := m }) =
      andThen (exec .rbDrain s) fun t => .next (t.setRb { t.rb with slots := m })

/-! ### EncoderDecoder -/

/-- ENC.PINS: the commit and latch conditions written out, and the frame (R140 to R144). It runs unless it commits a
step out of range. -/
def Obligations.PinsLatchThenCommit : Prop :=
  ∀ (e : EncIdx) (a b : Bool) (s : State), s.pollIdle →
    let x := s.enc e
    let commit : Prop := a = true ∧ b = true ∧ ¬ (x.prevA = true ∧ x.prevB = true) ∧
      ((x.latchedDir = .pos ∧ x.prevA = false ∧ x.prevB = true) ∨
       (x.latchedDir = .neg ∧ x.prevA = true ∧ x.prevB = false))
    (commit → s.cfg.deltaMin ≤ x.pendingDelta + x.latchedDir.toInt ∧
      x.pendingDelta + x.latchedDir.toInt ≤ s.cfg.deltaMax) →
    ∃ t, exec (.encPins e a b) s = .next t ∧ (t.enc e).prevA = a ∧ (t.enc e).prevB = b ∧
      (t.enc e).prevPressed = x.prevPressed ∧
      (commit → (t.enc e).pendingDelta = x.pendingDelta + x.latchedDir.toInt ∧ (t.enc e).latchedDir = .zero) ∧
      (¬ commit → (t.enc e).pendingDelta = x.pendingDelta ∧
        (t.enc e).latchedDir =
          if x.prevA = true ∧ x.prevB = true ∧ a = true ∧ b = false then .pos
          else if x.prevA = true ∧ x.prevB = true ∧ a = false ∧ b = true then .neg
          else x.latchedDir) ∧
      t.setEnc e x = s

/-- R146: a commit that would leave the `DELTA_W` range raises `DeltaOverflow(e)`. -/
def Obligations.CommitOutOfRangeFaults : Prop :=
  ∀ (e : EncIdx) (s : State), s.pollIdle →
    let x := s.enc e
    ((x.latchedDir = .pos ∧ x.prevA = false ∧ x.prevB = true ∧ s.cfg.deltaMax < x.pendingDelta + 1) ∨
     (x.latchedDir = .neg ∧ x.prevA = true ∧ x.prevB = false ∧ x.pendingDelta - 1 < s.cfg.deltaMin)) →
    exec (.encPins e true true) s = .fault (.deltaOverflow e)

/-- R152 (the spec's inference): a sample equal to the previous one changes nothing. -/
def Obligations.RepeatedSampleChangesNothing : Prop :=
  ∀ (e : EncIdx) (s : State), s.pollIdle → exec (.encPins e (s.enc e).prevA (s.enc e).prevB) s = .next s

/-- R149, R150 (the spec's inferences): from rest, the four samples of a positive detent add one to `pendingDelta`,
those of a negative detent take one away, and the decoder ends at rest with nothing latched. -/
def Obligations.DetentCountsOneStep : Prop :=
  ∀ (e : EncIdx) (s : State), s.pollIdle → (s.enc e).prevA = true → (s.enc e).prevB = true →
    ((s.enc e).pendingDelta + 1 ≤ s.cfg.deltaMax → s.cfg.deltaMin ≤ (s.enc e).pendingDelta + 1 →
      runCommands [.encPins e true false, .encPins e false false, .encPins e false true, .encPins e true true] s =
        .next (s.setEnc e { s.enc e with pendingDelta := (s.enc e).pendingDelta + 1, latchedDir := .zero })) ∧
    ((s.enc e).pendingDelta - 1 ≤ s.cfg.deltaMax → s.cfg.deltaMin ≤ (s.enc e).pendingDelta - 1 →
      runCommands [.encPins e false true, .encPins e false false, .encPins e true false, .encPins e true true] s =
        .next (s.setEnc e { s.enc e with pendingDelta := (s.enc e).pendingDelta - 1, latchedDir := .zero }))

/-- R151 (the spec's inference): from rest, (a) a bounce on one phase and (b) half a detent and back count nothing and
leave the latch set; (c) a bounce in the middle of a detent counts one step. In both directions. -/
def Obligations.PartialMovementIsRejected : Prop :=
  ∀ (e : EncIdx) (s : State), s.pollIdle → (s.enc e).prevA = true → (s.enc e).prevB = true →
    (runCommands [.encPins e true false, .encPins e true true] s =
        .next (s.setEnc e { s.enc e with latchedDir := .pos })) ∧
    (runCommands [.encPins e false true, .encPins e true true] s =
        .next (s.setEnc e { s.enc e with latchedDir := .neg })) ∧
    (runCommands [.encPins e true false, .encPins e false false, .encPins e true false, .encPins e true true] s =
        .next (s.setEnc e { s.enc e with latchedDir := .pos })) ∧
    (runCommands [.encPins e false true, .encPins e false false, .encPins e false true, .encPins e true true] s =
        .next (s.setEnc e { s.enc e with latchedDir := .neg })) ∧
    (s.cfg.deltaMin ≤ (s.enc e).pendingDelta + 1 ∧ (s.enc e).pendingDelta + 1 ≤ s.cfg.deltaMax →
      runCommands [.encPins e true false, .encPins e false false, .encPins e false true, .encPins e false false,
          .encPins e false true, .encPins e true true] s =
        .next (s.setEnc e { s.enc e with pendingDelta := (s.enc e).pendingDelta + 1, latchedDir := .zero })) ∧
    (s.cfg.deltaMin ≤ (s.enc e).pendingDelta - 1 ∧ (s.enc e).pendingDelta - 1 ≤ s.cfg.deltaMax →
      runCommands [.encPins e false true, .encPins e false false, .encPins e true false, .encPins e false false,
          .encPins e true false, .encPins e true true] s =
        .next (s.setEnc e { s.enc e with pendingDelta := (s.enc e).pendingDelta - 1, latchedDir := .zero }))

/-- Whatever the decoder's latch, a positive detent with one of its first three samples missed never takes a step
away, and a negative one never adds a step (R153, the spec's inference). -/
def Obligations.MissedSampleNeverReverses : Prop :=
  ∀ (e : EncIdx) (s t : State), s.pollIdle → (s.enc e).prevA = true → (s.enc e).prevB = true →
    ((runCommands [.encPins e false false, .encPins e false true, .encPins e true true] s = .next t ∨
      runCommands [.encPins e true false, .encPins e false true, .encPins e true true] s = .next t ∨
      runCommands [.encPins e true false, .encPins e false false, .encPins e true true] s = .next t) →
      (t.enc e).pendingDelta = (s.enc e).pendingDelta ∨ (t.enc e).pendingDelta = (s.enc e).pendingDelta + 1) ∧
    ((runCommands [.encPins e false false, .encPins e true false, .encPins e true true] s = .next t ∨
      runCommands [.encPins e false true, .encPins e true false, .encPins e true true] s = .next t ∨
      runCommands [.encPins e false true, .encPins e false false, .encPins e true true] s = .next t) →
      (t.enc e).pendingDelta = (s.enc e).pendingDelta ∨ (t.enc e).pendingDelta = (s.enc e).pendingDelta - 1)

/-- ENC.DRAIN: one turn event carrying the delta exactly when it is not zero, and the delta cleared (R147). -/
def Obligations.EncDrainReportsAndClears : Prop :=
  ∀ (e : EncIdx) (s : State), s.pollIdle →
    ∃ t, exec (.encDrain e) s = .next t ∧
      t.events = s.events ++ (if (s.enc e).pendingDelta = 0 then [] else [.turn e (s.enc e).pendingDelta]) ∧
      t.enc e = { s.enc e with pendingDelta := 0 } ∧ { t.setEnc e (s.enc e) with events := s.events } = s

/-- ENC.BTN: one event exactly when the level has changed, press for 1 and release for 0, and the level recorded
(R148). -/
def Obligations.ButtonChangeIsReported : Prop :=
  ∀ (e : EncIdx) (level : Bool) (s : State), s.pollIdle →
    ∃ t, exec (.encBtn e level) s = .next t ∧
      t.events = s.events ++ (if level = (s.enc e).prevPressed then [] else if level = true then [.press e] else [.release e]) ∧
      t.enc e = { s.enc e with prevPressed := level } ∧ { t.setEnc e (s.enc e) with events := s.events } = s

/-- R154 (the spec's inference): an operation on one instance neither reads nor writes the state of the other. -/
def Obligations.EncodersAreIndependent : Prop :=
  ∀ (e f : EncIdx) (a b level : Bool) (x : Encoder) (s : State), f ≠ e → s.pollIdle →
    ∀ i ∈ [Instr.encPins e a b, .encDrain e, .encBtn e level],
      exec i (s.setEnc f x) = (andThen (exec i s) fun t => .next (t.setEnc f x)) ∧
      ∀ t, exec i s = .next t → t.enc f = s.enc f

/-! ### TempoEngine -/

/-- T.SETBPM clamps, `secondsPerPhase` follows, and nothing else is written (R161, R162, R164). -/
def Obligations.SetBpmClamps : Prop :=
  ∀ (v : Int) (s : State), s.pollIdle →
    ∃ t, exec (.tSetBpm v) s = .next t ∧
      t.te.bpm = (if v < s.cfg.minTempo then s.cfg.minTempo else if s.cfg.maxTempo < v then s.cfg.maxTempo else v) ∧
      t.spp = 30 / ((t.te.bpm : Rat) * (s.cfg.tpb : Rat)) ∧ { t with te := { t.te with bpm := s.te.bpm } } = s

/-- R55 (the spec's inference): the phase lies between those of the two tempo bounds, and is positive. -/
def Obligations.PhaseBounds : Prop :=
  ∀ s : State, State.Good s →
    s.spp = 30 / ((s.te.bpm : Rat) * (s.cfg.tpb : Rat)) ∧
    30 / ((s.cfg.maxTempo : Rat) * (s.cfg.tpb : Rat)) ≤ s.spp ∧
    s.spp ≤ 30 / ((s.cfg.minTempo : Rat) * (s.cfg.tpb : Rat)) ∧ 0 < s.spp

/-- R169 (the spec's inference): in software mode T.TICK emits `floor((acc + dt) / spp)` alternating edges, the first
falling exactly when the clock is high; the accumulator keeps the remainder and the level follows the parity. -/
def Obligations.TickEmitsFloorEdges : Prop :=
  ∀ (n : Nat) (s : State), s.pollIdle → s.te.softClk = true → 0 < s.spp → 0 ≤ s.te.acc →
    let total : Rat := s.te.acc + (n : Rat) / (s.cfg.timeHz : Rat)
    let k : Nat := (⌊total / s.spp⌋).toNat
    ∃ t, exec (.tTick n) s = .next t ∧
      t.events = s.events ++ (List.range k).map (fun j =>
        if s.te.clkLevel = decide (j % 2 = 0) then Event.clockFalling else Event.clockRising) ∧
      t.te.acc = total - (k : Rat) * s.spp ∧
      t.te.clkLevel = (if k % 2 = 0 then s.te.clkLevel else !s.te.clkLevel) ∧
      { t with te := { t.te with acc := s.te.acc, clkLevel := s.te.clkLevel }, events := s.events } = s

/-- R58 (the spec's inference): immediately after any T.TICK the accumulator is below one phase. -/
def Obligations.TickLeavesLessThanAPhase : Prop :=
  ∀ (n : Nat) (s t : State), State.Good s → exec (.tTick n) s = .next t → 0 ≤ t.te.acc ∧ t.te.acc < t.spp

/-- R167: in external mode T.TICK only holds the accumulator at zero. -/
def Obligations.TickInExternalModeDiscards : Prop :=
  ∀ (n : Nat) (s : State), s.pollIdle → s.te.softClk = false →
    exec (.tTick n) s = .next { s with te := { s.te with acc := 0 } }

/-- R170 (the spec's inference): in software mode any split of an elapsed time into ticks is the same as one tick of
the whole, and from an empty accumulator the edges number `floor(T / spp)`. -/
def Obligations.TickSplitDoesNotMatter : Prop :=
  ∀ (ns : List Nat) (s : State), s.pollIdle → s.te.softClk = true → 0 < s.spp → 0 ≤ s.te.acc → s.te.acc < s.spp →
    ∃ t, runCommands (ns.map .tTick) s = .next t ∧ exec (.tTick ns.sum) s = .next t ∧
      (s.te.acc = 0 → t.events.length =
        s.events.length + (⌊((ns.sum : Nat) : Rat) / (s.cfg.timeHz : Rat) / s.spp⌋).toNat)

/-- T.EXTEDGE: in external mode the press is a rising and the release a falling edge, whatever the level was; in
software mode nothing happens (R171, R172). -/
def Obligations.ExternalEdgePassesThrough : Prop :=
  ∀ (level : Bool) (s : State), s.pollIdle →
    exec (.tExtEdge level) s = .next (if s.te.softClk = true then s else
      { s with
        te := { s.te with clkLevel := level }
        events := s.events ++ [if level = true then .clockRising else .clockFalling] })

/-- T.BEGINTAP resets the tap state and nothing else (R173). -/
def Obligations.BeginTapResetsTheGesture : Prop :=
  ∀ s : State, s.pollIdle → exec .tBeginTap s = .next { s with te := { s.te with tapCount := 0, tapBuf := [] } }

/-- T.TAP: ignored outside tap mode; the first tap records its timestamp; a later one at a later time appends its
interval to the window of four and sets the tempo from the mean (R174 to R177, R179, R180). -/
def Obligations.TapSetsTheTempo : Prop :=
  ∀ (n : Nat) (s : State), s.pollIdle → s.te.tapBuf.length ≤ 4 →
    let now : Rat := (n : Rat) / (s.cfg.timeHz : Rat)
    let buf : List Rat := (s.te.tapBuf ++ [now - s.te.lastTap]).drop (s.te.tapBuf.length + 1 - 4)
    (s.te.tapCount = -1 → exec (.tTap n) s = .next s) ∧
    (s.te.tapCount = 0 → exec (.tTap n) s = .next { s with te := { s.te with lastTap := now, tapCount := 1 } }) ∧
    (1 ≤ s.te.tapCount → s.te.lastTap < now →
      ∃ t, exec (.tTap n) s = .next t ∧ t.te.lastTap = now ∧ t.te.tapCount = s.te.tapCount + 1 ∧ t.te.tapBuf = buf ∧
        (let v : Int := s.cfg.round.apply (60 / (buf.sum / (buf.length : Rat) * (s.cfg.tipb : Rat)))
         t.te.bpm = (if v < s.cfg.minTempo then s.cfg.minTempo else if s.cfg.maxTempo < v then s.cfg.maxTempo else v)) ∧
        { t with te := { t.te with lastTap := s.te.lastTap, tapCount := s.te.tapCount, tapBuf := s.te.tapBuf, bpm := s.te.bpm } } = s)

/-- R178: a tap not later than the one before it in its gesture raises `TapIntervalNotPositive`. -/
def Obligations.TapNotLaterFaults : Prop :=
  ∀ (n : Nat) (s : State), s.pollIdle → 1 ≤ s.te.tapCount → (n : Rat) / (s.cfg.timeHz : Rat) ≤ s.te.lastTap →
    exec (.tTap n) s = .fault (.tapIntervalNotPositive ((n : Rat) / (s.cfg.timeHz : Rat)))

/-- R16: `ROUND` is the floor or the ceiling everywhere and the identity on integers, for every admissible choice (the
free one included, assumption 3), and the floor in REF. -/
def Obligations.RoundIsFloorOrCeiling : Prop :=
  (∀ (r : Rounding) (x : Rat), r.apply x = ⌊x⌋ ∨ r.apply x = ⌈x⌉) ∧
  (∀ (r : Rounding) (n : Int), r.apply (n : Rat) = n) ∧ ∀ x : Rat, Config.ref.round.apply x = ⌊x⌋

/-- T.ENDTAP: a gesture with no tap toggles the clock source and clears the accumulator; tap mode ends either way
(R181, R182). -/
def Obligations.EndTapEndsTheGesture : Prop :=
  ∀ s : State, s.pollIdle →
    exec .tEndTap s = .next (if s.te.tapCount = 0 then
      { s with te := { s.te with softClk := !s.te.softClk, acc := 0, tapCount := -1 } }
      else { s with te := { s.te with tapCount := -1 } })

/-- R183 (the spec's inference): steady taps at interval `d` set `bpm` to the clamped, rounded `60 / (d * TIPB)` from
the second tap on, with every duration of the window equal to `d`. -/
def Obligations.SteadyTapsSetTheTempo : Prop :=
  ∀ (s : State) (t0 d k : Nat), s.cfg.wf = true → s.pollIdle → 0 < d → 1 ≤ k →
    ∃ t, runCommands (.tBeginTap :: (List.range (k + 1)).map fun j => .tTap (t0 + j * d)) s = .next t ∧
      t.te.bpm = max s.cfg.minTempo (min s.cfg.maxTempo
        (s.cfg.round.apply (60 / ((d : Rat) / (s.cfg.timeHz : Rat) * (s.cfg.tipb : Rat))))) ∧
      t.te.tapBuf = List.replicate (min k 4) ((d : Rat) / (s.cfg.timeHz : Rat)) ∧ t.te.tapCount = k + 1

/-- R184 (the spec's inference): a gesture with one tap leaves the tempo and the clock as they were and ends outside
tap mode. -/
def Obligations.OneTapLeavesTheTempo : Prop :=
  ∀ (n : Nat) (s : State), s.pollIdle →
    ∃ t, runCommands [.tBeginTap, .tTap n, .tEndTap] s = .next t ∧ t.te.bpm = s.te.bpm ∧ t.spp = s.spp ∧
      t.te.softClk = s.te.softClk ∧ t.te.acc = s.te.acc ∧ t.te.clkLevel = s.te.clkLevel ∧ t.te.tapCount = -1

/-- Outside a gesture, and at its start, no command depends on the timestamp of the last tap (R50, the spec's
inference, and U2; its value after reset is assumption 4). -/
def Obligations.LastTapIsReadOnlyInAGesture : Prop :=
  ∀ (i : Instr) (s t : State) (x : Rat), s.pollIdle → s.te.tapCount = -1 ∨ s.te.tapCount = 0 →
    exec i s = .next t → ∃ u, exec i (s.setTe { s.te with lastTap := x }) = .next u ∧
      (u = t ∨ u = t.setTe { t.te with lastTap := x })

/-- R46, R47, R219: no command but T.ENDTAP without a tap changes the clock source, and none but the three tap commands
changes the tap count, whatever else is in flight. -/
def Obligations.OnlyTapCommandsChangeTheModes : Prop :=
  ∀ (i : Instr) (s t : State), exec i s = .next t →
    (t.te.softClk ≠ s.te.softClk → i = .tEndTap ∧ s.te.tapCount = 0) ∧
    (t.te.tapCount ≠ s.te.tapCount → i = .tBeginTap ∨ (∃ n, i = .tTap n) ∨ i = .tEndTap)

/-! ### POLL -/

/-- R190, R192 to R194: POLL is RB.DRAIN, then for each encoder ENC.DRAIN, for encoder 0 the tempo wiring, ENC.BTN,
then T.TICK. -/
def Obligations.PollIsAComposition : Prop :=
  ∀ (n : Nat) (btn0 btn1 : Bool) (s : State),
    exec (.poll n btn0 btn1) s =
      andThen (exec .rbDrain s) fun s1 =>
      andThen (exec (.encDrain .enc0) s1) fun s2 =>
      andThen (if s1.enc0.pendingDelta = 0 then .next s2
        else exec (.tSetBpm (s2.te.bpm + s1.enc0.pendingDelta * (s2.cfg.bpmStep : Int))) s2) fun s3 =>
      andThen (exec (.encBtn .enc0 btn0) s3) fun s4 =>
      andThen (exec (.encDrain .enc1) s4) fun s5 =>
      andThen (exec (.encBtn .enc1 btn1) s5) fun s6 => exec (.tTick n) s6

/-- R146 (its last clause, the spec's inference): a POLL that finds both deltas at zero completes, and leaves them at
zero, whenever `1 + floor((CAP - 2) / 3) <= 2^(DELTA_W-1) - 1`: under POLL no step is ever out of range. The ring is read
to its end, both button levels are recorded, and beside the decoders only `bpm`, `acc`, `clkLevel` and the event stream
change. -/
def Obligations.PollNeverOverflows : Prop :=
  ∀ (n : Nat) (btn0 btn1 : Bool) (s : State), State.Good s → s.pollIdle → (∀ e, (s.enc e).pendingDelta = 0) →
    1 + (s.cfg.cap - 2) / 3 ≤ 2 ^ (s.cfg.deltaW - 1) - 1 →
    ∃ t, exec (.poll n btn0 btn1) s = .next t ∧ (∀ e, (t.enc e).pendingDelta = 0) ∧ t.rb.readIdx = s.rb.writeIdx ∧
      t.enc0.prevPressed = btn0 ∧ t.enc1.prevPressed = btn1 ∧
      { t with
        rb := { t.rb with readIdx := s.rb.readIdx }
        enc0 := s.enc0
        enc1 := s.enc1
        te := { t.te with bpm := s.te.bpm, acc := s.te.acc, clkLevel := s.te.clkLevel }
        events := s.events } = s

/-- A POLL taken micro-step by micro-step, with no step of ISR in between, comes to the same end as in one piece (R79,
R190). The further micro-steps are at most `2 * (CAP - 1)` of the drain and six component operations: the five of every
POLL and the T.SETBPM of a turn of encoder 0. That they are held in `pollRest` and taken one to a step is the model's
inference (assumption 2, DEDUCED). -/
def Obligations.PollIsItsMicroSteps : Prop :=
  ∀ (n : Nat) (btn0 btn1 : Bool) (s t : State), State.Good s → s.pollIdle → n < 2 ^ 30 →
    exec (.poll n btn0 btn1) s = .next t →
    ∃ k, k ≤ 2 * (s.cfg.cap - 1) + 6 ∧
      runActions (.start .consumer (encode (.poll n btn0 btn1)) :: List.replicate k (.advance .poll)) s = .next t
end

