-- ==== Sys2Proof/Laws/Decode.lean ====
section
/-! SUPPORT. The fields of a command word, and the opcode map read both ways (R96, R97). -/

namespace Sys2Proof

@[simp] theorem Opcode.ofBits_bits (op : Opcode) : Opcode.ofBits op.bits = some op := by cases op <;> rfl

/-- An opcode number names the opcode it is the number of, and no other (R97). -/
theorem Opcode.bits_of_ofBits {b : BitVec 4} {op : Opcode} (h : Opcode.ofBits b = some op) : b = op.bits := by
  revert h; revert b; cases op <;> decide

/-- The reserved opcodes are exactly 0x0, 0xD, 0xE, 0xF (R107). -/
theorem Opcode.ofBits_eq_none_iff (b : BitVec 4) :
    Opcode.ofBits b = none ↔ b ∈ [0x0#4, 0xD#4, 0xE#4, 0xF#4] := by revert b; decide

/-- A bit of a word put together from its two fields (R96). -/
theorem getLsbD_word (op : BitVec 4) (arg : Arg) (i : Nat) :
    BitVec.getLsbD (w := 36) (op ++ arg) i = if i < 32 then arg.getLsbD i else op.getLsbD (i - 32) := by
  have h := BitVec.getLsbD_append (x := op) (y := arg) (i := i)
  exact h

@[simp] theorem opField_append (op : BitVec 4) (arg : Arg) : opField (op ++ arg) = op := by
  apply BitVec.eq_of_getLsbD_eq
  intro i hi
  unfold opField
  rw [BitVec.getLsbD_extractLsb', getLsbD_word]
  simp [hi]

@[simp] theorem argField_append (op : BitVec 4) (arg : Arg) : argField (op ++ arg) = arg := by
  apply BitVec.eq_of_getLsbD_eq
  intro i hi
  unfold argField
  rw [BitVec.getLsbD_extractLsb', getLsbD_word]
  simp [hi]

/-- A word is its two fields (R96). -/
theorem word_eq_append (w : Word) : w = opField w ++ argField w := by
  apply BitVec.eq_of_getLsbD_eq
  intro i hi
  rw [getLsbD_word, argField, opField, BitVec.getLsbD_extractLsb', BitVec.getLsbD_extractLsb']
  by_cases h : i < 32
  · simp [h]
  · have h1 : i - 32 < 4 := by omega
    have h2 : 32 + (i - 32) = i := by omega
    simp [h, h1, h2]

@[simp] theorem opField_encode (i : Instr) : opField (encode i) = i.opcode.bits := by simp [encode]
@[simp] theorem argField_encode (i : Instr) : argField (encode i) = i.argBits := by simp [encode]

theorem EncIdx.ofBit_bit (e : EncIdx) : EncIdx.ofBit e.bit = e := by cases e <;> rfl
theorem EncIdx.bit_ofBit (b : Bool) : (EncIdx.ofBit b).bit = b := by cases b <;> rfl

/-- ALL DECODING CAN DO (R115): the operands of an assigned opcode at its port with no reserved bit set, or one of the
two errors. -/
theorem decodeAt_eq_ok_iff (p : Port) (w : Word) (i : Instr) :
    decodeAt p w = .ok i ↔ ∃ op, Opcode.ofBits (opField w) = some op ∧ op.port = p ∧
      argField w &&& ~~~op.argMask = 0#32 ∧ i = op.operands (argField w) := by
  unfold decodeAt
  cases h : Opcode.ofBits (opField w) with
  | none => simp
  | some op =>
    by_cases hp : op.port = p
    · by_cases hm : argField w &&& ~~~op.argMask = 0#32
      · simp [hp, hm, eq_comm]
      · simp [hp, hm]
    · simp [hp]

/-- The command read from the operands of an opcode has that opcode. -/
@[simp] theorem Opcode.operands_opcode (op : Opcode) (arg : Arg) : (op.operands arg).opcode = op := by cases op <;> rfl

end Sys2Proof
end

