-- ==== Sys2Proof/Laws/Outcome.lean ====
section
/-! SUPPORT. Sequencing of outcomes. -/

namespace Sys2Proof.Machine

@[simp] theorem andThen_next (s : State) (f : State → Result) : andThen (.next s) f = f s := rfl
@[simp] theorem andThen_fault (r : Fault) (f : State → Result) : andThen (.fault r) f = .fault r := rfl
@[simp] theorem andThen_refused (r : Refusal) (f : State → Result) : andThen (.refused r) f = .refused r := rfl

@[simp] theorem andThen_pure (o : Result) : andThen o (fun t => .next t) = o := by cases o <;> rfl

theorem andThen_assoc (o : Result) (f g : State → Result) :
    andThen (andThen o f) g = andThen o fun t => andThen (f t) g := by cases o <;> rfl

/-- A sequence that ends in a next state went through one. -/
theorem andThen_eq_next {o : Result} {f : State → Result} {t : State} (h : andThen o f = .next t) :
    ∃ u, o = .next u ∧ f u = .next t := by
  cases o with
  | next u => exact ⟨u, rfl, h⟩
  | fault r => simp at h
  | refused r => simp at h

/-- A sequence that faults faults in its first part or, from the state that leaves, in its second. -/
theorem andThen_eq_fault {o : Result} {f : State → Result} {r : Fault} (h : andThen o f = .fault r) :
    o = .fault r ∨ ∃ u, o = .next u ∧ f u = .fault r := by
  cases o with
  | next u => exact .inr ⟨u, rfl, h⟩
  | fault q => exact .inl (by simpa using h)
  | refused q => simp at h

/-- A sequence that is refused is refused in its first part or, from the state that leaves, in its second. -/
theorem andThen_eq_refused {o : Result} {f : State → Result} {r : Refusal} (h : andThen o f = .refused r) :
    o = .refused r ∨ ∃ u, o = .next u ∧ f u = .refused r := by
  cases o with
  | next u => exact .inr ⟨u, rfl, h⟩
  | fault q => simp at h
  | refused q => exact .inl (by simpa using h)

end Sys2Proof.Machine
end

