-- ==== Sys2Proof/Laws/Parameters.lean ====
section
/-! SUPPORT. What a well-formed configuration gives (R5 to R17). -/

namespace Sys2Proof

/-- The constraints of R5 to R17, each by name. -/
structure Config.Constraints (c : Config) : Prop where
  cap_ge : 2 ≤ c.cap
  deltaW_ge : 2 ≤ c.deltaW
  minTempo_ge : 1 ≤ c.minTempo
  tempo_le : c.minTempo ≤ c.maxTempo
  maxTempo_le : c.maxTempo ≤ 1000
  tpb_ge : 1 ≤ c.tpb
  default_ge : c.minTempo ≤ c.defaultBpm
  default_le : c.defaultBpm ≤ c.maxTempo
  bpmStep_ge : 1 ≤ c.bpmStep
  tipb_ge : 1 ≤ c.tipb
  timeHz_ge : 1 ≤ c.timeHz

theorem Config.violated_eq_none_iff (c : Config) : c.violated = none ↔ c.Constraints := by
  unfold Config.violated
  constructor
  · intro h
    repeat' (split at h <;> try contradiction)
    constructor <;> omega
  · intro h
    have := h.cap_ge; have := h.deltaW_ge; have := h.minTempo_ge; have := h.tempo_le; have := h.maxTempo_le
    have := h.tpb_ge; have := h.default_ge; have := h.default_le; have := h.bpmStep_ge; have := h.tipb_ge
    have := h.timeHz_ge
    repeat rw [if_neg (by omega)]

theorem Config.wf_iff (c : Config) : c.wf = true ↔ c.Constraints := by
  simp [Config.wf, Config.violated_eq_none_iff]

theorem Config.wf_violated {c : Config} (h : c.wf = true) : c.violated = none := by simpa [Config.wf] using h

/-- `pendingDelta = 0` is in range, whatever the width. -/
theorem Config.delta_zero {c : Config} : c.deltaMin ≤ 0 ∧ 0 ≤ c.deltaMax := by
  have h : (1 : Int) ≤ 2 ^ (c.deltaW - 1) := by exact_mod_cast Nat.one_le_two_pow
  simp only [Config.deltaMin, Config.deltaMax]
  omega

end Sys2Proof
end

