-- ==== Sys2Proof/Laws/State.lean ====
section
/-! SUPPORT. What each state update leaves in each field, so that no proof unfolds a record update. -/

namespace Sys2Proof.Machine

/-! ### `State.setRb` -/

@[simp] theorem State.setRb_cfg (s : State) (r : Ring) : (s.setRb r).cfg = s.cfg := rfl
@[simp] theorem State.setRb_rb (s : State) (r : Ring) : (s.setRb r).rb = r := rfl
@[simp] theorem State.setRb_isr (s : State) (r : Ring) : (s.setRb r).isr = s.isr := rfl
@[simp] theorem State.setRb_drain (s : State) (r : Ring) : (s.setRb r).drain = s.drain := rfl
@[simp] theorem State.setRb_pollRest (s : State) (r : Ring) : (s.setRb r).pollRest = s.pollRest := rfl
@[simp] theorem State.setRb_enc0 (s : State) (r : Ring) : (s.setRb r).enc0 = s.enc0 := rfl
@[simp] theorem State.setRb_enc1 (s : State) (r : Ring) : (s.setRb r).enc1 = s.enc1 := rfl
@[simp] theorem State.setRb_te (s : State) (r : Ring) : (s.setRb r).te = s.te := rfl
@[simp] theorem State.setRb_events (s : State) (r : Ring) : (s.setRb r).events = s.events := rfl
@[simp] theorem State.setRb_env (s : State) (r : Ring) : (s.setRb r).env = s.env := rfl
@[simp] theorem State.setRb_enc (s : State) (r : Ring) (e : EncIdx) : (s.setRb r).enc e = s.enc e := by cases e <;> rfl
@[simp] theorem State.setRb_spp (s : State) (r : Ring) : (s.setRb r).spp = s.spp := rfl

/-! ### `State.setIsr` -/

@[simp] theorem State.setIsr_cfg (s : State) (g : IsrStage) : (s.setIsr g).cfg = s.cfg := rfl
@[simp] theorem State.setIsr_rb (s : State) (g : IsrStage) : (s.setIsr g).rb = s.rb := rfl
@[simp] theorem State.setIsr_isr (s : State) (g : IsrStage) : (s.setIsr g).isr = g := rfl
@[simp] theorem State.setIsr_drain (s : State) (g : IsrStage) : (s.setIsr g).drain = s.drain := rfl
@[simp] theorem State.setIsr_pollRest (s : State) (g : IsrStage) : (s.setIsr g).pollRest = s.pollRest := rfl
@[simp] theorem State.setIsr_enc0 (s : State) (g : IsrStage) : (s.setIsr g).enc0 = s.enc0 := rfl
@[simp] theorem State.setIsr_enc1 (s : State) (g : IsrStage) : (s.setIsr g).enc1 = s.enc1 := rfl
@[simp] theorem State.setIsr_te (s : State) (g : IsrStage) : (s.setIsr g).te = s.te := rfl
@[simp] theorem State.setIsr_events (s : State) (g : IsrStage) : (s.setIsr g).events = s.events := rfl
@[simp] theorem State.setIsr_env (s : State) (g : IsrStage) : (s.setIsr g).env = s.env := rfl
@[simp] theorem State.setIsr_enc (s : State) (g : IsrStage) (e : EncIdx) : (s.setIsr g).enc e = s.enc e := by cases e <;> rfl
@[simp] theorem State.setIsr_spp (s : State) (g : IsrStage) : (s.setIsr g).spp = s.spp := rfl

/-! ### `State.setDrain` -/

@[simp] theorem State.setDrain_cfg (s : State) (d : DrainStage) : (s.setDrain d).cfg = s.cfg := rfl
@[simp] theorem State.setDrain_rb (s : State) (d : DrainStage) : (s.setDrain d).rb = s.rb := rfl
@[simp] theorem State.setDrain_isr (s : State) (d : DrainStage) : (s.setDrain d).isr = s.isr := rfl
@[simp] theorem State.setDrain_drain (s : State) (d : DrainStage) : (s.setDrain d).drain = d := rfl
@[simp] theorem State.setDrain_pollRest (s : State) (d : DrainStage) : (s.setDrain d).pollRest = s.pollRest := rfl
@[simp] theorem State.setDrain_enc0 (s : State) (d : DrainStage) : (s.setDrain d).enc0 = s.enc0 := rfl
@[simp] theorem State.setDrain_enc1 (s : State) (d : DrainStage) : (s.setDrain d).enc1 = s.enc1 := rfl
@[simp] theorem State.setDrain_te (s : State) (d : DrainStage) : (s.setDrain d).te = s.te := rfl
@[simp] theorem State.setDrain_events (s : State) (d : DrainStage) : (s.setDrain d).events = s.events := rfl
@[simp] theorem State.setDrain_env (s : State) (d : DrainStage) : (s.setDrain d).env = s.env := rfl
@[simp] theorem State.setDrain_enc (s : State) (d : DrainStage) (e : EncIdx) : (s.setDrain d).enc e = s.enc e := by cases e <;> rfl
@[simp] theorem State.setDrain_spp (s : State) (d : DrainStage) : (s.setDrain d).spp = s.spp := rfl

/-! ### `State.setPollRest` -/

@[simp] theorem State.setPollRest_cfg (s : State) (ps : List PollPart) : (s.setPollRest ps).cfg = s.cfg := rfl
@[simp] theorem State.setPollRest_rb (s : State) (ps : List PollPart) : (s.setPollRest ps).rb = s.rb := rfl
@[simp] theorem State.setPollRest_isr (s : State) (ps : List PollPart) : (s.setPollRest ps).isr = s.isr := rfl
@[simp] theorem State.setPollRest_drain (s : State) (ps : List PollPart) : (s.setPollRest ps).drain = s.drain := rfl
@[simp] theorem State.setPollRest_pollRest (s : State) (ps : List PollPart) : (s.setPollRest ps).pollRest = ps := rfl
@[simp] theorem State.setPollRest_enc0 (s : State) (ps : List PollPart) : (s.setPollRest ps).enc0 = s.enc0 := rfl
@[simp] theorem State.setPollRest_enc1 (s : State) (ps : List PollPart) : (s.setPollRest ps).enc1 = s.enc1 := rfl
@[simp] theorem State.setPollRest_te (s : State) (ps : List PollPart) : (s.setPollRest ps).te = s.te := rfl
@[simp] theorem State.setPollRest_events (s : State) (ps : List PollPart) : (s.setPollRest ps).events = s.events := rfl
@[simp] theorem State.setPollRest_env (s : State) (ps : List PollPart) : (s.setPollRest ps).env = s.env := rfl
@[simp] theorem State.setPollRest_enc (s : State) (ps : List PollPart) (e : EncIdx) : (s.setPollRest ps).enc e = s.enc e := by cases e <;> rfl
@[simp] theorem State.setPollRest_spp (s : State) (ps : List PollPart) : (s.setPollRest ps).spp = s.spp := rfl

/-! ### `State.setTe` -/

@[simp] theorem State.setTe_cfg (s : State) (t : Tempo) : (s.setTe t).cfg = s.cfg := rfl
@[simp] theorem State.setTe_rb (s : State) (t : Tempo) : (s.setTe t).rb = s.rb := rfl
@[simp] theorem State.setTe_isr (s : State) (t : Tempo) : (s.setTe t).isr = s.isr := rfl
@[simp] theorem State.setTe_drain (s : State) (t : Tempo) : (s.setTe t).drain = s.drain := rfl
@[simp] theorem State.setTe_pollRest (s : State) (t : Tempo) : (s.setTe t).pollRest = s.pollRest := rfl
@[simp] theorem State.setTe_enc0 (s : State) (t : Tempo) : (s.setTe t).enc0 = s.enc0 := rfl
@[simp] theorem State.setTe_enc1 (s : State) (t : Tempo) : (s.setTe t).enc1 = s.enc1 := rfl
@[simp] theorem State.setTe_te (s : State) (t : Tempo) : (s.setTe t).te = t := rfl
@[simp] theorem State.setTe_events (s : State) (t : Tempo) : (s.setTe t).events = s.events := rfl
@[simp] theorem State.setTe_env (s : State) (t : Tempo) : (s.setTe t).env = s.env := rfl
@[simp] theorem State.setTe_enc (s : State) (t : Tempo) (e : EncIdx) : (s.setTe t).enc e = s.enc e := by cases e <;> rfl
@[simp] theorem State.setTe_spp (s : State) (t : Tempo) : (s.setTe t).spp = 30 / ((t.bpm : Rat) * (s.cfg.tpb : Rat)) := rfl

/-! ### `State.setEnv` -/

@[simp] theorem State.setEnv_cfg (s : State) (acts : List Action) : (s.setEnv acts).cfg = s.cfg := rfl
@[simp] theorem State.setEnv_rb (s : State) (acts : List Action) : (s.setEnv acts).rb = s.rb := rfl
@[simp] theorem State.setEnv_isr (s : State) (acts : List Action) : (s.setEnv acts).isr = s.isr := rfl
@[simp] theorem State.setEnv_drain (s : State) (acts : List Action) : (s.setEnv acts).drain = s.drain := rfl
@[simp] theorem State.setEnv_pollRest (s : State) (acts : List Action) : (s.setEnv acts).pollRest = s.pollRest := rfl
@[simp] theorem State.setEnv_enc0 (s : State) (acts : List Action) : (s.setEnv acts).enc0 = s.enc0 := rfl
@[simp] theorem State.setEnv_enc1 (s : State) (acts : List Action) : (s.setEnv acts).enc1 = s.enc1 := rfl
@[simp] theorem State.setEnv_te (s : State) (acts : List Action) : (s.setEnv acts).te = s.te := rfl
@[simp] theorem State.setEnv_events (s : State) (acts : List Action) : (s.setEnv acts).events = s.events := rfl
@[simp] theorem State.setEnv_env (s : State) (acts : List Action) : (s.setEnv acts).env = acts := rfl
@[simp] theorem State.setEnv_enc (s : State) (acts : List Action) (e : EncIdx) : (s.setEnv acts).enc e = s.enc e := by cases e <;> rfl
@[simp] theorem State.setEnv_spp (s : State) (acts : List Action) : (s.setEnv acts).spp = s.spp := rfl

/-! ### `State.emit` -/

@[simp] theorem State.emit_cfg (s : State) (evs : List Event) : (s.emit evs).cfg = s.cfg := rfl
@[simp] theorem State.emit_rb (s : State) (evs : List Event) : (s.emit evs).rb = s.rb := rfl
@[simp] theorem State.emit_isr (s : State) (evs : List Event) : (s.emit evs).isr = s.isr := rfl
@[simp] theorem State.emit_drain (s : State) (evs : List Event) : (s.emit evs).drain = s.drain := rfl
@[simp] theorem State.emit_pollRest (s : State) (evs : List Event) : (s.emit evs).pollRest = s.pollRest := rfl
@[simp] theorem State.emit_enc0 (s : State) (evs : List Event) : (s.emit evs).enc0 = s.enc0 := rfl
@[simp] theorem State.emit_enc1 (s : State) (evs : List Event) : (s.emit evs).enc1 = s.enc1 := rfl
@[simp] theorem State.emit_te (s : State) (evs : List Event) : (s.emit evs).te = s.te := rfl
@[simp] theorem State.emit_events (s : State) (evs : List Event) : (s.emit evs).events = s.events ++ evs := rfl
@[simp] theorem State.emit_env (s : State) (evs : List Event) : (s.emit evs).env = s.env := rfl
@[simp] theorem State.emit_enc (s : State) (evs : List Event) (e : EncIdx) : (s.emit evs).enc e = s.enc e := by cases e <;> rfl
@[simp] theorem State.emit_spp (s : State) (evs : List Event) : (s.emit evs).spp = s.spp := rfl

/-! ### `State.setEnc` -/

@[simp] theorem State.setEnc_cfg (s : State) (e : EncIdx) (x : Encoder) : (s.setEnc e x).cfg = s.cfg := by
  cases e <;> rfl
@[simp] theorem State.setEnc_rb (s : State) (e : EncIdx) (x : Encoder) : (s.setEnc e x).rb = s.rb := by
  cases e <;> rfl
@[simp] theorem State.setEnc_isr (s : State) (e : EncIdx) (x : Encoder) : (s.setEnc e x).isr = s.isr := by
  cases e <;> rfl
@[simp] theorem State.setEnc_drain (s : State) (e : EncIdx) (x : Encoder) : (s.setEnc e x).drain = s.drain := by
  cases e <;> rfl
@[simp] theorem State.setEnc_pollRest (s : State) (e : EncIdx) (x : Encoder) : (s.setEnc e x).pollRest = s.pollRest := by
  cases e <;> rfl
@[simp] theorem State.setEnc_te (s : State) (e : EncIdx) (x : Encoder) : (s.setEnc e x).te = s.te := by
  cases e <;> rfl
@[simp] theorem State.setEnc_events (s : State) (e : EncIdx) (x : Encoder) : (s.setEnc e x).events = s.events := by
  cases e <;> rfl
@[simp] theorem State.setEnc_env (s : State) (e : EncIdx) (x : Encoder) : (s.setEnc e x).env = s.env := by
  cases e <;> rfl
@[simp] theorem State.setEnc_spp (s : State) (e : EncIdx) (x : Encoder) : (s.setEnc e x).spp = s.spp := by
  cases e <;> rfl
@[simp] theorem State.setEnc_enc_same (s : State) (e : EncIdx) (x : Encoder) : (s.setEnc e x).enc e = x := by
  cases e <;> rfl

/-- Writing one instance leaves the other (R154). -/
theorem State.setEnc_enc_other (s : State) {e f : EncIdx} (x : Encoder) (h : f ≠ e) : (s.setEnc e x).enc f = s.enc f := by
  cases e <;> cases f <;> first | rfl | exact absurd rfl h

@[simp] theorem State.setEnc0_enc0 (s : State) (x : Encoder) : (s.setEnc .enc0 x).enc0 = x := rfl
@[simp] theorem State.setEnc0_enc1 (s : State) (x : Encoder) : (s.setEnc .enc0 x).enc1 = s.enc1 := rfl
@[simp] theorem State.setEnc1_enc0 (s : State) (x : Encoder) : (s.setEnc .enc1 x).enc0 = s.enc0 := rfl
@[simp] theorem State.setEnc1_enc1 (s : State) (x : Encoder) : (s.setEnc .enc1 x).enc1 = x := rfl
@[simp] theorem State.enc_enc0 (s : State) : s.enc .enc0 = s.enc0 := rfl
@[simp] theorem State.enc_enc1 (s : State) : s.enc .enc1 = s.enc1 := rfl
@[simp] theorem State.setEnc_self (s : State) (e : EncIdx) : s.setEnc e (s.enc e) = s := by cases e <;> rfl
@[simp] theorem State.setEnc_setEnc (s : State) (e : EncIdx) (x y : Encoder) :
    (s.setEnc e x).setEnc e y = s.setEnc e y := by cases e <;> rfl

/-! ### Writing back what is there, and writing twice -/

@[simp] theorem State.setRb_self (s : State) : s.setRb s.rb = s := rfl
@[simp] theorem State.setTe_self (s : State) : s.setTe s.te = s := rfl
@[simp] theorem State.setEnv_self (s : State) : s.setEnv s.env = s := rfl
@[simp] theorem State.emit_nil (s : State) : s.emit [] = s := by simp [State.emit]
@[simp] theorem State.setTe_setTe (s : State) (t u : Tempo) : (s.setTe t).setTe u = s.setTe u := rfl
@[simp] theorem State.setEnv_setEnv (s : State) (a b : List Action) : (s.setEnv a).setEnv b = s.setEnv b := rfl
@[simp] theorem State.setDrain_setDrain (s : State) (a b : DrainStage) : (s.setDrain a).setDrain b = s.setDrain b := rfl
theorem State.emit_emit (s : State) (a b : List Event) : (s.emit a).emit b = s.emit (a ++ b) := by
  simp [State.emit, List.append_assoc]

end Sys2Proof.Machine
end

