-- ==== Sys2Proof/Laws/Encoder.lean ====
section
/-! SUPPORT. What the operations of a decoder can do (41_encoder.md). -/

namespace Sys2Proof.Machine

/-! ### The sample of one decoder -/

@[simp] theorem Encoder.onPins_prevA (x : Encoder) (a b : Bool) : (x.onPins a b).prevA = a := by
  unfold Encoder.onPins; repeat' split
  all_goals rfl

@[simp] theorem Encoder.onPins_prevB (x : Encoder) (a b : Bool) : (x.onPins a b).prevB = b := by
  unfold Encoder.onPins; repeat' split
  all_goals rfl

@[simp] theorem Encoder.onPins_prevPressed (x : Encoder) (a b : Bool) : (x.onPins a b).prevPressed = x.prevPressed := by
  unfold Encoder.onPins; repeat' split
  all_goals rfl

/-- The delta moves by the latched direction exactly on a commit (R140, R141). -/
theorem Encoder.onPins_pendingDelta (x : Encoder) (a b : Bool) :
    (x.onPins a b).pendingDelta = if x.commits a b then x.pendingDelta + x.latchedDir.toInt else x.pendingDelta := by
  unfold Encoder.onPins
  by_cases h : x.commits a b = true
  · simp [h]
  · simp only [h, if_false, Bool.false_eq_true]; repeat' split
    all_goals rfl

theorem Dir.toInt_bounds (d : Dir) : -1 ≤ d.toInt ∧ d.toInt ≤ 1 := by cases d <;> decide

/-- A sample moves the delta by at most one step. -/
theorem Encoder.onPins_delta_near (x : Encoder) (a b : Bool) :
    x.pendingDelta - 1 ≤ (x.onPins a b).pendingDelta ∧ (x.onPins a b).pendingDelta ≤ x.pendingDelta + 1 := by
  have h := x.latchedDir.toInt_bounds
  rw [Encoder.onPins_pendingDelta]; split <;> omega

/-- A sample equal to the previous one changes nothing (R152). -/
theorem Encoder.onPins_same (x : Encoder) : x.onPins x.prevA x.prevB = x := by
  obtain ⟨a, b, l, d, p⟩ := x
  cases a <;> cases b <;> cases l <;> rfl

/-- A decoder after no snapshot, and after one more. -/
@[simp] theorem Encoder.afterAll_nil (e : EncIdx) (x : Encoder) : Encoder.afterAll e x [] = x := rfl
@[simp] theorem Encoder.afterAll_cons (e : EncIdx) (x : Encoder) (v : Snapshot) (vs : List Snapshot) :
    Encoder.afterAll e x (v :: vs) = Encoder.afterAll e (x.onPins (phaseA v e) (phaseB v e)) vs := rfl

/-- Room for `k + 1` commits leaves room for `k` after a sample. -/
theorem Encoder.hasRoom_onPins {c : Config} {k : Nat} {x : Encoder} (h : x.hasRoom c (k + 1)) (a b : Bool) :
    (x.onPins a b).hasRoom c k := by
  have := x.onPins_delta_near a b
  unfold Encoder.hasRoom at *; push_cast at h; constructor <;> omega

theorem Encoder.hasRoom_mono {c : Config} {k j : Nat} {x : Encoder} (hk : j ≤ k) (h : x.hasRoom c k) : x.hasRoom c j := by
  unfold Encoder.hasRoom at *; omega

/-! ### ENC.PINS -/

theorem deltaInRange_iff (c : Config) (v : Int) : deltaInRange c v = true ↔ c.deltaMin ≤ v ∧ v ≤ c.deltaMax := by
  simp [deltaInRange]

/-- ENC.PINS runs when its commit, if it makes one, stays in range (R140, R146). -/
theorem encPins_next {e : EncIdx} {a b : Bool} {s : State}
    (h : (s.enc e).commits a b = true → s.cfg.deltaMin ≤ (s.enc e).pendingDelta + (s.enc e).latchedDir.toInt ∧
      (s.enc e).pendingDelta + (s.enc e).latchedDir.toInt ≤ s.cfg.deltaMax) :
    encPins e a b s = .next (s.setEnc e ((s.enc e).onPins a b)) := by
  unfold encPins
  rw [if_neg]
  intro hc
  simp only [Bool.and_eq_true, Bool.not_eq_true', ← Bool.not_eq_true] at hc
  exact hc.2 ((deltaInRange_iff _ _).2 (h hc.1))

theorem encPins_next_of_room {e : EncIdx} {a b : Bool} {s : State} (h : (s.enc e).hasRoom s.cfg 1) :
    encPins e a b s = .next (s.setEnc e ((s.enc e).onPins a b)) := by
  apply encPins_next; intro _
  have := (s.enc e).latchedDir.toInt_bounds
  unfold Encoder.hasRoom at h; push_cast at h; omega

/-- ENC.PINS faults exactly when it commits a step out of range (R146). -/
theorem encPins_fault {e : EncIdx} {a b : Bool} {s : State} (hc : (s.enc e).commits a b = true)
    (h : ¬ (s.cfg.deltaMin ≤ (s.enc e).pendingDelta + (s.enc e).latchedDir.toInt ∧
      (s.enc e).pendingDelta + (s.enc e).latchedDir.toInt ≤ s.cfg.deltaMax)) :
    encPins e a b s = .fault (.deltaOverflow e) := by
  unfold encPins
  rw [if_pos]
  simp only [hc, Bool.true_and, Bool.not_eq_true', ← Bool.not_eq_true, deltaInRange_iff]
  exact h

/-- ALL ENC.PINS CAN DO: the sample of R140, in range if it commits; or the fault of R146. -/
theorem encPins_cases (e : EncIdx) (a b : Bool) (s : State) :
    (encPins e a b s = .next (s.setEnc e ((s.enc e).onPins a b)) ∧
      ((s.enc e).commits a b = true → s.cfg.deltaMin ≤ (s.enc e).pendingDelta + (s.enc e).latchedDir.toInt ∧
        (s.enc e).pendingDelta + (s.enc e).latchedDir.toInt ≤ s.cfg.deltaMax)) ∨
    encPins e a b s = .fault (.deltaOverflow e) := by
  by_cases hc : (s.enc e).commits a b = true
  · by_cases hr : s.cfg.deltaMin ≤ (s.enc e).pendingDelta + (s.enc e).latchedDir.toInt ∧
        (s.enc e).pendingDelta + (s.enc e).latchedDir.toInt ≤ s.cfg.deltaMax
    · exact .inl ⟨encPins_next fun _ => hr, fun _ => hr⟩
    · exact .inr (encPins_fault hc hr)
  · exact .inl ⟨encPins_next fun h => absurd h hc, fun h => absurd h hc⟩

theorem encPins_eq_next {e : EncIdx} {a b : Bool} {s t : State} (h : encPins e a b s = .next t) :
    t = s.setEnc e ((s.enc e).onPins a b) := by
  rcases encPins_cases e a b s with ⟨h', _⟩ | h' <;> rw [h'] at h
  · exact (Host.Outcome.next.inj h).symm
  · cases h

/-- ENC.PINS keeps every decoder in range (R59). -/
theorem encPins_good {e : EncIdx} {a b : Bool} {s t : State} (h : encPins e a b s = .next t)
    (hg : ∀ f, (s.enc f).Good s.cfg) : ∀ f, (t.enc f).Good t.cfg := by
  rcases encPins_cases e a b s with ⟨h', hr⟩ | h' <;> rw [h'] at h
  · cases h
    intro f
    by_cases hf : f = e
    · subst hf
      have hgf := hg f
      simp only [State.setEnc_enc_same, State.setEnc_cfg, Encoder.Good, Encoder.onPins_pendingDelta] at hgf ⊢
      split
      · exact hr (by assumption)
      · exact hgf
    · rw [State.setEnc_enc_other s _ hf]; simpa using hg f
  · cases h

/-! ### ENC.DRAIN and ENC.BTN -/

@[simp] theorem encDrain_cfg (e : EncIdx) (s : State) : (encDrain e s).cfg = s.cfg := by simp [encDrain]
@[simp] theorem encDrain_rb (e : EncIdx) (s : State) : (encDrain e s).rb = s.rb := by simp [encDrain]
@[simp] theorem encDrain_isr (e : EncIdx) (s : State) : (encDrain e s).isr = s.isr := by simp [encDrain]
@[simp] theorem encDrain_drain (e : EncIdx) (s : State) : (encDrain e s).drain = s.drain := by simp [encDrain]
@[simp] theorem encDrain_pollRest (e : EncIdx) (s : State) : (encDrain e s).pollRest = s.pollRest := by simp [encDrain]
@[simp] theorem encDrain_te (e : EncIdx) (s : State) : (encDrain e s).te = s.te := by simp [encDrain]
@[simp] theorem encDrain_env (e : EncIdx) (s : State) : (encDrain e s).env = s.env := by simp [encDrain]
@[simp] theorem encDrain_events (e : EncIdx) (s : State) :
    (encDrain e s).events = s.events ++ turnEvents e (s.enc e).pendingDelta := by simp [encDrain]
@[simp] theorem encDrain_enc_same (e : EncIdx) (s : State) :
    (encDrain e s).enc e = { s.enc e with pendingDelta := 0 } := by simp [encDrain]
theorem encDrain_enc_other {e f : EncIdx} (s : State) (h : f ≠ e) : (encDrain e s).enc f = s.enc f := by
  simp [encDrain, State.setEnc_enc_other s _ h]

@[simp] theorem encBtn_cfg (e : EncIdx) (l : Bool) (s : State) : (encBtn e l s).cfg = s.cfg := by simp [encBtn]
@[simp] theorem encBtn_rb (e : EncIdx) (l : Bool) (s : State) : (encBtn e l s).rb = s.rb := by simp [encBtn]
@[simp] theorem encBtn_isr (e : EncIdx) (l : Bool) (s : State) : (encBtn e l s).isr = s.isr := by simp [encBtn]
@[simp] theorem encBtn_drain (e : EncIdx) (l : Bool) (s : State) : (encBtn e l s).drain = s.drain := by simp [encBtn]
@[simp] theorem encBtn_pollRest (e : EncIdx) (l : Bool) (s : State) : (encBtn e l s).pollRest = s.pollRest := by
  simp [encBtn]
@[simp] theorem encBtn_te (e : EncIdx) (l : Bool) (s : State) : (encBtn e l s).te = s.te := by simp [encBtn]
@[simp] theorem encBtn_env (e : EncIdx) (l : Bool) (s : State) : (encBtn e l s).env = s.env := by simp [encBtn]
@[simp] theorem encBtn_events (e : EncIdx) (l : Bool) (s : State) :
    (encBtn e l s).events = s.events ++ buttonEvents e (s.enc e).prevPressed l := by simp [encBtn]
@[simp] theorem encBtn_enc_same (e : EncIdx) (l : Bool) (s : State) :
    (encBtn e l s).enc e = { s.enc e with prevPressed := l } := by simp [encBtn]
theorem encBtn_enc_other {e f : EncIdx} (l : Bool) (s : State) (h : f ≠ e) : (encBtn e l s).enc f = s.enc f := by
  simp [encBtn, State.setEnc_enc_other s _ h]

/-- ENC.BTN leaves every delta. -/
theorem encBtn_delta (e f : EncIdx) (l : Bool) (s : State) :
    ((encBtn e l s).enc f).pendingDelta = (s.enc f).pendingDelta := by
  by_cases h : f = e
  · subst h; simp
  · rw [encBtn_enc_other l s h]

/-- ENC.DRAIN clears one delta and leaves the other. -/
theorem encDrain_delta (e f : EncIdx) (s : State) :
    ((encDrain e s).enc f).pendingDelta = if f = e then 0 else (s.enc f).pendingDelta := by
  by_cases h : f = e
  · subst h; simp
  · rw [encDrain_enc_other s h, if_neg h]

/-- The turn event carries a delta that is not zero and in range (R105, R147). -/
theorem turnEvents_good {c : Config} {e : EncIdx} {x : Encoder} (h : x.Good c) :
    ∀ ev ∈ turnEvents e x.pendingDelta, ev.Good c := by
  intro ev hev
  unfold turnEvents at hev
  split at hev
  · cases hev
  · rename_i hd
    rw [List.mem_singleton] at hev; subst hev
    exact ⟨hd, h.1, h.2⟩

theorem buttonEvents_good {c : Config} {e : EncIdx} {p l : Bool} : ∀ ev ∈ buttonEvents e p l, ev.Good c := by
  intro ev hev
  unfold buttonEvents at hev
  split at hev
  · cases hev
  · rw [List.mem_singleton] at hev; subst hev
    cases l <;> exact trivial

end Sys2Proof.Machine
end

