-- ==== Sys2Proof/Laws/Memory.lean ====
section
/-! SUPPORT. The laws of the slot array: read after write, and the canonical form. -/

namespace Sys2Proof.Machine

theorem Memory.read_cons (i j : Nat) (v : Snapshot) (m : Memory) (h : ∀ c ∈ m, i < c.1) :
    (Memory.cons i v m).read j = if j = i then v else m.read j := by
  have hlow : ∀ m' : Memory, (∀ c ∈ m', i < c.1) → m'.read i = Memory.unwritten := by
    intro m' h'
    induction m' with
    | nil => rfl
    | cons c rest ih =>
      obtain ⟨a, x⟩ := c
      have ha : i < a := h' (a, x) (by simp)
      simp only [Memory.read]
      rw [if_neg (by omega)]
      exact ih fun c hc => h' c (by simp [hc])
  unfold Memory.cons
  by_cases hv : v = Memory.unwritten
  · by_cases hj : j = i
    · subst hj; simp [hv, hlow m h]
    · simp [hv, hj]
  · by_cases hj : j = i
    · simp [hv, hj, Memory.read]
    · simp [hv, hj, Memory.read, Ne.symm hj]

/-- Cells above `lo` lie at or above it. -/
theorem Memory.wfAbove_le {lo : Nat} {m : Memory} (h : Memory.wfAbove lo m = true) : ∀ c ∈ m, lo ≤ c.1 := by
  induction m generalizing lo with
  | nil => simp
  | cons c rest ih =>
    obtain ⟨a, x⟩ := c
    simp only [Memory.wfAbove, Bool.and_eq_true, decide_eq_true_eq] at h
    intro c hc
    rcases List.mem_cons.1 hc with rfl | hc
    · exact h.1.1
    · have := ih h.2 c hc; omega

theorem Memory.wfAbove_mono {lo lo' : Nat} {m : Memory} (hl : lo' ≤ lo) (h : Memory.wfAbove lo m = true) :
    Memory.wfAbove lo' m = true := by
  cases m with
  | nil => rfl
  | cons c rest =>
    obtain ⟨a, x⟩ := c
    simp only [Memory.wfAbove, Bool.and_eq_true, decide_eq_true_eq] at h ⊢
    exact ⟨⟨by omega, h.1.2⟩, h.2⟩

theorem Memory.wfAbove_cons {lo i : Nat} {m : Memory} (v : Snapshot) (hl : lo ≤ i) (h : Memory.wfAbove (i + 1) m = true) :
    Memory.wfAbove lo (Memory.cons i v m) = true := by
  unfold Memory.cons
  split
  · exact Memory.wfAbove_mono (by omega) h
  · rename_i hv
    simp [Memory.wfAbove, hv, hl, h]

theorem Memory.read_write_above {lo : Nat} (m : Memory) (i j : Nat) (v : Snapshot) (h : Memory.wfAbove lo m = true) :
    (m.write i v).read j = if j = i then v else m.read j := by
  induction m generalizing lo with
  | nil => exact Memory.read_cons i j v [] (by simp)
  | cons c rest ih =>
    obtain ⟨a, x⟩ := c
    simp only [Memory.wfAbove, Bool.and_eq_true, decide_eq_true_eq] at h
    have hrest := Memory.wfAbove_le h.2
    unfold Memory.write
    by_cases h1 : i < a
    · rw [if_pos h1]
      refine Memory.read_cons i j v _ ?_
      intro c hc
      rcases List.mem_cons.1 hc with rfl | hc
      · exact h1
      · have := hrest c hc; omega
    · rw [if_neg h1]
      by_cases h2 : i = a
      · subst h2
        rw [if_pos rfl, Memory.read_cons i j v rest (fun c hc => by have := hrest c hc; omega)]
        by_cases hj : j = i
        · simp [hj]
        · simp [hj, Memory.read, Ne.symm hj]
      · rw [if_neg h2]
        simp only [Memory.read]
        rw [ih h.2]
        by_cases hj : j = i
        · subst hj; simp [Ne.symm h2]
        · simp [hj]

/-- Reading after a write: the value written there, everything else as before. -/
theorem Memory.read_write (m : Memory) (i j : Nat) (v : Snapshot) (h : m.wf = true) :
    (m.write i v).read j = if j = i then v else m.read j :=
  Memory.read_write_above m i j v h

theorem Memory.write_wfAbove {lo : Nat} (m : Memory) (i : Nat) (v : Snapshot) (hl : lo ≤ i)
    (h : Memory.wfAbove lo m = true) : Memory.wfAbove lo (m.write i v) = true := by
  induction m generalizing lo with
  | nil => exact Memory.wfAbove_cons v hl rfl
  | cons c rest ih =>
    obtain ⟨a, x⟩ := c
    have h' := h
    simp only [Memory.wfAbove, Bool.and_eq_true, decide_eq_true_eq] at h
    unfold Memory.write
    by_cases h1 : i < a
    · rw [if_pos h1]
      refine Memory.wfAbove_cons v hl ?_
      simp [Memory.wfAbove, h.1.2, h.2]; omega
    · rw [if_neg h1]
      by_cases h2 : i = a
      · subst h2
        rw [if_pos rfl]
        exact Memory.wfAbove_cons v hl h.2
      · rw [if_neg h2]
        simp only [Memory.wfAbove, Bool.and_eq_true, decide_eq_true_eq]
        exact ⟨h.1, ih (by omega) h.2⟩

/-- A write keeps the canonical form. -/
theorem Memory.write_wf (m : Memory) (i : Nat) (v : Snapshot) (h : m.wf = true) : (m.write i v).wf = true :=
  Memory.write_wfAbove m i v (Nat.zero_le i) h

/-- A write lists no slot but the one written. -/
theorem Memory.mem_write {m : Memory} {i : Nat} {v : Snapshot} {c : Host.Cell} (h : c ∈ m.write i v) :
    c ∈ m ∨ c.1 = i := by
  have hcons : ∀ m' : Memory, c ∈ Memory.cons i v m' → c ∈ m' ∨ c.1 = i := by
    intro m' hc
    unfold Memory.cons at hc
    split at hc
    · exact .inl hc
    · rcases List.mem_cons.1 hc with rfl | hc
      · exact .inr rfl
      · exact .inl hc
  induction m with
  | nil => exact hcons [] h
  | cons d rest ih =>
    obtain ⟨a, x⟩ := d
    unfold Memory.write at h
    split at h
    · exact hcons _ h
    · split at h
      · rcases hcons _ h with h | h
        · exact .inl (by simp [h])
        · exact .inr h
      · rcases List.mem_cons.1 h with rfl | h
        · exact .inl (by simp)
        · rcases ih h with h | h
          · exact .inl (by simp [h])
          · exact .inr h

end Sys2Proof.Machine
end

