-- ==== Sys2Proof/Laws/PerInstr.lean ====
section
/-! SUPPORT. One lemma per command: its operand field sets no reserved bit (R98 to R103, R108, R110). -/

namespace Sys2Proof.Laws.OperandFits

theorem and_not_ones (x : Arg) : x &&& ~~~0xFFFFFFFF#32 = 0#32 := by
  rw [show ~~~0xFFFFFFFF#32 = 0#32 by decide]; exact BitVec.and_zero

theorem setWidth_and_not {w : Nat} (x : BitVec w) : x.setWidth 32 &&& ~~~(BitVec.allOnes w).setWidth 32 = 0#32 := by
  apply BitVec.eq_of_getLsbD_eq
  intro k hk
  by_cases h : k < w
  · simp [hk, h]
  · simp [hk, BitVec.getLsbD_of_ge x k (by omega)]

/-- The operand field of the command names only bits of its opcode's layout. -/
def Statement (i : Instr) : Prop := i.argBits &&& ~~~i.opcode.argMask = 0#32

theorem rbPush (v : Snapshot) : Statement (.rbPush v) := by
  unfold Statement Instr.argBits Instr.opcode Opcode.argMask
  show v.setWidth 32 &&& ~~~0x000000FF#32 = 0#32
  have h : 0x000000FF#32 = (BitVec.allOnes 8).setWidth 32 := by decide
  rw [h]; exact setWidth_and_not v

theorem rbDrain : Statement .rbDrain := by unfold Statement; decide

theorem encPins (e : EncIdx) (a b : Bool) : Statement (.encPins e a b) := by
  unfold Statement; cases e <;> cases a <;> cases b <;> decide

theorem encDrain (e : EncIdx) : Statement (.encDrain e) := by unfold Statement; cases e <;> decide

theorem encBtn (e : EncIdx) (level : Bool) : Statement (.encBtn e level) := by
  unfold Statement; cases e <;> cases level <;> decide

theorem tSetBpm (v : Int) : Statement (.tSetBpm v) := by
  unfold Statement Instr.argBits Instr.opcode Opcode.argMask
  show (BitVec.ofInt 16 v).setWidth 32 &&& ~~~0x0000FFFF#32 = 0#32
  have h : 0x0000FFFF#32 = (BitVec.allOnes 16).setWidth 32 := by decide
  rw [h]; exact setWidth_and_not _

theorem tTick (n : Nat) : Statement (.tTick n) := by
  exact and_not_ones _

theorem tExtEdge (level : Bool) : Statement (.tExtEdge level) := by unfold Statement; cases level <;> decide

theorem tBeginTap : Statement .tBeginTap := by unfold Statement; decide

theorem tTap (n : Nat) : Statement (.tTap n) := by
  exact and_not_ones _

theorem tEndTap : Statement .tEndTap := by unfold Statement; decide

theorem poll (n : Nat) (btn0 btn1 : Bool) : Statement (.poll n btn0 btn1) := by
  exact and_not_ones _

end Sys2Proof.Laws.OperandFits
end

