-- ==== Sys2Proof/Laws/Ring.lean ====
section
/-! SUPPORT. What the micro-steps of a push and of a drain can do, and what a whole drain does
(40_ringbuffer.md). -/

namespace Sys2Proof.Machine

theorem inc_lt {cap i : Nat} (h : 0 < cap) : inc cap i < cap := Nat.mod_lt _ h

/-! ### The interrupt: P1 and P2 -/

/-- P1 stores the snapshot and marks the push in progress (R126). -/
theorem takeInterrupt_next {v : Snapshot} {s : State} (h : s.rb.writeIdx < s.cfg.cap) :
    takeInterrupt v s = .next ((s.setRb { s.rb with slots := s.rb.slots.write s.rb.writeIdx v }).setIsr .wrote) := by
  simp [takeInterrupt, memWrite, h]

/-- ALL P1 CAN DO: the effect of R126, or the fault of an index that is no slot. -/
theorem takeInterrupt_cases (v : Snapshot) (s : State) :
    (s.rb.writeIdx < s.cfg.cap ∧
      takeInterrupt v s = .next ((s.setRb { s.rb with slots := s.rb.slots.write s.rb.writeIdx v }).setIsr .wrote)) ∨
    (¬ s.rb.writeIdx < s.cfg.cap ∧ takeInterrupt v s = .fault (.slotOutOfRange s.rb.writeIdx)) := by
  by_cases h : s.rb.writeIdx < s.cfg.cap
  · exact .inl ⟨h, takeInterrupt_next h⟩
  · exact .inr ⟨h, by simp [takeInterrupt, memWrite, h]⟩

@[simp] theorem endInterrupt_cfg (s : State) : (endInterrupt s).cfg = s.cfg := rfl
@[simp] theorem endInterrupt_rb (s : State) :
    (endInterrupt s).rb = { s.rb with writeIdx := inc s.cfg.cap s.rb.writeIdx } := rfl
@[simp] theorem endInterrupt_isr (s : State) : (endInterrupt s).isr = .idle := rfl
@[simp] theorem endInterrupt_drain (s : State) : (endInterrupt s).drain = s.drain := rfl
@[simp] theorem endInterrupt_pollRest (s : State) : (endInterrupt s).pollRest = s.pollRest := rfl
@[simp] theorem endInterrupt_enc (s : State) (e : EncIdx) : (endInterrupt s).enc e = s.enc e := by cases e <;> rfl
@[simp] theorem endInterrupt_enc0 (s : State) : (endInterrupt s).enc0 = s.enc0 := rfl
@[simp] theorem endInterrupt_enc1 (s : State) : (endInterrupt s).enc1 = s.enc1 := rfl
@[simp] theorem endInterrupt_te (s : State) : (endInterrupt s).te = s.te := rfl
@[simp] theorem endInterrupt_events (s : State) : (endInterrupt s).events = s.events := rfl
@[simp] theorem endInterrupt_env (s : State) : (endInterrupt s).env = s.env := rfl

/-! ### Delivery -/

/-- Both decoders after one snapshot. -/
def deliverTo (v : Snapshot) (s : State) : State :=
  (s.setEnc .enc0 (s.enc0.onPins (phaseA v .enc0) (phaseB v .enc0))).setEnc .enc1
    (s.enc1.onPins (phaseA v .enc1) (phaseB v .enc1))

theorem deliverTo_enc (v : Snapshot) (s : State) (e : EncIdx) :
    (deliverTo v s).enc e = (s.enc e).onPins (phaseA v e) (phaseB v e) := by cases e <;> rfl

/-- A snapshot is delivered where each decoder has room for one step (R132). -/
theorem deliver_next {v : Snapshot} {s : State} (h : ∀ e, (s.enc e).hasRoom s.cfg 1) :
    deliver v s = .next (deliverTo v s) := by
  unfold deliver
  rw [encPins_next_of_room (h .enc0), andThen_next, encPins_next_of_room]
  · rfl
  · simpa using h .enc1

/-- ALL A DELIVERY CAN DO: both samples, each keeping its decoder in range; or an overflow of one of them. -/
theorem deliver_cases (v : Snapshot) (s : State) :
    (deliver v s = .next (deliverTo v s) ∧
      ((∀ f, (s.enc f).Good s.cfg) → ∀ f, ((deliverTo v s).enc f).Good s.cfg)) ∨
    (∃ e, deliver v s = .fault (.deltaOverflow e)) := by
  unfold deliver
  rcases encPins_cases .enc0 (phaseA v .enc0) (phaseB v .enc0) s with ⟨h0, _⟩ | h0
  · rcases encPins_cases .enc1 (phaseA v .enc1) (phaseB v .enc1)
        (s.setEnc .enc0 ((s.enc .enc0).onPins (phaseA v .enc0) (phaseB v .enc0))) with ⟨h1, _⟩ | h1
    · refine .inl ⟨by rw [h0, andThen_next, h1]; rfl, fun hg => ?_⟩
      have g0 := encPins_good h0 hg
      have g1 := encPins_good h1 g0
      simpa [deliverTo] using g1
    · exact .inr ⟨.enc1, by rw [h0, andThen_next, h1]⟩
  · exact .inr ⟨.enc0, by rw [h0, andThen_fault]⟩

/-! ### The frame of a drain -/

/-- What no micro-step of a drain writes. -/
structure DrainFrame (s t : State) : Prop where
  cfg : t.cfg = s.cfg
  slots : t.rb.slots = s.rb.slots
  writeIdx : t.rb.writeIdx = s.rb.writeIdx
  isr : t.isr = s.isr
  pollRest : t.pollRest = s.pollRest
  te : t.te = s.te
  events : t.events = s.events
  env : t.env = s.env

theorem DrainFrame.refl (s : State) : DrainFrame s s := ⟨rfl, rfl, rfl, rfl, rfl, rfl, rfl, rfl⟩

theorem DrainFrame.trans {s t u : State} (h : DrainFrame s t) (k : DrainFrame t u) : DrainFrame s u :=
  ⟨k.cfg.trans h.cfg, k.slots.trans h.slots, k.writeIdx.trans h.writeIdx, k.isr.trans h.isr,
   k.pollRest.trans h.pollRest, k.te.trans h.te, k.events.trans h.events, k.env.trans h.env⟩

@[simp] theorem drainC0_cfg (s : State) : (drainC0 s).cfg = s.cfg := rfl
@[simp] theorem drainC0_rb (s : State) : (drainC0 s).rb = s.rb := rfl
@[simp] theorem drainC0_isr (s : State) : (drainC0 s).isr = s.isr := rfl
@[simp] theorem drainC0_drain (s : State) : (drainC0 s).drain = stageAt s.rb.readIdx s.rb.writeIdx := rfl
@[simp] theorem drainC0_pollRest (s : State) : (drainC0 s).pollRest = s.pollRest := rfl
@[simp] theorem drainC0_enc (s : State) (e : EncIdx) : (drainC0 s).enc e = s.enc e := by cases e <;> rfl
@[simp] theorem drainC0_te (s : State) : (drainC0 s).te = s.te := rfl
@[simp] theorem drainC0_events (s : State) : (drainC0 s).events = s.events := rfl
@[simp] theorem drainC0_env (s : State) : (drainC0 s).env = s.env := rfl

theorem drainC0_frame (s : State) : DrainFrame s (drainC0 s) := ⟨rfl, rfl, rfl, rfl, rfl, rfl, rfl, rfl⟩

/-- ALL C1 CAN DO: hold the snapshot at `readIdx`, or fault on an index that is no slot (R130). -/
theorem drainC1_cases (w : Nat) (s : State) :
    (s.rb.readIdx < s.cfg.cap ∧ drainC1 w s = .next (s.setDrain (.holding w (s.rb.slots.read s.rb.readIdx)))) ∨
    (¬ s.rb.readIdx < s.cfg.cap ∧ drainC1 w s = .fault (.slotOutOfRange s.rb.readIdx)) := by
  by_cases h : s.rb.readIdx < s.cfg.cap
  · exact .inl ⟨h, by simp [drainC1, memRead, h]⟩
  · exact .inr ⟨h, by simp [drainC1, memRead, h]⟩

/-- ALL C2 CAN DO: deliver and advance, or the fault of a delivery (R131). -/
theorem drainC2_cases (w : Nat) (v : Snapshot) (s : State) :
    (drainC2 w v s = .next (popSlot w (deliverTo v s)) ∧
      ((∀ f, (s.enc f).Good s.cfg) → ∀ f, ((deliverTo v s).enc f).Good s.cfg)) ∨
    (∃ e, drainC2 w v s = .fault (.deltaOverflow e)) := by
  rcases deliver_cases v s with ⟨h, hg⟩ | ⟨e, h⟩
  · exact .inl ⟨by simp [drainC2, h], hg⟩
  · exact .inr ⟨e, by simp [drainC2, h]⟩

theorem deliverTo_frame (v : Snapshot) (s : State) : DrainFrame s (deliverTo v s) := by
  constructor <;> simp [deliverTo]

theorem deliverTo_readIdx (v : Snapshot) (s : State) : (deliverTo v s).rb.readIdx = s.rb.readIdx := by simp [deliverTo]

theorem popSlot_frame (w : Nat) (s : State) : DrainFrame s (popSlot w s) := ⟨rfl, rfl, rfl, rfl, rfl, rfl, rfl, rfl⟩

@[simp] theorem popSlot_enc (w : Nat) (s : State) (e : EncIdx) : (popSlot w s).enc e = s.enc e := by cases e <;> rfl
@[simp] theorem popSlot_readIdx (w : Nat) (s : State) : (popSlot w s).rb.readIdx = inc s.cfg.cap s.rb.readIdx := rfl
@[simp] theorem popSlot_drain (w : Nat) (s : State) :
    (popSlot w s).drain = stageAt (inc s.cfg.cap s.rb.readIdx) w := rfl

/-- A micro-step of a drain writes only `readIdx`, the drain's stage and the decoders. -/
theorem drainStep_frame {s t : State} (h : drainStep s = .next t) : DrainFrame s t := by
  unfold drainStep at h
  split at h
  · cases h; exact DrainFrame.refl _
  · rename_i w _
    rcases drainC1_cases w s with ⟨_, h'⟩ | ⟨_, h'⟩ <;> rw [h'] at h <;> cases h
    exact ⟨rfl, rfl, rfl, rfl, rfl, rfl, rfl, rfl⟩
  · rename_i w v _
    rcases drainC2_cases w v s with ⟨h', _⟩ | ⟨e, h'⟩ <;> rw [h'] at h <;> cases h
    exact (deliverTo_frame v s).trans (popSlot_frame w _)

theorem drainStep_ne_refused (s : State) (r : Refusal) : drainStep s ≠ .refused r := by
  unfold drainStep
  split
  · exact fun h => by cases h
  · rename_i w _
    rcases drainC1_cases w s with ⟨_, h'⟩ | ⟨_, h'⟩ <;> rw [h'] <;> exact fun h => by cases h
  · rename_i w v _
    rcases drainC2_cases w v s with ⟨h', _⟩ | ⟨e, h'⟩ <;> rw [h'] <;> exact fun h => by cases h

theorem finishDrain_frame {k : Nat} {s t : State} (h : finishDrain k s = .next t) :
    DrainFrame s t ∧ t.drain = .notDraining := by
  induction k generalizing s with
  | zero =>
    simp only [finishDrain] at h
    split at h
    · cases h; exact ⟨DrainFrame.refl _, by assumption⟩
    · cases h
  | succ k ih =>
    simp only [finishDrain] at h
    split at h
    · cases h; exact ⟨DrainFrame.refl _, by assumption⟩
    · obtain ⟨u, hu, ht⟩ := andThen_eq_next h
      exact ⟨(drainStep_frame hu).trans (ih ht).1, (ih ht).2⟩

theorem finishDrain_ne_refused (k : Nat) (s : State) (r : Refusal) : finishDrain k s ≠ .refused r := by
  induction k generalizing s with
  | zero => simp only [finishDrain]; split <;> exact fun h => by cases h
  | succ k ih =>
    simp only [finishDrain]
    split
    · exact fun h => by cases h
    · intro h
      rcases andThen_eq_refused h with h | ⟨u, _, h⟩
      · exact drainStep_ne_refused s r h
      · exact ih u h

@[simp] theorem finishDrain_idle {k : Nat} {s : State} (h : s.drain = .notDraining) : finishDrain k s = .next s := by
  cases k <;> simp [finishDrain, h]

/-! ### What a drain keeps -/

theorem stageAt_good {c : Config} {r w : Nat} (hw : w < c.cap) : (stageAt r w).good c r := by
  unfold stageAt; split
  · exact trivial
  · exact ⟨hw, by assumption⟩

/-- The part of the invariant a drain can touch. -/
structure DrainGood (s : State) : Prop where
  read_lt : s.rb.readIdx < s.cfg.cap
  drain : s.drain.good s.cfg s.rb.readIdx
  enc : ∀ e, (s.enc e).Good s.cfg

theorem drainStep_good {s t : State} (h : drainStep s = .next t) (hg : DrainGood s) : DrainGood t := by
  have hcap : 0 < s.cfg.cap := Nat.lt_of_le_of_lt (Nat.zero_le _) hg.read_lt
  have hd := hg.drain
  unfold drainStep at h
  split at h
  · cases h; exact hg
  · rename_i w hw
    rw [hw] at hd
    rcases drainC1_cases w s with ⟨_, h'⟩ | ⟨_, h'⟩ <;> rw [h'] at h <;> cases h
    exact ⟨hg.read_lt, hd, by simpa using hg.enc⟩
  · rename_i w v hw
    rw [hw] at hd
    rcases drainC2_cases w v s with ⟨h', hk⟩ | ⟨e, h'⟩ <;> rw [h'] at h <;> cases h
    have hc : (deliverTo v s).cfg = s.cfg := (deliverTo_frame v s).cfg
    have hr : (popSlot w (deliverTo v s)).cfg = s.cfg := hc
    refine ⟨?_, ?_, ?_⟩
    · rw [hr, popSlot_readIdx, hc]; exact inc_lt hcap
    · rw [hr, popSlot_readIdx, popSlot_drain, hc]; exact stageAt_good hd.1
    · intro e; rw [hr, popSlot_enc]; exact hk hg.enc e

theorem finishDrain_good {k : Nat} {s t : State} (h : finishDrain k s = .next t) (hg : DrainGood s) : DrainGood t := by
  induction k generalizing s with
  | zero =>
    simp only [finishDrain] at h
    split at h
    · cases h; exact hg
    · cases h
  | succ k ih =>
    simp only [finishDrain] at h
    split at h
    · cases h; exact hg
    · obtain ⟨u, hu, ht⟩ := andThen_eq_next h
      exact ih ht (drainStep_good hu hg)

/-! ### How many micro-steps a drain has left, and what it delivers -/

/-- `(bound - readIdx) mod CAP`: how many slots lie between `readIdx` and a bound (R128). -/
def slotsTo (cap r w : Nat) : Nat := (w + cap - r) % cap

theorem slotsTo_lt {cap r w : Nat} (h : 0 < cap) : slotsTo cap r w < cap := Nat.mod_lt _ h

theorem slotsTo_eq_zero {cap r w : Nat} (hr : r < cap) (hw : w < cap) : slotsTo cap r w = 0 ↔ r = w := by
  unfold slotsTo
  rcases Nat.lt_or_ge w r with h | h
  · rw [Nat.mod_eq_of_lt (by omega)]; omega
  · rw [show w + cap - r = (w - r) + cap by omega, Nat.add_mod_right, Nat.mod_eq_of_lt (by omega)]; omega

theorem slotsTo_inc {cap r w : Nat} (hr : r < cap) (hw : w < cap) (h : r ≠ w) :
    slotsTo cap (inc cap r) w + 1 = slotsTo cap r w := by
  unfold slotsTo inc
  have hr1 : (r + 1) % cap = if r + 1 = cap then 0 else r + 1 := by
    split
    · rename_i h1; rw [h1, Nat.mod_self]
    · exact Nat.mod_eq_of_lt (by omega)
  rw [hr1]
  have mod_id : ∀ x, x < cap → x % cap = x := fun x hx => Nat.mod_eq_of_lt hx
  have mod_sub : ∀ x, cap ≤ x → x < 2 * cap → x % cap = x - cap := fun x h1 h2 => by
    rw [Nat.mod_eq_sub_mod h1, Nat.mod_eq_of_lt (by omega)]
  split
  · rename_i h1
    rw [mod_sub (w + cap - 0) (by omega) (by omega), mod_id (w + cap - r) (by omega)]; omega
  · rename_i h1
    rcases Nat.lt_or_ge w r with h2 | h2
    · rw [mod_id (w + cap - (r + 1)) (by omega), mod_id (w + cap - r) (by omega)]; omega
    · rw [mod_sub (w + cap - (r + 1)) (by omega) (by omega), mod_sub (w + cap - r) (by omega) (by omega)]; omega

/-- The snapshots in the `u` slots from `r` on. -/
def slotsFrom (m : Memory) (cap r u : Nat) : List Snapshot := (List.range u).map fun k => m.read ((r + k) % cap)

theorem slotsFrom_succ {m : Memory} {cap r u : Nat} (hr : r < cap) :
    slotsFrom m cap r (u + 1) = m.read r :: slotsFrom m cap (inc cap r) u := by
  unfold slotsFrom
  rw [List.range_succ_eq_map, List.map_cons, List.map_map]
  congr 1
  · rw [Nat.add_zero, Nat.mod_eq_of_lt hr]
  · apply List.map_congr_left
    intro k _
    simp only [Function.comp_apply, inc, Nat.mod_add_mod]
    congr 2; omega

theorem unread_eq (s : State) :
    s.unread = slotsFrom s.rb.slots s.cfg.cap s.rb.readIdx (slotsTo s.cfg.cap s.rb.readIdx s.rb.writeIdx) := rfl

theorem unread_length (s : State) : s.unread.length = slotsTo s.cfg.cap s.rb.readIdx s.rb.writeIdx := by
  simp [unread_eq, slotsFrom]

/-- The state a drain with this bound leaves after delivering `vs`. -/
def drainedState (s : State) (w : Nat) (vs : List Snapshot) : State :=
  { s with
    rb := { s.rb with readIdx := w }
    drain := .notDraining
    enc0 := Encoder.afterAll .enc0 s.enc0 vs
    enc1 := Encoder.afterAll .enc1 s.enc1 vs }

theorem drainedState_enc (s : State) (w : Nat) (vs : List Snapshot) (e : EncIdx) :
    (drainedState s w vs).enc e = Encoder.afterAll e (s.enc e) vs := by cases e <;> rfl

/-- A drain at a stage with nothing held delivers the snapshots up to its bound, in order, in two micro-steps each
(R128). -/
theorem finishDrain_delivers {w u : Nat} : ∀ {k : Nat} {s : State}, s.drain = stageAt s.rb.readIdx w →
    s.rb.readIdx < s.cfg.cap → w < s.cfg.cap → slotsTo s.cfg.cap s.rb.readIdx w = u → 2 * u ≤ k →
    (∀ e, (s.enc e).hasRoom s.cfg u) →
    finishDrain k s = .next (drainedState s w (slotsFrom s.rb.slots s.cfg.cap s.rb.readIdx u)) := by
  induction u with
  | zero =>
    intro k s hd hr hw hu hk _
    have hrw : s.rb.readIdx = w := (slotsTo_eq_zero hr hw).1 hu
    have hn : s.drain = .notDraining := by rw [hd]; simp [stageAt, hrw]
    rw [finishDrain_idle hn]
    obtain ⟨_, ⟨_, _, _⟩, _, _, _, _, _, _, _, _⟩ := s
    simp_all [drainedState, slotsFrom]
  | succ u ih =>
    intro k s hd hr hw hu hk hroom
    have hrw : s.rb.readIdx ≠ w := fun h => by
      have := (slotsTo_eq_zero hr hw).2 h; omega
    have hd' : s.drain = .draining w := by rw [hd]; simp [stageAt, hrw]
    obtain ⟨k, rfl⟩ : ∃ j, k = j + 2 := ⟨k - 2, by omega⟩
    have hroom1 : ∀ e, (s.enc e).hasRoom s.cfg 1 := fun e => Encoder.hasRoom_mono (by omega) (hroom e)
    have hinc := slotsTo_inc hr hw hrw
    have h1 : finishDrain (k + 2) s =
        finishDrain k (popSlot w (deliverTo (s.rb.slots.read s.rb.readIdx)
          (s.setDrain (.holding w (s.rb.slots.read s.rb.readIdx))))) := by
      have hC1 : drainStep s = .next (s.setDrain (.holding w (s.rb.slots.read s.rb.readIdx))) := by
        simp [drainStep, hd', drainC1, memRead, hr]
      have hC2 : ∀ x y, drainStep (s.setDrain (.holding x y)) = drainC2 x y (s.setDrain (.holding x y)) := fun _ _ => rfl
      have hdel := @deliver_next (s.rb.slots.read s.rb.readIdx)
        (s.setDrain (.holding w (s.rb.slots.read s.rb.readIdx))) (by simpa using hroom1)
      simp [finishDrain, hd', hC1, hC2, drainC2, hdel]
    rw [h1, ih]
    · rw [slotsFrom_succ hr]
      cases s; simp [drainedState, popSlot, deliverTo, State.setEnc, State.setDrain, State.setRb]
    · simp [deliverTo_readIdx, (deliverTo_frame _ _).cfg]
    · simp only [popSlot_readIdx, deliverTo_readIdx, (popSlot_frame _ _).cfg, (deliverTo_frame _ _).cfg,
        State.setDrain_rb, State.setDrain_cfg]
      exact inc_lt (by omega)
    · simpa [(popSlot_frame _ _).cfg, (deliverTo_frame _ _).cfg] using hw
    · simp only [popSlot_readIdx, deliverTo_readIdx, (popSlot_frame _ _).cfg, (deliverTo_frame _ _).cfg,
        State.setDrain_rb, State.setDrain_cfg]
      omega
    · omega
    · intro e
      simp only [popSlot_enc, deliverTo_enc, (popSlot_frame _ _).cfg, (deliverTo_frame _ _).cfg, State.setDrain_enc,
        State.setDrain_cfg]
      exact Encoder.hasRoom_onPins (hroom e) _ _

/-- A whole drain from C0 on delivers everything unread (R128). -/
theorem drainRing_delivers {s : State} (hr : s.rb.readIdx < s.cfg.cap) (hw : s.rb.writeIdx < s.cfg.cap)
    (hroom : ∀ e, (s.enc e).hasRoom s.cfg s.unread.length) :
    drainRing s = .next (drainedState s s.rb.writeIdx s.unread) := by
  have hlt : slotsTo s.cfg.cap s.rb.readIdx s.rb.writeIdx < s.cfg.cap := slotsTo_lt (by omega)
  have h := @finishDrain_delivers s.rb.writeIdx _ (2 * s.cfg.cap) (drainC0 s) rfl hr hw rfl
    (by simp only [drainC0_cfg, drainC0_rb]; omega) (by simpa [unread_length] using hroom)
  exact h

/-- The only fault of a drain whose indices are in range is an overflow of a decoder (R128). -/
theorem drainStep_fault {s : State} {r : Fault} (h : drainStep s = .fault r) (hr : s.rb.readIdx < s.cfg.cap) :
    ∃ e, r = .deltaOverflow e := by
  unfold drainStep at h
  split at h
  · cases h
  · rename_i w _
    rcases drainC1_cases w s with ⟨_, h'⟩ | ⟨hn, _⟩
    · rw [h'] at h; cases h
    · exact absurd hr hn
  · rename_i w v _
    rcases drainC2_cases w v s with ⟨h', _⟩ | ⟨e, h'⟩ <;> rw [h'] at h <;> cases h
    exact ⟨e, rfl⟩

/-- Micro-steps a drain in flight has left. -/
def drainLeft (s : State) : Nat :=
  match s.drain with
  | .notDraining => 0
  | .draining w => 2 * slotsTo s.cfg.cap s.rb.readIdx w
  | .holding w _ => 2 * slotsTo s.cfg.cap s.rb.readIdx w - 1

/-- Each micro-step of a good drain in flight leaves one fewer (R128: a drain is bounded). -/
theorem drainStep_left {s t : State} (h : drainStep s = .next t) (hg : DrainGood s) (hd : s.drain ≠ .notDraining) :
    drainLeft t + 1 = drainLeft s := by
  have hgd := hg.drain
  unfold drainStep at h
  split at h
  · exact absurd (by assumption) hd
  · rename_i w hw
    rw [hw] at hgd
    rcases drainC1_cases w s with ⟨_, h'⟩ | ⟨_, h'⟩ <;> rw [h'] at h <;> cases h
    have : slotsTo s.cfg.cap s.rb.readIdx w ≠ 0 := fun h0 => hgd.2 ((slotsTo_eq_zero hg.read_lt hgd.1).1 h0)
    simp only [drainLeft, hw, State.setDrain_drain, State.setDrain_cfg, State.setDrain_rb]
    omega
  · rename_i w v hw
    rw [hw] at hgd
    rcases drainC2_cases w v s with ⟨h', _⟩ | ⟨e, h'⟩ <;> rw [h'] at h <;> cases h
    have hinc := slotsTo_inc hg.read_lt hgd.1 hgd.2
    have hlt : inc s.cfg.cap s.rb.readIdx < s.cfg.cap := inc_lt (Nat.lt_of_le_of_lt (Nat.zero_le _) hg.read_lt)
    have hl : drainLeft (popSlot w (deliverTo v s)) = 2 * slotsTo s.cfg.cap (inc s.cfg.cap s.rb.readIdx) w := by
      simp only [drainLeft, popSlot_drain, popSlot_readIdx, (popSlot_frame _ _).cfg, (deliverTo_frame _ _).cfg,
        deliverTo_readIdx]
      by_cases heq : inc s.cfg.cap s.rb.readIdx = w
      · simp [stageAt, heq, (slotsTo_eq_zero (heq ▸ hlt) hgd.1).2]
      · simp [stageAt, heq]
    rw [hl]; simp only [drainLeft, hw]; omega

theorem drainLeft_le {s : State} (hg : DrainGood s) : drainLeft s ≤ 2 * (s.cfg.cap - 1) := by
  have hlt : ∀ w, slotsTo s.cfg.cap s.rb.readIdx w < s.cfg.cap := fun w =>
    slotsTo_lt (Nat.lt_of_le_of_lt (Nat.zero_le _) hg.read_lt)
  unfold drainLeft
  split
  · omega
  · have := hlt ‹_›; omega
  · rename_i w _ _; have := hlt w; omega

/-- A good drain ends without reaching outside the slots: its only fault is an overflow (R53, R128). -/
theorem finishDrain_fault {k : Nat} {s : State} {r : Fault} (h : finishDrain k s = .fault r) (hg : DrainGood s)
    (hk : drainLeft s ≤ k) : ∃ e, r = .deltaOverflow e := by
  induction k generalizing s with
  | zero =>
    simp only [finishDrain] at h
    split at h
    · cases h
    · rename_i hd
      exfalso
      have hgd := hg.drain
      cases hs : s.drain with
      | notDraining => exact hd hs
      | draining w =>
        rw [hs] at hgd
        have : slotsTo s.cfg.cap s.rb.readIdx w ≠ 0 := fun h0 => hgd.2 ((slotsTo_eq_zero hg.read_lt hgd.1).1 h0)
        simp only [drainLeft, hs] at hk; omega
      | holding w v =>
        rw [hs] at hgd
        have : slotsTo s.cfg.cap s.rb.readIdx w ≠ 0 := fun h0 => hgd.2 ((slotsTo_eq_zero hg.read_lt hgd.1).1 h0)
        simp only [drainLeft, hs] at hk; omega
  | succ k ih =>
    simp only [finishDrain] at h
    split at h
    · cases h
    · rename_i hd
      rcases andThen_eq_fault h with h | ⟨u, hu, h⟩
      · exact drainStep_fault h hg.read_lt
      · have := drainStep_left hu hg hd
        exact ih h (drainStep_good hu hg) (by omega)

end Sys2Proof.Machine
end

