-- ==== Sys2Proof/Laws/Tempo.lean ====
section
/-! SUPPORT. What the operations of the TempoEngine do (42_tempo.md). -/

namespace Sys2Proof.Machine

/-! ### The clamp -/

theorem clamp_ge {v lo hi : Int} (h : lo ≤ hi) : lo ≤ clamp v lo hi := by unfold clamp; split <;> [omega; split] <;> omega

theorem clamp_le {v lo hi : Int} (h : lo ≤ hi) : clamp v lo hi ≤ hi := by unfold clamp; split <;> [omega; split] <;> omega

theorem clamp_eq_max_min {v lo hi : Int} (h : lo ≤ hi) : clamp v lo hi = max lo (min hi v) := by
  unfold clamp; split <;> [omega; split] <;> omega

/-! ### T.SETBPM -/

@[simp] theorem setBpm_cfg (v : Int) (s : State) : (setBpm v s).cfg = s.cfg := rfl
@[simp] theorem setBpm_rb (v : Int) (s : State) : (setBpm v s).rb = s.rb := rfl
@[simp] theorem setBpm_isr (v : Int) (s : State) : (setBpm v s).isr = s.isr := rfl
@[simp] theorem setBpm_drain (v : Int) (s : State) : (setBpm v s).drain = s.drain := rfl
@[simp] theorem setBpm_pollRest (v : Int) (s : State) : (setBpm v s).pollRest = s.pollRest := rfl
@[simp] theorem setBpm_enc (v : Int) (s : State) (e : EncIdx) : (setBpm v s).enc e = s.enc e := by cases e <;> rfl
@[simp] theorem setBpm_te (v : Int) (s : State) :
    (setBpm v s).te = { s.te with bpm := clamp v s.cfg.minTempo s.cfg.maxTempo } := rfl
@[simp] theorem setBpm_events (v : Int) (s : State) : (setBpm v s).events = s.events := rfl
@[simp] theorem setBpm_env (v : Int) (s : State) : (setBpm v s).env = s.env := rfl

/-! ### The catch-up loop -/

/-- The `k` alternating edges a clock at `level` emits (R168). -/
def edgesFrom : Bool → Nat → List Event
  | _, 0 => []
  | level, k + 1 => nextEdge level :: edgesFrom (!level) k

/-- The level after `k` edges (R168). -/
def levelAfter : Bool → Nat → Bool
  | level, 0 => level
  | level, k + 1 => levelAfter (!level) k

theorem edgesFrom_length (level : Bool) (k : Nat) : (edgesFrom level k).length = k := by
  induction k generalizing level with
  | zero => rfl
  | succ k ih => simp [edgesFrom, ih]

theorem edgesFrom_eq_map (level : Bool) (k : Nat) :
    edgesFrom level k = (List.range k).map fun j =>
      if level = decide (j % 2 = 0) then Event.clockFalling else Event.clockRising := by
  induction k generalizing level with
  | zero => rfl
  | succ k ih =>
    rw [edgesFrom, ih, List.range_succ_eq_map, List.map_cons, List.map_map]
    have hhead : nextEdge level = if level = decide (0 % 2 = 0) then Event.clockFalling else Event.clockRising := by
      cases level <;> rfl
    rw [hhead]
    congr 1
    apply List.map_congr_left
    intro j _
    rcases Nat.mod_two_eq_zero_or_one j with h | h <;> cases level <;> simp [h, Nat.add_mod]

theorem levelAfter_eq (level : Bool) (k : Nat) : levelAfter level k = if k % 2 = 0 then level else !level := by
  induction k generalizing level with
  | zero => rfl
  | succ k ih =>
    rw [levelAfter, ih]
    rcases Nat.mod_two_eq_zero_or_one k with h | h <;> simp [h, Nat.add_mod]

theorem edgesFrom_append (level : Bool) (j k : Nat) :
    edgesFrom level (j + k) = edgesFrom level j ++ edgesFrom (levelAfter level j) k := by
  induction j generalizing level with
  | zero => simp [edgesFrom, levelAfter]
  | succ j ih => rw [Nat.succ_add, edgesFrom, ih]; rfl

theorem levelAfter_add (level : Bool) (j k : Nat) : levelAfter level (j + k) = levelAfter (levelAfter level j) k := by
  induction j generalizing level with
  | zero => simp [levelAfter]
  | succ j ih => rw [Nat.succ_add, levelAfter, ih]; rfl

/-- While `k` phases fit in the accumulator the loop makes all its `k` rounds (R166). -/
theorem catchUp_full {k : Nat} {spp acc : Rat} (level : Bool) (hs : 0 < spp) (h : (k : Rat) * spp ≤ acc) :
    catchUp k spp level acc = ⟨edgesFrom level k, levelAfter level k, acc - (k : Rat) * spp⟩ := by
  induction k generalizing level acc with
  | zero => simp [catchUp, edgesFrom, levelAfter]
  | succ k ih =>
    push_cast at h
    have hk : (0 : Rat) ≤ (k : Rat) * spp := by positivity
    have h1 : spp ≤ acc := by nlinarith
    have h2 : (k : Rat) * spp ≤ acc - spp := by linarith
    simp only [catchUp, if_pos h1, ih (!level) h2, edgesFrom, levelAfter]
    congr 1
    push_cast; ring

/-- The number of rounds is the number of whole phases (R169). -/
theorem catchUpRounds_spec {acc spp : Rat} (hs : 0 < spp) (ha : 0 ≤ acc) :
    (catchUpRounds acc spp : Rat) * spp ≤ acc ∧ acc < ((catchUpRounds acc spp : Rat) + 1) * spp := by
  have hq : 0 ≤ acc / spp := by positivity
  have hf : (0 : Int) ≤ ⌊acc / spp⌋ := Int.floor_nonneg.2 hq
  have hc : ((catchUpRounds acc spp : Nat) : Rat) = ((⌊acc / spp⌋ : Int) : Rat) := by
    have : ((catchUpRounds acc spp : Nat) : Int) = ⌊acc / spp⌋ := Int.toNat_of_nonneg hf
    exact_mod_cast this
  rw [hc]
  constructor
  · have := Int.floor_le (acc / spp)
    calc ((⌊acc / spp⌋ : Int) : Rat) * spp ≤ acc / spp * spp := by gcongr
      _ = acc := by field_simp
  · have := Int.lt_floor_add_one (acc / spp)
    calc acc = acc / spp * spp := by field_simp
      _ < ((⌊acc / spp⌋ : Int) + 1) * spp := by gcongr

/-- The whole phases in an accumulator are the only number that leaves less than a phase. -/
theorem catchUpRounds_unique {acc spp : Rat} {k : Nat} (hs : 0 < spp) (h1 : (k : Rat) * spp ≤ acc)
    (h2 : acc < ((k : Rat) + 1) * spp) : catchUpRounds acc spp = k := by
  have ha : 0 ≤ acc := le_trans (by positivity) h1
  obtain ⟨g1, g2⟩ := catchUpRounds_spec hs ha
  have e1 : (k : Rat) < (catchUpRounds acc spp : Rat) + 1 := lt_of_mul_lt_mul_right (lt_of_le_of_lt h1 g2) hs.le
  have e2 : (catchUpRounds acc spp : Rat) < (k : Rat) + 1 := lt_of_mul_lt_mul_right (lt_of_le_of_lt g1 h2) hs.le
  have e1' : k < catchUpRounds acc spp + 1 := by exact_mod_cast e1
  have e2' : catchUpRounds acc spp < k + 1 := by exact_mod_cast e2
  omega

/-- T.TICK in software mode, in closed form (R169). -/
theorem clockRun_eq {s : State} {dt : Rat} (hs : 0 < s.spp) (ha : 0 ≤ s.te.acc + dt) :
    clockRun s dt = ⟨edgesFrom s.te.clkLevel (catchUpRounds (s.te.acc + dt) s.spp),
      levelAfter s.te.clkLevel (catchUpRounds (s.te.acc + dt) s.spp),
      s.te.acc + dt - (catchUpRounds (s.te.acc + dt) s.spp : Rat) * s.spp⟩ :=
  catchUp_full _ hs (catchUpRounds_spec hs ha).1

/-- Every edge of the loop is a clock event. -/
theorem catchUp_edges (k : Nat) (spp : Rat) (level : Bool) (acc : Rat) :
    ∀ ev ∈ (catchUp k spp level acc).edges, ev = .clockRising ∨ ev = .clockFalling := by
  induction k generalizing level acc with
  | zero => simp [catchUp]
  | succ k ih =>
    simp only [catchUp]
    split
    · intro ev hev
      rcases List.mem_cons.1 hev with rfl | hev
      · cases level <;> simp [nextEdge]
      · exact ih _ _ ev hev
    · simp

/-! ### T.TICK -/

@[simp] theorem tick_cfg (n : Nat) (s : State) : (tick n s).cfg = s.cfg := by unfold tick; split <;> rfl
@[simp] theorem tick_rb (n : Nat) (s : State) : (tick n s).rb = s.rb := by unfold tick; split <;> rfl
@[simp] theorem tick_isr (n : Nat) (s : State) : (tick n s).isr = s.isr := by unfold tick; split <;> rfl
@[simp] theorem tick_drain (n : Nat) (s : State) : (tick n s).drain = s.drain := by unfold tick; split <;> rfl
@[simp] theorem tick_pollRest (n : Nat) (s : State) : (tick n s).pollRest = s.pollRest := by unfold tick; split <;> rfl
@[simp] theorem tick_enc (n : Nat) (s : State) (e : EncIdx) : (tick n s).enc e = s.enc e := by
  unfold tick; split <;> simp
@[simp] theorem tick_env (n : Nat) (s : State) : (tick n s).env = s.env := by unfold tick; split <;> rfl
@[simp] theorem tick_bpm (n : Nat) (s : State) : (tick n s).te.bpm = s.te.bpm := by unfold tick; split <;> rfl
@[simp] theorem tick_softClk (n : Nat) (s : State) : (tick n s).te.softClk = s.te.softClk := by
  unfold tick; split <;> rfl
@[simp] theorem tick_spp (n : Nat) (s : State) : (tick n s).spp = s.spp := by simp [State.spp]

theorem tick_soft {n : Nat} {s : State} (h : s.te.softClk = true) :
    tick n s = (s.setTe { s.te with
      acc := (clockRun s (secondsOf s.cfg n)).acc
      clkLevel := (clockRun s (secondsOf s.cfg n)).level }).emit (clockRun s (secondsOf s.cfg n)).edges := by
  simp [tick, h]

theorem tick_external {n : Nat} {s : State} (h : s.te.softClk = false) : tick n s = s.setTe { s.te with acc := 0 } := by
  simp [tick, h]

/-- T.TICK appends clock events only. -/
theorem tick_events (n : Nat) (s : State) :
    ∃ evs, (tick n s).events = s.events ++ evs ∧ ∀ ev ∈ evs, ev = .clockRising ∨ ev = .clockFalling := by
  by_cases h : s.te.softClk = true
  · exact ⟨_, by rw [tick_soft h]; rfl, catchUp_edges _ _ _ _⟩
  · exact ⟨[], by rw [tick_external (by simpa using h)]; simp, by simp⟩

theorem secondsOf_nonneg (c : Config) (n : Nat) : 0 ≤ secondsOf c n := by unfold secondsOf; positivity

/-- Immediately after T.TICK the accumulator is below one phase (R58). -/
theorem tick_acc {n : Nat} {s : State} (hs : 0 < s.spp) (ha : 0 ≤ s.te.acc) :
    0 ≤ (tick n s).te.acc ∧ (tick n s).te.acc < s.spp := by
  by_cases h : s.te.softClk = true
  · have ha' : 0 ≤ s.te.acc + secondsOf s.cfg n := add_nonneg ha (secondsOf_nonneg _ _)
    have hspec := catchUpRounds_spec hs ha'
    rw [tick_soft h, clockRun_eq hs ha']
    simp only [State.emit_te, State.setTe_te]
    constructor <;> linarith
  · rw [tick_external (by simpa using h)]
    exact ⟨le_refl _, hs⟩

/-! ### T.EXTEDGE, the taps -/

@[simp] theorem extEdge_cfg (l : Bool) (s : State) : (extEdge l s).cfg = s.cfg := by unfold extEdge; split <;> rfl
@[simp] theorem extEdge_rb (l : Bool) (s : State) : (extEdge l s).rb = s.rb := by unfold extEdge; split <;> rfl
@[simp] theorem extEdge_isr (l : Bool) (s : State) : (extEdge l s).isr = s.isr := by unfold extEdge; split <;> rfl
@[simp] theorem extEdge_drain (l : Bool) (s : State) : (extEdge l s).drain = s.drain := by unfold extEdge; split <;> rfl
@[simp] theorem extEdge_pollRest (l : Bool) (s : State) : (extEdge l s).pollRest = s.pollRest := by
  unfold extEdge; split <;> rfl
@[simp] theorem extEdge_enc (l : Bool) (s : State) (e : EncIdx) : (extEdge l s).enc e = s.enc e := by
  unfold extEdge; split <;> simp
@[simp] theorem extEdge_env (l : Bool) (s : State) : (extEdge l s).env = s.env := by unfold extEdge; split <;> rfl

/-- T.EXTEDGE appends at most one clock event. -/
theorem extEdge_events (l : Bool) (s : State) :
    ∃ evs, (extEdge l s).events = s.events ++ evs ∧ ∀ ev ∈ evs, ev = .clockRising ∨ ev = .clockFalling := by
  unfold extEdge
  split
  · exact ⟨[], by simp, by simp⟩
  · exact ⟨[externalEdge l], rfl, by cases l <;> simp [externalEdge]⟩

/-- ALL T.TAP CAN DO (R174): nothing, the first timestamp, a new interval with its tempo, or the fault of R178. -/
theorem tap_cases (n : Nat) (s : State) :
    (s.te.tapCount = -1 ∧ tap n s = .next s) ∨
    (s.te.tapCount = 0 ∧
      tap n s = .next (s.setTe { s.te with lastTap := secondsOf s.cfg n, tapCount := 1 })) ∨
    (s.te.tapCount ≠ -1 ∧ s.te.tapCount ≠ 0 ∧ s.te.lastTap < secondsOf s.cfg n ∧
      tap n s = .next (setBpm (tempoOfTaps s.cfg (pushTap s.te.tapBuf (secondsOf s.cfg n - s.te.lastTap)))
        (s.setTe { s.te with
          lastTap := secondsOf s.cfg n
          tapBuf := pushTap s.te.tapBuf (secondsOf s.cfg n - s.te.lastTap)
          tapCount := s.te.tapCount + 1 }))) ∨
    (s.te.tapCount ≠ -1 ∧ s.te.tapCount ≠ 0 ∧ secondsOf s.cfg n ≤ s.te.lastTap ∧
      tap n s = .fault (.tapIntervalNotPositive (secondsOf s.cfg n))) := by
  by_cases h1 : s.te.tapCount = -1
  · exact .inl ⟨h1, by simp [tap, h1]⟩
  · by_cases h0 : s.te.tapCount = 0
    · exact .inr (.inl ⟨h0, by simp [tap, h0]⟩)
    · by_cases hd : secondsOf s.cfg n ≤ s.te.lastTap
      · refine .inr (.inr (.inr ⟨h1, h0, hd, ?_⟩))
        have : secondsOf s.cfg n - s.te.lastTap ≤ 0 := by linarith
        simp [tap, h1, h0, this]
      · refine .inr (.inr (.inl ⟨h1, h0, lt_of_not_ge hd, ?_⟩))
        have : ¬ secondsOf s.cfg n - s.te.lastTap ≤ 0 := fun h => hd (by linarith)
        simp [tap, h1, h0, this]

/-- The window after one more duration is the last four durations (R177). -/
theorem pushTap_eq_drop {buf : List Rat} (d : Rat) (h : buf.length ≤ 4) :
    pushTap buf d = (buf ++ [d]).drop (buf.length + 1 - 4) := by
  unfold pushTap tapWindow
  by_cases h4 : buf.length = 4
  · simp only [h4, if_true]; rw [List.drop_append_of_le_length (by omega)]
  · have : buf.length + 1 - 4 = 0 := by omega
    simp [h4, this]

theorem pushTap_length (buf : List Rat) (d : Rat) :
    (pushTap buf d).length = if buf.length = tapWindow then tapWindow else buf.length + 1 := by
  unfold pushTap
  split
  · rename_i h; simp [h, tapWindow]
  · simp

theorem pushTap_pos {buf : List Rat} {d : Rat} (h : ∀ x ∈ buf, 0 < x) (hd : 0 < d) : ∀ x ∈ pushTap buf d, 0 < x := by
  intro x hx
  unfold pushTap at hx
  rcases List.mem_append.1 hx with hx | hx
  · split at hx
    · exact h x (List.mem_of_mem_drop hx)
    · exact h x hx
  · rw [List.mem_singleton] at hx; rwa [hx]

/-! ### What keeps the TempoEngine good -/

/-- The phase is positive at a tempo the configuration allows (R55). -/
theorem spp_pos {s : State} (hc : s.cfg.Constraints) (hb : s.cfg.minTempo ≤ s.te.bpm) : 0 < s.spp := by
  have h1 : (0 : Rat) < (s.te.bpm : Rat) := by
    have := hc.minTempo_ge
    exact_mod_cast (by omega : 0 < s.te.bpm)
  have h2 : (0 : Rat) < (s.cfg.tpb : Rat) := by exact_mod_cast hc.tpb_ge
  unfold State.spp; positivity

theorem Tempo.Good.clamped {c : Config} {t : Tempo} (v : Int) (hc : c.Constraints) (h : t.Good c) :
    ({ t with bpm := clamp v c.minTempo c.maxTempo } : Tempo).Good c :=
  { h with
    bpm_ge := clamp_ge hc.tempo_le
    bpm_le := clamp_le hc.tempo_le }

theorem setBpm_good {v : Int} {s : State} (hc : s.cfg.Constraints) (h : s.te.Good s.cfg) :
    (setBpm v s).te.Good s.cfg := h.clamped v hc

theorem tick_good {n : Nat} {s : State} (hc : s.cfg.Constraints) (h : s.te.Good s.cfg) : (tick n s).te.Good s.cfg := by
  have hacc := @tick_acc n s (spp_pos hc h.bpm_ge) h.acc_nonneg
  by_cases hs : s.te.softClk = true
  · rw [tick_soft hs] at hacc ⊢
    exact { h with acc_nonneg := hacc.1, acc_held := fun hf => absurd hf (by simp [hs]) }
  · rw [tick_external (by simpa using hs)]
    exact { h with acc_nonneg := le_refl _, acc_held := fun _ => rfl }

theorem extEdge_good {l : Bool} {s : State} (h : s.te.Good s.cfg) : (extEdge l s).te.Good s.cfg := by
  unfold extEdge
  split
  · exact h
  · exact { h with }

theorem beginTap_good {s : State} (h : s.te.Good s.cfg) : (beginTap s).te.Good s.cfg :=
  { h with
    tapCount_ge := by simp [beginTap]
    tapBuf_length := by simp [beginTap]
    tapBuf_le := by simp [beginTap]
    tapBuf_pos := by simp [beginTap] }

theorem endTap_good {s : State} (h : s.te.Good s.cfg) : (endTap s).te.Good s.cfg := by
  unfold endTap
  split
  · exact
      { h with
        acc_nonneg := le_refl _
        acc_held := fun _ => rfl
        tapCount_ge := le_refl _
        tapBuf_length := fun hf => absurd hf (by simp) }
  · exact { h with tapCount_ge := le_refl _, tapBuf_length := fun hf => absurd hf (by simp) }

theorem tap_good {n : Nat} {s t : State} (hc : s.cfg.Constraints) (h : s.te.Good s.cfg) (ht : tap n s = .next t) :
    t.te.Good s.cfg := by
  rcases tap_cases n s with ⟨_, h'⟩ | ⟨h0, h'⟩ | ⟨h1, h0, hlt, h'⟩ | ⟨_, _, _, h'⟩ <;> rw [h'] at ht <;> cases ht
  · exact h
  · have hlen := h.tapBuf_length (by omega)
    rw [h0] at hlen
    exact
      { h with
        tapCount_ge := by simp
        tapBuf_length := fun _ => by simpa using hlen
        lastTap_nonneg := secondsOf_nonneg _ _ }
  · have hge := h.tapCount_ge
    have hlen := h.tapBuf_length (by omega)
    have hle := h.tapBuf_le
    have hd : 0 < secondsOf s.cfg n - s.te.lastTap := by linarith
    have key : ({ s.te with
        lastTap := secondsOf s.cfg n
        tapBuf := pushTap s.te.tapBuf (secondsOf s.cfg n - s.te.lastTap)
        tapCount := s.te.tapCount + 1 } : Tempo).Good s.cfg :=
      { h with
        tapCount_ge := by show -1 ≤ s.te.tapCount + 1; omega
        tapBuf_length := fun _ => by
          simp only [pushTap_length]; unfold tapWindow at *; split <;> push_cast <;> omega
        tapBuf_le := by simp only [pushTap_length]; split <;> omega
        tapBuf_pos := pushTap_pos h.tapBuf_pos hd
        lastTap_nonneg := secondsOf_nonneg _ _ }
    exact key.clamped _ hc

end Sys2Proof.Machine
end

