-- ==== Sys2Proof/Laws/Poll.lean ====
section
/-! SUPPORT. The components of a POLL, what POLL has in flight, and the rule that a busy port finishes first
(43_poll.md). -/

namespace Sys2Proof.Machine

/-! ### One component -/

@[simp] theorem wireTempo_cfg (d : Int) (s : State) : (wireTempo d s).cfg = s.cfg := rfl
@[simp] theorem wireTempo_rb (d : Int) (s : State) : (wireTempo d s).rb = s.rb := rfl
@[simp] theorem wireTempo_isr (d : Int) (s : State) : (wireTempo d s).isr = s.isr := rfl
@[simp] theorem wireTempo_drain (d : Int) (s : State) : (wireTempo d s).drain = s.drain := rfl
@[simp] theorem wireTempo_pollRest (d : Int) (s : State) : (wireTempo d s).pollRest = s.pollRest := rfl
@[simp] theorem wireTempo_enc (d : Int) (s : State) (e : EncIdx) : (wireTempo d s).enc e = s.enc e := by cases e <;> rfl
@[simp] theorem wireTempo_events (d : Int) (s : State) : (wireTempo d s).events = s.events := rfl
@[simp] theorem wireTempo_env (d : Int) (s : State) : (wireTempo d s).env = s.env := rfl

/-- ALL A COMPONENT CAN PUT NEXT: the tempo wiring of the delta that an ENC.DRAIN of encoder 0 reports (R193). -/
theorem wiredPart_cases (p : PollPart) (s : State) :
    wiredPart p s = [] ∨
      (p = .encDrain .enc0 ∧ s.enc0.pendingDelta ≠ 0 ∧ wiredPart p s = [.wireTempo s.enc0.pendingDelta]) := by
  cases p with
  | encDrain e =>
    cases e
    · by_cases h : s.enc0.pendingDelta = 0
      · exact .inl (by simp [wiredPart, h])
      · exact .inr ⟨rfl, h, by simp [wiredPart, h]⟩
    · exact .inl rfl
  | _ => exact .inl rfl

@[simp] theorem wiredPart_setPollRest (p : PollPart) (qs : List PollPart) (s : State) :
    wiredPart p (s.setPollRest qs) = wiredPart p s := by
  cases p with
  | encDrain e => cases e <;> rfl
  | _ => rfl

/-- A component operation writes the decoders, the TempoEngine and the event stream only (R197). -/
structure PartFrame (s t : State) : Prop where
  cfg : t.cfg = s.cfg
  rb : t.rb = s.rb
  isr : t.isr = s.isr
  drain : t.drain = s.drain
  pollRest : t.pollRest = s.pollRest
  env : t.env = s.env
  events : s.events <+: t.events

theorem PartFrame.refl (s : State) : PartFrame s s := ⟨rfl, rfl, rfl, rfl, rfl, rfl, List.prefix_rfl⟩

theorem PartFrame.trans {s t u : State} (h : PartFrame s t) (k : PartFrame t u) : PartFrame s u :=
  ⟨k.cfg.trans h.cfg, k.rb.trans h.rb, k.isr.trans h.isr, k.drain.trans h.drain, k.pollRest.trans h.pollRest,
   k.env.trans h.env, h.events.trans k.events⟩

theorem runPart_frame (p : PollPart) (s : State) : PartFrame s (runPart p s) := by
  cases p with
  | encDrain e => constructor <;> simp [runPart]
  | wireTempo d => constructor <;> simp [runPart]
  | encBtn e l => constructor <;> simp [runPart]
  | tick n =>
    obtain ⟨evs, he, _⟩ := tick_events n s
    constructor <;> simp [runPart, he]

theorem runParts_frame (ps : List PollPart) (s : State) : PartFrame s (runParts ps s) := by
  induction ps generalizing s with
  | nil => exact PartFrame.refl s
  | cons p ps ih => exact (runPart_frame p s).trans (ih _)

/-- A clock event is always good. -/
theorem clock_events_good {c : Config} {evs : List Event} (h : ∀ ev ∈ evs, ev = .clockRising ∨ ev = .clockFalling) :
    ∀ ev ∈ evs, ev.Good c := by
  intro ev hev
  rcases h ev hev with rfl | rfl <;> exact trivial

theorem events_good_append {c : Config} {as bs : List Event} (ha : ∀ ev ∈ as, ev.Good c) (hb : ∀ ev ∈ bs, ev.Good c) :
    ∀ ev ∈ as ++ bs, ev.Good c := by
  intro ev hev
  rcases List.mem_append.1 hev with h | h
  · exact ha ev h
  · exact hb ev h

theorem encDrain_good {e : EncIdx} {s : State} (h : ∀ f, (s.enc f).Good s.cfg) :
    ∀ f, ((encDrain e s).enc f).Good s.cfg := by
  intro f
  by_cases hf : f = e
  · subst hf; rw [encDrain_enc_same]; exact Config.delta_zero
  · rw [encDrain_enc_other s hf]; exact h f

theorem encBtn_good {e : EncIdx} {l : Bool} {s : State} (h : ∀ f, (s.enc f).Good s.cfg) :
    ∀ f, ((encBtn e l s).enc f).Good s.cfg := by
  intro f
  have hf := h f
  unfold Encoder.Good at *
  rw [encBtn_delta]; exact hf

theorem wireTempo_good {d : Int} {s : State} (hc : s.cfg.Constraints) (h : s.te.Good s.cfg) :
    (wireTempo d s).te.Good s.cfg :=
  setBpm_good hc h

/-- A component operation keeps the invariant. -/
theorem runPart_inv {p : PollPart} {s : State} (h : State.Good s) : State.Good (runPart p s) := by
  have hc := (Config.wf_iff _).1 h.cfg
  have hf := runPart_frame p s
  refine ⟨by rw [hf.cfg]; exact h.cfg, by rw [hf.cfg, hf.rb]; exact h.rb, by rw [hf.cfg, hf.rb, hf.drain]; exact h.drain,
    ?_, ?_, ?_⟩ <;> rw [hf.cfg]
  · cases p with
    | encDrain e => exact encDrain_good h.enc
    | wireTempo d => simpa [runPart] using h.enc
    | encBtn e l => exact encBtn_good h.enc
    | tick n => simpa [runPart] using h.enc
  · cases p with
    | encDrain e => simpa [runPart] using h.te
    | wireTempo d => exact wireTempo_good hc h.te
    | encBtn e l => simpa [runPart] using h.te
    | tick n => exact tick_good hc h.te
  · cases p with
    | encDrain e =>
      simp only [runPart, encDrain_events]
      exact events_good_append h.events (turnEvents_good (h.enc e))
    | wireTempo d => simpa [runPart] using h.events
    | encBtn e l =>
      simp only [runPart, encBtn_events]
      exact events_good_append h.events buttonEvents_good
    | tick n =>
      obtain ⟨evs, he, hv⟩ := tick_events n s
      simp only [runPart, he]
      exact events_good_append h.events (clock_events_good hv)

theorem runParts_inv {ps : List PollPart} {s : State} (h : State.Good s) : State.Good (runParts ps s) := by
  induction ps generalizing s with
  | nil => exact h
  | cons p ps ih => exact ih (runPart_inv h)

theorem runParts_append (ps qs : List PollPart) (s : State) :
    runParts (ps ++ qs) s = runParts qs (runParts ps s) := by
  induction ps generalizing s with
  | nil => rfl
  | cons p ps ih => exact ih _

/-- What a POLL has still to do does not matter to a component. -/
theorem runPart_setPollRest (p : PollPart) (qs : List PollPart) (s : State) :
    runPart p (s.setPollRest qs) = (runPart p s).setPollRest qs := by
  cases p with
  | encDrain e => cases e <;> rfl
  | wireTempo d => rfl
  | encBtn e l => cases e <;> rfl
  | tick n =>
    by_cases h : s.te.softClk = true
    · simp only [runPart]; rw [tick_soft h, tick_soft (by simpa using h)]; rfl
    · have h' : s.te.softClk = false := by simpa using h
      simp only [runPart]; rw [tick_external h', tick_external (by simpa using h')]; rfl

theorem runParts_setPollRest (ps qs : List PollPart) (s : State) :
    runParts ps (s.setPollRest qs) = (runParts ps s).setPollRest qs := by
  induction ps generalizing s with
  | nil => rfl
  | cons p ps ih => simp only [runParts, runPart_setPollRest, ih]

/-! ### Components with what they put next -/

theorem finishParts_frame (ps : List PollPart) (s : State) : PartFrame s (finishParts ps s) := by
  induction ps generalizing s with
  | nil => exact PartFrame.refl s
  | cons p ps ih => exact ((runPart_frame p s).trans (runParts_frame _ _)).trans (ih _)

theorem finishParts_inv {ps : List PollPart} {s : State} (h : State.Good s) : State.Good (finishParts ps s) := by
  induction ps generalizing s with
  | nil => exact h
  | cons p ps ih => exact ih (runParts_inv (runPart_inv h))

theorem finishParts_append (ps qs : List PollPart) (s : State) :
    finishParts (ps ++ qs) s = finishParts qs (finishParts ps s) := by
  induction ps generalizing s with
  | nil => rfl
  | cons p ps ih => exact ih _

theorem finishParts_setPollRest (ps qs : List PollPart) (s : State) :
    finishParts ps (s.setPollRest qs) = (finishParts ps s).setPollRest qs := by
  induction ps generalizing s with
  | nil => rfl
  | cons p ps ih => simp only [finishParts, wiredPart_setPollRest, runPart_setPollRest, runParts_setPollRest, ih]

/-- What a component puts next puts nothing next itself. -/
theorem finishParts_wiredPart (p : PollPart) (s t : State) :
    finishParts (wiredPart p s) t = runParts (wiredPart p s) t := by
  rcases wiredPart_cases p s with h | ⟨_, _, h⟩ <;> rw [h] <;> rfl

/-- Components one at a time, as micro-steps take them, come to the same end as all at once (R79, R190). -/
theorem finishRest_runPart {p : PollPart} {ps : List PollPart} {s : State} (h : s.pollRest = p :: ps) :
    finishRest (runPart p (s.setPollRest (wiredPart p s ++ ps))) = finishRest s := by
  simp only [finishRest, h, finishParts, (runPart_frame p _).pollRest, State.setPollRest_pollRest, finishParts_append,
    wiredPart_setPollRest, ← runPart_setPollRest, finishParts_wiredPart]
  rfl

/-! ### The operation POLL has in flight -/

@[simp] theorem finishPoll_idle {s : State} (h : s.pollIdle) : finishPoll s = .next s := by
  have hr : s.setPollRest [] = s := by cases s; simp_all [State.pollIdle, State.setPollRest]
  simp [finishPoll, finishDrain_idle h.1, finishRest, h.2, finishParts, hr]

/-- A command of port C, POLL being between operations, is its own effect (R38). -/
@[simp] theorem onPoll_idle {s : State} (f : State → Result) (h : s.pollIdle) : onPoll s f = f s := by
  simp [onPoll, finishPoll_idle h]

theorem finishRest_frame (s : State) : PartFrame (s.setPollRest []) (finishRest s) :=
  finishParts_frame _ _

/-- What POLL's steps write: not the slots, not `writeIdx`, not `ISR.stage` (R87), and the stream only grows. -/
structure PollFrame (s t : State) : Prop where
  cfg : t.cfg = s.cfg
  slots : t.rb.slots = s.rb.slots
  writeIdx : t.rb.writeIdx = s.rb.writeIdx
  isr : t.isr = s.isr
  env : t.env = s.env
  events : s.events <+: t.events

theorem PollFrame.refl (s : State) : PollFrame s s := ⟨rfl, rfl, rfl, rfl, rfl, List.prefix_rfl⟩

theorem PollFrame.trans {s t u : State} (h : PollFrame s t) (k : PollFrame t u) : PollFrame s u :=
  ⟨k.cfg.trans h.cfg, k.slots.trans h.slots, k.writeIdx.trans h.writeIdx, k.isr.trans h.isr, k.env.trans h.env,
   h.events.trans k.events⟩

theorem DrainFrame.poll {s t : State} (h : DrainFrame s t) : PollFrame s t :=
  ⟨h.cfg, h.slots, h.writeIdx, h.isr, h.env, by rw [h.events]⟩

theorem PartFrame.poll {s t : State} (h : PartFrame s t) : PollFrame s t :=
  ⟨h.cfg, by rw [h.rb], by rw [h.rb], h.isr, h.env, h.events⟩

theorem setPollRest_frame (s : State) (ps : List PollPart) : PollFrame s (s.setPollRest ps) :=
  ⟨rfl, rfl, rfl, rfl, rfl, List.prefix_rfl⟩

/-- When what POLL has in flight has ended, POLL is between operations (R38). -/
theorem finishPoll_frame {s t : State} (h : finishPoll s = .next t) : PollFrame s t ∧ t.pollIdle := by
  obtain ⟨u, hu, ht⟩ := andThen_eq_next h
  cases ht
  obtain ⟨hf, hd⟩ := finishDrain_frame hu
  have hr := finishRest_frame u
  exact ⟨(hf.poll.trans (setPollRest_frame u [])).trans hr.poll, by rw [hr.drain]; exact hd, by rw [hr.pollRest]; rfl⟩

theorem finishPoll_ne_refused (s : State) (r : Refusal) : finishPoll s ≠ .refused r := by
  intro h
  rcases andThen_eq_refused h with h | ⟨_, _, h⟩
  · exact finishDrain_ne_refused _ _ _ h
  · cases h

theorem State.Good.drainGood {s : State} (h : State.Good s) : DrainGood s := ⟨h.rb.read_lt, h.drain, h.enc⟩

/-- A state that differs by a drain in what a drain may write is good if the drain left it good. -/
theorem State.Good.of_drain {s t : State} (h : State.Good s) (hf : DrainFrame s t) (hg : DrainGood t) : State.Good t := by
  refine ⟨by rw [hf.cfg]; exact h.cfg, ⟨?_, hg.read_lt, ?_, ?_⟩, hg.drain, hg.enc, ?_, ?_⟩
  · rw [hf.cfg, hf.writeIdx]; exact h.rb.write_lt
  · rw [hf.slots]; exact h.rb.slots_wf
  · rw [hf.cfg, hf.slots]; exact h.rb.slots_lt
  · rw [hf.cfg, hf.te]; exact h.te
  · rw [hf.cfg, hf.events]; exact h.events

theorem State.Good.setPollRest {s : State} (h : State.Good s) (ps : List PollPart) : State.Good (s.setPollRest ps) :=
  ⟨h.cfg, h.rb, h.drain, by simpa using h.enc, h.te, h.events⟩

theorem State.Good.setEnv {s : State} (h : State.Good s) (acts : List Action) : State.Good (s.setEnv acts) :=
  ⟨h.cfg, h.rb, h.drain, by simpa using h.enc, h.te, h.events⟩

theorem finishPoll_inv {s t : State} (h : State.Good s) (ht : finishPoll s = .next t) : State.Good t := by
  obtain ⟨u, hu, ht⟩ := andThen_eq_next ht
  cases ht
  exact finishParts_inv ((h.of_drain (finishDrain_frame hu).1 (finishDrain_good hu h.drainGood)).setPollRest [])

/-- From a good state what POLL has in flight ends, or overflows a decoder (R53). -/
theorem finishPoll_fault {s : State} {r : Fault} (h : State.Good s) (hr : finishPoll s = .fault r) :
    ∃ e, r = .deltaOverflow e := by
  rcases andThen_eq_fault hr with hr | ⟨_, _, hr⟩
  · exact finishDrain_fault hr h.drainGood (le_trans (drainLeft_le h.drainGood) (by omega))
  · cases hr

/-- ALL A COMMAND OF PORT C CAN DO: what is in flight ends and its own effect follows. -/
theorem onPoll_eq_next {s t : State} {f : State → Result} (h : onPoll s f = .next t) :
    ∃ u, finishPoll s = .next u ∧ f u = .next t := andThen_eq_next h

/-! ### C0 and the start of a POLL -/

theorem drainC0_inv {s : State} (h : State.Good s) : State.Good (drainC0 s) :=
  h.of_drain (drainC0_frame s) ⟨h.rb.read_lt, stageAt_good h.rb.write_lt, by simpa using h.enc⟩

theorem startPoll_inv {n : Nat} {b0 b1 : Bool} {s : State} (h : State.Good s) : State.Good (startPoll n b0 b1 s) :=
  drainC0_inv (h.setPollRest _)

theorem startPoll_frame (n : Nat) (b0 b1 : Bool) (s : State) : PollFrame s (startPoll n b0 b1 s) :=
  (setPollRest_frame s _).trans (drainC0_frame _).poll

theorem pollStep_inv {s t : State} (h : State.Good s) (ht : pollStep s = .next t) : State.Good t := by
  unfold pollStep at ht
  split at ht
  · rename_i w hw
    have ht' : drainStep s = .next t := by simpa [drainStep, hw] using ht
    exact h.of_drain (drainStep_frame ht') (drainStep_good ht' h.drainGood)
  · rename_i w v hw
    have ht' : drainStep s = .next t := by simpa [drainStep, hw] using ht
    exact h.of_drain (drainStep_frame ht') (drainStep_good ht' h.drainGood)
  · split at ht
    · cases ht; exact h
    · cases ht; exact runPart_inv (h.setPollRest _)

theorem pollStep_frame {s t : State} (ht : pollStep s = .next t) : PollFrame s t := by
  unfold pollStep at ht
  split at ht
  · rename_i w hw
    have ht' : drainStep s = .next t := by simpa [drainStep, hw] using ht
    exact (drainStep_frame ht').poll
  · rename_i w v hw
    have ht' : drainStep s = .next t := by simpa [drainStep, hw] using ht
    exact (drainStep_frame ht').poll
  · split at ht
    · cases ht; exact PollFrame.refl s
    · cases ht; exact (setPollRest_frame s _).trans (runPart_frame _ _).poll

theorem pollStep_ne_refused (s : State) (r : Refusal) : pollStep s ≠ .refused r := by
  unfold pollStep
  split
  · rename_i w hw
    have := drainStep_ne_refused s r; simpa [drainStep, hw] using this
  · rename_i w v hw
    have := drainStep_ne_refused s r; simpa [drainStep, hw] using this
  · split <;> exact fun h => by cases h

theorem pollStep_fault {s : State} {r : Fault} (h : State.Good s) (hr : pollStep s = .fault r) : ∃ e, r = .deltaOverflow e := by
  unfold pollStep at hr
  split at hr
  · rename_i w hw
    exact drainStep_fault (by simpa [drainStep, hw] using hr) h.rb.read_lt
  · rename_i w v hw
    exact drainStep_fault (by simpa [drainStep, hw] using hr) h.rb.read_lt
  · split at hr <;> cases hr

/-! ### The push in flight -/

/-- What ISR's steps write: the slots, `writeIdx` and `ISR.stage` (R87, R214). -/
structure IsrFrame (s t : State) : Prop where
  cfg : t.cfg = s.cfg
  readIdx : t.rb.readIdx = s.rb.readIdx
  drain : t.drain = s.drain
  pollRest : t.pollRest = s.pollRest
  enc : ∀ e, t.enc e = s.enc e
  te : t.te = s.te
  events : t.events = s.events
  env : t.env = s.env

theorem IsrFrame.refl (s : State) : IsrFrame s s := ⟨rfl, rfl, rfl, rfl, fun _ => rfl, rfl, rfl, rfl⟩

theorem IsrFrame.trans {s t u : State} (h : IsrFrame s t) (k : IsrFrame t u) : IsrFrame s u :=
  ⟨k.cfg.trans h.cfg, k.readIdx.trans h.readIdx, k.drain.trans h.drain, k.pollRest.trans h.pollRest,
   fun e => (k.enc e).trans (h.enc e), k.te.trans h.te, k.events.trans h.events, k.env.trans h.env⟩

theorem endInterrupt_frame (s : State) : IsrFrame s (endInterrupt s) := by
  constructor <;> simp

theorem finishPush_frame (s : State) : IsrFrame s (finishPush s) := by
  unfold finishPush; split
  · exact IsrFrame.refl s
  · exact endInterrupt_frame s

theorem finishPush_isrIdle (s : State) : (finishPush s).isrIdle := by
  unfold finishPush State.isrIdle; split
  · assumption
  · rfl

@[simp] theorem finishPush_idle {s : State} (h : s.isrIdle) : finishPush s = s := by
  unfold finishPush; rw [h]

theorem takeInterrupt_frame {v : Snapshot} {s t : State} (h : takeInterrupt v s = .next t) : IsrFrame s t := by
  rcases takeInterrupt_cases v s with ⟨_, h'⟩ | ⟨_, h'⟩ <;> rw [h'] at h <;> cases h
  constructor <;> simp

theorem endInterrupt_inv {s : State} (h : State.Good s) : State.Good (endInterrupt s) := by
  have hcap : 0 < s.cfg.cap := Nat.lt_of_le_of_lt (Nat.zero_le _) h.rb.read_lt
  exact ⟨h.cfg, ⟨inc_lt hcap, h.rb.read_lt, h.rb.slots_wf, h.rb.slots_lt⟩, h.drain, by simpa using h.enc, h.te, h.events⟩

theorem finishPush_inv {s : State} (h : State.Good s) : State.Good (finishPush s) := by
  unfold finishPush; split
  · exact h
  · exact endInterrupt_inv h

theorem takeInterrupt_inv {v : Snapshot} {s t : State} (h : State.Good s) (ht : takeInterrupt v s = .next t) : State.Good t := by
  rcases takeInterrupt_cases v s with ⟨hw, h'⟩ | ⟨_, h'⟩ <;> rw [h'] at ht <;> cases ht
  refine ⟨h.cfg, ⟨h.rb.write_lt, h.rb.read_lt, Memory.write_wf _ _ _ h.rb.slots_wf, ?_⟩, h.drain, by simpa using h.enc,
    h.te, h.events⟩
  intro c hc
  rcases Memory.mem_write hc with hc | hc
  · exact h.rb.slots_lt c hc
  · rw [hc]; exact hw

/-- From a good state P1 always runs (R138). -/
theorem takeInterrupt_completes {v : Snapshot} {s : State} (h : State.Good s) : ∃ t, takeInterrupt v s = .next t :=
  ⟨_, takeInterrupt_next h.rb.write_lt⟩

end Sys2Proof.Machine
end

