-- ==== Sys2Proof/Laws/Step.lean ====
section
/-! SUPPORT. What a command, a choice of ENV and a step can do. -/

namespace Sys2Proof.Machine

/-! ### Commands -/

/-- The effect of a command of port C on a state in which POLL is between operations; RB.PUSH, which is no command of
port C, is not read from here. -/
def consumerEffect : Instr → State → Result
  | .rbPush _, s => .next s
  | .rbDrain, s => drainRing s
  | .encPins e a b, s => encPins e a b s
  | .encDrain e, s => .next (encDrain e s)
  | .encBtn e l, s => .next (encBtn e l s)
  | .tSetBpm v, s => .next (setBpm v s)
  | .tTick n, s => .next (tick n s)
  | .tExtEdge l, s => .next (extEdge l s)
  | .tBeginTap, s => .next (beginTap s)
  | .tTap n, s => tap n s
  | .tEndTap, s => .next (endTap s)
  | .poll n b0 b1, s => finishPoll (startPoll n b0 b1 s)

/-- Every command of port C is its effect after what POLL has in flight (R95). -/
theorem exec_consumer {i : Instr} (h : i.port = .consumer) (s : State) : exec i s = onPoll s (consumerEffect i) := by
  cases i <;> first | rfl | exact absurd h (by simp [Instr.port, Instr.opcode, Opcode.port])

theorem exec_idle {i : Instr} {s : State} (h : i.port = .consumer) (hs : s.pollIdle) : exec i s = consumerEffect i s := by
  rw [exec_consumer h, onPoll_idle _ hs]

theorem consumerEffect_frame {i : Instr} {s t : State} (h : consumerEffect i s = .next t) : PollFrame s t := by
  cases i with
  | rbPush v => cases h; exact PollFrame.refl s
  | rbDrain => exact ((drainC0_frame s).trans (finishDrain_frame h).1).poll
  | encPins e a b =>
    rw [encPins_eq_next h]
    constructor <;> simp
  | encDrain e => cases h; constructor <;> simp
  | encBtn e l => cases h; constructor <;> simp
  | tSetBpm v => cases h; constructor <;> simp
  | tTick n =>
    cases h
    obtain ⟨evs, he, _⟩ := tick_events n s
    constructor <;> simp [he]
  | tExtEdge l =>
    cases h
    obtain ⟨evs, he, _⟩ := extEdge_events l s
    constructor <;> simp [he]
  | tBeginTap => cases h; exact ⟨rfl, rfl, rfl, rfl, rfl, List.prefix_rfl⟩
  | tTap n =>
    rcases tap_cases n s with ⟨_, h'⟩ | ⟨_, h'⟩ | ⟨_, _, _, h'⟩ | ⟨_, _, _, h'⟩ <;>
      simp only [consumerEffect, h'] at h <;> cases h <;> exact ⟨rfl, rfl, rfl, rfl, rfl, List.prefix_rfl⟩
  | tEndTap => cases h; unfold endTap; split <;> exact ⟨rfl, rfl, rfl, rfl, rfl, List.prefix_rfl⟩
  | poll n b0 b1 => exact (startPoll_frame n b0 b1 s).trans (finishPoll_frame h).1

theorem consumerEffect_inv {i : Instr} {s t : State} (hs : State.Good s) (h : consumerEffect i s = .next t) : State.Good t := by
  have hc := (Config.wf_iff _).1 hs.cfg
  cases i with
  | rbPush v => cases h; exact hs
  | rbDrain =>
    have h0 := drainC0_inv hs
    exact h0.of_drain (finishDrain_frame h).1 (finishDrain_good h h0.drainGood)
  | encPins e a b =>
    have hg := encPins_good h hs.enc
    have ht := encPins_eq_next h
    subst ht
    exact ⟨by simpa using hs.cfg, by simpa using hs.rb, by simpa using hs.drain, hg, by simpa using hs.te,
      by simpa using hs.events⟩
  | encDrain e =>
    cases h
    have hg := @encDrain_good e s hs.enc
    exact ⟨by simpa using hs.cfg, by simpa using hs.rb, by simpa using hs.drain, by simpa using hg, by simpa using hs.te,
      by simpa using events_good_append hs.events (turnEvents_good (hs.enc e))⟩
  | encBtn e l =>
    cases h
    have hg := @encBtn_good e l s hs.enc
    exact ⟨by simpa using hs.cfg, by simpa using hs.rb, by simpa using hs.drain, by simpa using hg, by simpa using hs.te,
      by simpa using events_good_append hs.events buttonEvents_good⟩
  | tSetBpm v =>
    cases h
    have hg := @setBpm_good v s hc hs.te
    exact ⟨hs.cfg, hs.rb, hs.drain, by simpa using hs.enc, hg, hs.events⟩
  | tTick n => exact Host.Outcome.next.inj h ▸ runPart_inv (p := .tick n) hs
  | tExtEdge l =>
    cases h
    obtain ⟨evs, he, hv⟩ := extEdge_events l s
    exact ⟨by simpa using hs.cfg, by simpa using hs.rb, by simpa using hs.drain, by simpa using hs.enc,
      by simpa using extEdge_good hs.te, by rw [he]; simpa using events_good_append hs.events (clock_events_good hv)⟩
  | tBeginTap =>
    cases h
    have hg := beginTap_good hs.te
    exact ⟨hs.cfg, hs.rb, hs.drain, by simpa [beginTap] using hs.enc, hg, hs.events⟩
  | tTap n =>
    have hg := tap_good hc hs.te h
    rcases tap_cases n s with ⟨_, h'⟩ | ⟨_, h'⟩ | ⟨_, _, _, h'⟩ | ⟨_, _, _, h'⟩ <;>
      simp only [consumerEffect, h'] at h <;> cases h <;>
      exact ⟨hs.cfg, hs.rb, hs.drain, by simpa using hs.enc, hg, hs.events⟩
  | tEndTap =>
    cases h
    have hg := endTap_good hs.te
    unfold endTap at *
    split <;> rename_i h0 <;> simp only [h0, if_true, if_false] at hg <;>
      exact ⟨hs.cfg, hs.rb, hs.drain, by simpa using hs.enc, hg, hs.events⟩
  | poll n b0 b1 => exact finishPoll_inv (startPoll_inv hs) h

theorem consumerEffect_ne_refused (i : Instr) (s : State) (r : Refusal) : consumerEffect i s ≠ .refused r := by
  cases i with
  | rbDrain => exact finishDrain_ne_refused _ _ _
  | encPins e a b =>
    rcases encPins_cases e a b s with ⟨h, _⟩ | h <;> simp [consumerEffect, h]
  | tTap n =>
    rcases tap_cases n s with ⟨_, h⟩ | ⟨_, h⟩ | ⟨_, _, _, h⟩ | ⟨_, _, _, h⟩ <;> simp [consumerEffect, h]
  | poll n b0 b1 => exact finishPoll_ne_refused _ _
  | _ => simp [consumerEffect]

/-- From a good state a command of port C never reaches outside the slots (R53, R73). -/
theorem consumerEffect_fault {i : Instr} {s : State} {r : Fault} (hs : State.Good s) (h : consumerEffect i s = .fault r) :
    (∃ e, r = .deltaOverflow e) ∨ ∃ now, r = .tapIntervalNotPositive now := by
  cases i with
  | rbDrain =>
    have h0 := drainC0_inv hs
    exact .inl (finishDrain_fault h h0.drainGood
      (le_trans (drainLeft_le h0.drainGood) (by simp only [drainC0_cfg]; omega)))
  | encPins e a b =>
    rcases encPins_cases e a b s with ⟨h', _⟩ | h' <;> simp only [consumerEffect, h'] at h <;> cases h
    exact .inl ⟨e, rfl⟩
  | tTap n =>
    rcases tap_cases n s with ⟨_, h'⟩ | ⟨_, h'⟩ | ⟨_, _, _, h'⟩ | ⟨_, _, _, h'⟩ <;>
      simp only [consumerEffect, h'] at h <;> cases h
    exact .inr ⟨_, rfl⟩
  | poll n b0 b1 => exact .inl (finishPoll_fault (startPoll_inv hs) h)
  | _ => simp [consumerEffect] at h

/-! ### A command as one piece -/

theorem execRbPush_eq (v : Snapshot) (s : State) :
    exec (.rbPush v) s = andThen (takeInterrupt v (finishPush s)) fun t => .next (endInterrupt t) := rfl

theorem execRbPush_frame {v : Snapshot} {s t : State} (h : exec (.rbPush v) s = .next t) : IsrFrame s t := by
  obtain ⟨u, hu, ht⟩ := andThen_eq_next h
  cases ht
  exact ((finishPush_frame s).trans (takeInterrupt_frame hu)).trans (endInterrupt_frame u)

theorem instr_port_cases (i : Instr) : (∃ v, i = .rbPush v) ∨ i.port = .consumer := by
  cases i <;> first | exact .inr rfl | exact .inl ⟨_, rfl⟩

theorem exec_consumer_frame {i : Instr} {s t : State} (hi : i.port = .consumer) (h : exec i s = .next t) :
    PollFrame s t := by
  rw [exec_consumer hi] at h
  obtain ⟨u, hu, ht⟩ := onPoll_eq_next h
  exact (finishPoll_frame hu).1.trans (consumerEffect_frame ht)

/-- A command keeps the invariant. -/
theorem exec_inv {i : Instr} {s t : State} (hs : State.Good s) (h : exec i s = .next t) : State.Good t := by
  rcases instr_port_cases i with ⟨v, rfl⟩ | hi
  · obtain ⟨u, hu, ht⟩ := andThen_eq_next h
    cases ht
    exact endInterrupt_inv (takeInterrupt_inv (finishPush_inv hs) hu)
  · rw [exec_consumer hi] at h
    obtain ⟨u, hu, ht⟩ := onPoll_eq_next h
    exact consumerEffect_inv (finishPoll_inv hs hu) ht

/-- What a command can fault with, from a good state. -/
theorem exec_fault {i : Instr} {s : State} {r : Fault} (hs : State.Good s) (h : exec i s = .fault r) :
    (∃ e, r = .deltaOverflow e) ∨ ∃ now, r = .tapIntervalNotPositive now := by
  rcases instr_port_cases i with ⟨v, rfl⟩ | hi
  · rw [execRbPush_eq, takeInterrupt_next (finishPush_inv hs).rb.write_lt] at h
    cases h
  · rw [exec_consumer hi] at h
    rcases andThen_eq_fault h with h | ⟨u, hu, h⟩
    · exact .inl (finishPoll_fault hs h)
    · exact consumerEffect_fault (finishPoll_inv hs hu) h

/-! ### The first micro-step of a command -/

/-- The first micro-step of a command that has no micro-steps is the command. -/
theorem startCommand_cases (i : Instr) (s : State) :
    (∃ v, i = .rbPush v ∧ startCommand i s = takeInterrupt v (finishPush s)) ∨
    (i = .rbDrain ∧ startCommand i s = onPoll s fun t => .next (drainC0 t)) ∨
    (∃ n b0 b1, i = .poll n b0 b1 ∧ startCommand i s = onPoll s fun t => .next (startPoll n b0 b1 t)) ∨
    (i.port = .consumer ∧ startCommand i s = exec i s) := by
  cases i <;> first
    | exact .inl ⟨_, rfl, rfl⟩
    | exact .inr (.inl ⟨rfl, rfl⟩)
    | exact .inr (.inr (.inl ⟨_, _, _, rfl, rfl⟩))
    | exact .inr (.inr (.inr ⟨rfl, rfl⟩))

theorem startCommand_inv {i : Instr} {s t : State} (hs : State.Good s) (h : startCommand i s = .next t) : State.Good t := by
  rcases startCommand_cases i s with ⟨v, _, e⟩ | ⟨_, e⟩ | ⟨n, b0, b1, _, e⟩ | ⟨_, e⟩ <;> rw [e] at h
  · exact takeInterrupt_inv (finishPush_inv hs) h
  · obtain ⟨u, hu, ht⟩ := onPoll_eq_next h
    cases ht; exact drainC0_inv (finishPoll_inv hs hu)
  · obtain ⟨u, hu, ht⟩ := onPoll_eq_next h
    cases ht; exact startPoll_inv (finishPoll_inv hs hu)
  · exact exec_inv hs h

theorem startCommand_consumer_frame {i : Instr} {s t : State} (hi : i.port = .consumer)
    (h : startCommand i s = .next t) : PollFrame s t := by
  rcases startCommand_cases i s with ⟨v, rfl, _⟩ | ⟨_, e⟩ | ⟨n, b0, b1, _, e⟩ | ⟨_, e⟩
  · cases hi
  · rw [e] at h
    obtain ⟨u, hu, ht⟩ := onPoll_eq_next h
    cases ht; exact (finishPoll_frame hu).1.trans (drainC0_frame u).poll
  · rw [e] at h
    obtain ⟨u, hu, ht⟩ := onPoll_eq_next h
    cases ht; exact (finishPoll_frame hu).1.trans (startPoll_frame n b0 b1 u)
  · rw [e] at h; exact exec_consumer_frame hi h

theorem startCommand_fault {i : Instr} {s : State} {r : Fault} (hs : State.Good s) (h : startCommand i s = .fault r) :
    (∃ e, r = .deltaOverflow e) ∨ ∃ now, r = .tapIntervalNotPositive now := by
  rcases startCommand_cases i s with ⟨v, _, e⟩ | ⟨_, e⟩ | ⟨n, b0, b1, _, e⟩ | ⟨_, e⟩ <;> rw [e] at h
  · rw [takeInterrupt_next (finishPush_inv hs).rb.write_lt] at h; cases h
  · rcases andThen_eq_fault h with h | ⟨u, _, h⟩
    · exact .inl (finishPoll_fault hs h)
    · cases h
  · rcases andThen_eq_fault h with h | ⟨u, _, h⟩
    · exact .inl (finishPoll_fault hs h)
    · cases h
  · exact exec_fault hs h

/-! ### Taking a command, and the step -/

/-- A command that is taken decodes at its port (R115). -/
theorem takeCommand_eq_next {p : Port} {w : Word} {f : Instr → Result} {t : State} (h : takeCommand p w f = .next t) :
    ∃ i, decodeAt p w = .ok i ∧ f i = .next t := by
  unfold takeCommand at h
  split at h
  · exact ⟨_, by assumption, h⟩
  · cases h

theorem takeCommand_eq_fault {p : Port} {w : Word} {f : Instr → Result} {r : Fault} (h : takeCommand p w f = .fault r) :
    ∃ i, decodeAt p w = .ok i ∧ f i = .fault r := by
  unfold takeCommand at h
  split at h
  · exact ⟨_, by assumption, h⟩
  · cases h

theorem takeCommand_ok {p : Port} {w : Word} {i : Instr} (f : Instr → Result) (h : decodeAt p w = .ok i) :
    takeCommand p w f = f i := by simp [takeCommand, h]

theorem takeCommand_error {p : Port} {w : Word} {err : DecodeError} (f : Instr → Result) (h : decodeAt p w = .error err) :
    takeCommand p w f = .refused (refusalOf err) := by simp [takeCommand, h]

/-- A step of a well-formed block carries out ENV's choice (R20). -/
theorem step_wf {s : State} (h : s.cfg.wf = true) : step s = envStep s := by
  simp [step, Config.wf_violated h]

theorem step_eq_next {s t : State} (h : step s = .next t) : s.cfg.wf = true ∧ envStep s = .next t := by
  unfold step at h
  split at h
  · cases h
  · rename_i hv; exact ⟨by simp [Config.wf, hv], h⟩

theorem envStep_cons {s : State} {act : Action} {rest : List Action} (h : s.env = act :: rest) :
    envStep s = runAction act (s.setEnv rest) := by simp [envStep, h]

/-- ALL A STEP CAN DO from a state whose list is empty: P2 of a push in flight, else POLL's next micro-step. -/
theorem idleStep_cases (s : State) :
    (s.isr = .wrote ∧ idleStep s = .next (endInterrupt s)) ∨ (s.isr = .idle ∧ idleStep s = pollStep s) := by
  unfold idleStep; cases h : s.isr
  · exact .inr ⟨rfl, rfl⟩
  · exact .inl ⟨rfl, rfl⟩

end Sys2Proof.Machine
end

