-- ==== Sys2Proof/Machine/Trace.lean ====
section
/-! DEFINITION. The trace syntax of R112 (the "assembler") and the pseudo-instructions of R113 and R114, as ENV's
choices. Text is a list of characters. -/

namespace Sys2Proof.Machine

/-- A line of a trace: a command with or without a port in front (R112), a micro-step (R112), or a
pseudo-instruction (R113, R114). -/
inductive TraceLine where
  | command (p : Option Port) (i : Instr)
  | microP1 (v : Snapshot)
  | microP2
  | microC0
  | microC1
  | microC2
  | detPlus (e : EncIdx)
  | detMinus (e : EncIdx)
  | phases (k : Nat)
  deriving DecidableEq, Repr

/-- The positive detent of an encoder, the other at rest and `s[7:4] = 0` (R113). -/
def detPlusPushes : EncIdx → List Instr
  | .enc0 => [.rbPush 0x0D, .rbPush 0x0C, .rbPush 0x0E, .rbPush 0x0F]
  | .enc1 => [.rbPush 0x07, .rbPush 0x03, .rbPush 0x0B, .rbPush 0x0F]

/-- The negative detent of an encoder (R113). -/
def detMinusPushes : EncIdx → List Instr
  | .enc0 => [.rbPush 0x0E, .rbPush 0x0C, .rbPush 0x0D, .rbPush 0x0F]
  | .enc1 => [.rbPush 0x0B, .rbPush 0x03, .rbPush 0x07, .rbPush 0x0F]

/-- `phases k`: `tick n` with `n = k * secondsPerPhase * TIME_HZ`, where that is an integer that fits 32 bits
(R114). -/
def phasesTick (k : Nat) (s : State) : Option Instr :=
  let x := (k : Rat) * s.spp * (s.cfg.timeHz : Rat)
  if x.den = 1 ∧ 0 ≤ x.num ∧ x.num < 2 ^ 32 then some (.tTick x.num.toNat) else none

/-- A command at a port, at its own where none is named; nothing where it has no encoding (U15, U16). -/
def issueOf (p : Option Port) (i : Instr) : Option Action := (assemble i).map fun w => .issue (p.getD i.port) w

/-- The choices of ENV a line stands for. Only `phases k` looks at the state (R114). DESIGN CHOICE (assumption 21): `C0`
starts an RB.DRAIN, `C1` and `C2` are both POLL's next micro-step, and `P2` is ISR's next one. -/
def TraceLine.actions (l : TraceLine) (s : State) : Option (List Action) :=
  match l with
  | .command p i => (issueOf p i).map fun a => [a]
  | .microP1 v => some [.start .producer (encode (.rbPush v))]
  | .microP2 => some [.advance .isr]
  | .microC0 => some [.start .consumer (encode .rbDrain)]
  | .microC1 => some [.advance .poll]
  | .microC2 => some [.advance .poll]
  | .detPlus e => (detPlusPushes e).mapM (issueOf none)
  | .detMinus e => (detMinusPushes e).mapM (issueOf none)
  | .phases k => ((phasesTick k s).bind (issueOf none)).map fun a => [a]

/-! ### Reading a line -/

/-- Drop a comment, which starts with `;` (R112). -/
def dropComment : List Char → List Char
  | [] => []
  | c :: cs => if c = ';' then [] else c :: dropComment cs

/-- The words of a line, separated by spaces. -/
def wordsOf : List Char → List (List Char)
  | [] => []
  | c :: cs =>
    if c = ' ' then [] :: wordsOf cs
    else
      match wordsOf cs with
      | [] => [[c]]
      | w :: ws => (c :: w) :: ws

/-- The value of a digit, decimal or hexadecimal. -/
def digitValue (c : Char) : Option Nat :=
  if '0'.toNat ≤ c.toNat ∧ c.toNat ≤ '9'.toNat then some (c.toNat - '0'.toNat)
  else if 'a'.toNat ≤ c.toNat ∧ c.toNat ≤ 'f'.toNat then some (c.toNat - 'a'.toNat + 10)
  else if 'A'.toNat ≤ c.toNat ∧ c.toNat ≤ 'F'.toNat then some (c.toNat - 'A'.toNat + 10)
  else none

/-- The digits of a numeral in a base, after the value `acc` of those before them. -/
def digitsValue (base : Nat) : Nat → List Char → Option Nat
  | acc, [] => some acc
  | acc, c :: cs =>
    match digitValue c with
    | some d => if d < base then digitsValue base (acc * base + d) cs else none
    | none => none

/-- An unsigned numeral: decimal, or hexadecimal after `0x` (R112). -/
def numeral : List Char → Option Nat
  | [] => none
  | '0' :: 'x' :: c :: cs => digitsValue 16 0 (c :: cs)
  | c :: cs => digitsValue 10 0 (c :: cs)

/-- A numeral with an optional sign (`setbpm -5`); how a sign is written is the model's choice (assumption 21). -/
def signedNumeral : List Char → Option Int
  | '-' :: cs => (numeral cs).map fun n => -(n : Int)
  | cs => (numeral cs).map fun n => (n : Int)

/-- A numeral that is 0 or 1. -/
def bitNumeral (w : List Char) : Option Bool :=
  match numeral w with
  | some 0 => some false
  | some 1 => some true
  | _ => none

/-- A numeral that fits a snapshot. -/
def snapshotNumeral (w : List Char) : Option Snapshot :=
  match numeral w with
  | some n => if n < 256 then some (BitVec.ofNat 8 n) else none
  | none => none

/-- The number of an encoder. -/
def encNumeral (w : List Char) : Option EncIdx := (bitNumeral w).map EncIdx.ofBit

/-- The command a line's words write (R112's table). -/
def commandOf : List (List Char) → Option Instr
  | [['p', 'u', 's', 'h'], v] => (snapshotNumeral v).map .rbPush
  | [['d', 'r', 'a', 'i', 'n']] => some .rbDrain
  | [['p', 'i', 'n', 's'], e, a, b] =>
    (encNumeral e).bind fun e => (bitNumeral a).bind fun a => (bitNumeral b).map fun b => .encPins e a b
  | [['e', 'n', 'c', 'd', 'r', 'a', 'i', 'n'], e] => (encNumeral e).map .encDrain
  | [['b', 't', 'n'], e, l] => (encNumeral e).bind fun e => (bitNumeral l).map fun l => .encBtn e l
  | [['s', 'e', 't', 'b', 'p', 'm'], v] => (signedNumeral v).map .tSetBpm
  | [['t', 'i', 'c', 'k'], n] => (numeral n).map .tTick
  | [['e', 'x', 't', 'e', 'd', 'g', 'e'], l] => (bitNumeral l).map .tExtEdge
  | [['b', 'e', 'g', 'i', 'n', 't', 'a', 'p']] => some .tBeginTap
  | [['t', 'a', 'p'], n] => (numeral n).map .tTap
  | [['e', 'n', 'd', 't', 'a', 'p']] => some .tEndTap
  | [['p', 'o', 'l', 'l'], n, b0, b1] =>
    (numeral n).bind fun n => (bitNumeral b0).bind fun b0 => (bitNumeral b1).map fun b1 => .poll n b0 b1
  | _ => none

/-- A line without a port in front: a micro-step, a pseudo-instruction, or a command (R112 to R114). -/
def plainLine (p : Option Port) : List (List Char) → Option TraceLine
  | [['P', '1'], v] => (snapshotNumeral v).map .microP1
  | [['P', '2']] => some .microP2
  | [['C', '0']] => some .microC0
  | [['C', '1']] => some .microC1
  | [['C', '2']] => some .microC2
  | [['d', 'e', 't', '+'], e] => (encNumeral e).map .detPlus
  | [['d', 'e', 't', '-'], e] => (encNumeral e).map .detMinus
  | [['p', 'h', 'a', 's', 'e', 's'], k] => (numeral k).map .phases
  | ws => (commandOf ws).map fun i => .command p i

/-- A line of text: `P:` or `C:` in front names the port (R112). DESIGN CHOICE (assumption 21): R112 says "a line may be
prefixed" and not which lines; the prefix is read in front of a command only, as the first two characters of the line,
and a micro-step or a pseudo-instruction behind one is no line. -/
def readLine (text : List Char) : Option TraceLine :=
  match dropComment text with
  | 'P' :: ':' :: cs => (commandOf ((wordsOf cs).filter fun w => !w.isEmpty)).map fun i => .command (some .producer) i
  | 'C' :: ':' :: cs => (commandOf ((wordsOf cs).filter fun w => !w.isEmpty)).map fun i => .command (some .consumer) i
  | cs => plainLine none ((wordsOf cs).filter fun w => !w.isEmpty)

end Sys2Proof.Machine
end

