-- ==== Sys2Proof/Tests/Slice0.lean ====
section
/-! SUPPORT. Tests: ill-formed terms, written words, one step each against the vectors of spec/95_test_vectors.md
(their ids stand in the names and comments), and a witness for the hypotheses of every statement. -/

namespace Sys2Proof.Tests

open Sys2Proof Sys2Proof.Machine

/-! ### Helpers -/

/-- The outcome is a next state with this property. -/
def next (o : Result) (p : State → Bool) : Bool :=
  match o with
  | .next t => p t
  | .fault _ => false
  | .refused _ => false

/-- The outcome is this fault. -/
def faults (o : Result) (r : Fault) : Bool :=
  match o with
  | .next _ => false
  | .fault q => decide (q = r)
  | .refused _ => false

/-- The outcome is this refusal. -/
def refuses (o : Result) (r : Refusal) : Bool :=
  match o with
  | .next _ => false
  | .fault _ => false
  | .refused q => decide (q = r)

/-- One step from `s` with the table word standing next. -/
def stepWord (w : Nat) (s : State) : Result := step (s.withFetchWord 40 w)

/-- The reset state of REF with these next choices of ENV. -/
def choose (acts : List Action) : State := State.reset.setEnv acts

/-- The reset state of REF with this decoder 0. -/
def withEnc0 (x : Encoder) : State := State.reset.setEnc .enc0 x

/-- The reset state of REF with this TempoEngine state. -/
def withTe (f : Tempo → Tempo) : State := State.reset.setTe (f State.reset.te)

/-- Decoder 0 before the last sample of a positive detent, with this delta. -/
def midDetent (d : Int) : Encoder :=
  { prevA := false, prevB := true, latchedDir := .pos, pendingDelta := d, prevPressed := false }

/-- Decoder 0 before the last sample of a negative detent, with this delta. -/
def midDetentNeg (d : Int) : Encoder :=
  { prevA := true, prevB := false, latchedDir := .neg, pendingDelta := d, prevPressed := false }

/-- The reset state of REF with one snapshot unread. -/
def oneUnread : State := State.reset.setRb { slots := [(0, 0x0D)], writeIdx := 1, readIdx := 0 }

/-- REF with other values of `CAP` and `DELTA_W`. -/
def smallConfig (cap deltaW : Nat) : Config := { Config.ref with cap := cap, deltaW := deltaW }

/-! ### WellFormed: an ill-formed term for each check -/

theorem test_wf_setbpm_above : (Instr.tSetBpm 32768).wf = false := by decide
theorem test_wf_setbpm_below : (Instr.tSetBpm (-32769)).wf = false := by decide
theorem test_wf_tick : (Instr.tTick 4294967296).wf = false := by decide
theorem test_wf_tap : (Instr.tTap 4294967296).wf = false := by decide
theorem test_wf_poll : (Instr.poll 1073741824 true false).wf = false := by decide
theorem test_wf_refused_by_assembler : assemble (.poll 1073741824 true false) = none := by decide
/-- The smallest and largest operands that are well formed. -/
theorem test_wf_bounds :
    (Instr.tSetBpm 32767).wf && (Instr.tSetBpm (-32768)).wf && (Instr.tTick 4294967295).wf &&
      (Instr.tTap 4294967295).wf && (Instr.poll 1073741823 true true).wf = true := by decide

/-! ### Decode and encode: the words of section 2.1 of the vectors -/

theorem test_decode_push : decodeAt .producer 0x1000000FF#36 = .ok (.rbPush 0xFF) := by decide
theorem test_decode_drain : decodeAt .consumer 0x200000000#36 = .ok .rbDrain := by decide
theorem test_decode_pins : decodeAt .consumer 0x300000102#36 = .ok (.encPins .enc1 false true) := by decide
theorem test_decode_pins_a : decodeAt .consumer 0x300000001#36 = .ok (.encPins .enc0 true false) := by decide
theorem test_decode_encdrain : decodeAt .consumer 0x400000100#36 = .ok (.encDrain .enc1) := by decide
theorem test_decode_btn : decodeAt .consumer 0x500000101#36 = .ok (.encBtn .enc1 true) := by decide
theorem test_decode_setbpm : decodeAt .consumer 0x60000FFFB#36 = .ok (.tSetBpm (-5)) := by decide
theorem test_decode_setbpm_least : decodeAt .consumer 0x600008000#36 = .ok (.tSetBpm (-32768)) := by decide
theorem test_decode_tick : decodeAt .consumer 0x7FFFFFFFF#36 = .ok (.tTick 4294967295) := by decide
theorem test_decode_extedge : decodeAt .consumer 0x800000001#36 = .ok (.tExtEdge true) := by decide
theorem test_decode_begintap : decodeAt .consumer 0x900000000#36 = .ok .tBeginTap := by decide
theorem test_decode_tap : decodeAt .consumer 0xA00061A80#36 = .ok (.tTap 400000) := by decide
theorem test_decode_endtap : decodeAt .consumer 0xB00000000#36 = .ok .tEndTap := by decide
theorem test_decode_poll : decodeAt .consumer 0xC0003D093#36 = .ok (.poll 62500 true true) := by decide
theorem test_decode_poll_greatest : decodeAt .consumer 0xCFFFFFFFF#36 = .ok (.poll 1073741823 true true) := by decide

/-- V-DE3, V-DE7, V-DE9, V-DE15, V-DE19. -/
theorem test_decode_reserved_bits :
    decodeAt .producer 0x100000100#36 = .error (.reservedEncoding 0x100000100#36) ∧
    decodeAt .consumer 0x200000001#36 = .error (.reservedEncoding 0x200000001#36) ∧
    decodeAt .consumer 0x300000004#36 = .error (.reservedEncoding 0x300000004#36) ∧
    decodeAt .consumer 0x600010000#36 = .error (.reservedEncoding 0x600010000#36) ∧
    decodeAt .consumer 0x900000001#36 = .error (.reservedEncoding 0x900000001#36) := by decide
/-- V-DE4, V-DE5. -/
theorem test_decode_wrong_port :
    decodeAt .consumer 0x10000000D#36 = .error (.wrongPort .consumer 0x10000000D#36) ∧
    decodeAt .producer 0x200000000#36 = .error (.wrongPort .producer 0x200000000#36) := by decide
/-- V-DE23. -/
theorem test_decode_reserved_opcodes :
    decodeAt .producer 0x000000000#36 = .error (.reservedEncoding 0x000000000#36) ∧
    decodeAt .consumer 0xD00000000#36 = .error (.reservedEncoding 0xD00000000#36) ∧
    decodeAt .producer 0xE00000000#36 = .error (.reservedEncoding 0xE00000000#36) ∧
    decodeAt .consumer 0xF00000000#36 = .error (.reservedEncoding 0xF00000000#36) := by decide
/-- The four bits the table's whole-byte width adds above a word are zero. -/
theorem test_decode_table_word :
    decodeTableWord 40 0xC0003D093 = some (.poll 62500 true true) ∧ decodeTableWord 40 0x1C0003D093 = none := by decide

/-- The words of the programs P1 and P3 of the vectors. -/
theorem test_encode :
    encode (.rbPush 0x0D) = 0x10000000D#36 ∧ encode .rbDrain = 0x200000000#36 ∧
    encode (.encPins .enc1 false true) = 0x300000102#36 ∧ encode (.encDrain .enc0) = 0x400000000#36 ∧
    encode (.encBtn .enc1 true) = 0x500000101#36 ∧ encode (.tSetBpm (-5)) = 0x60000FFFB#36 := by decide
theorem test_encode_times :
    encode (.tTick 250000) = 0x70003D090#36 ∧ encode (.tExtEdge true) = 0x800000001#36 ∧
    encode .tBeginTap = 0x900000000#36 ∧ encode (.tTap 800000) = 0xA000C3500#36 ∧
    encode .tEndTap = 0xB00000000#36 ∧ encode (.poll 62500 false false) = 0xC0003D090#36 := by decide

/-- The event words listed in section 2.1 of the vectors. -/
theorem test_event_words :
    [Event.turn .enc0 1, .turn .enc0 (-1), .turn .enc0 (-128), .turn .enc1 1, .turn .enc1 (-1), .press .enc0,
      .press .enc1, .release .enc0, .release .enc1, .clockRising, .clockFalling].map (Event.word 8) =
    [0x2001#16, 0x20FF#16, 0x2080#16, 0x3001#16, 0x30FF#16, 0x4000#16, 0x5000#16, 0x6000#16, 0x7000#16, 0x8000#16,
      0xA000#16] := by decide

/-- `det+ 1` and `det- 0` (V-EN19, V-PO3), and a line with a port in front and a comment. -/
theorem test_trace_lines :
    readLine ['d', 'e', 't', '+', ' ', '1'] = some (.detPlus .enc1) ∧
    readLine ['P', ':', 'p', 'u', 's', 'h', ' ', '0', 'x', '0', 'D', ' ', ';', ' ', 'a'] =
      some (.command (some .producer) (.rbPush 0x0D)) ∧
    readLine ['s', 'e', 't', 'b', 'p', 'm', ' ', '-', '5'] = some (.command none (.tSetBpm (-5))) ∧
    detPlusPushes .enc1 = [.rbPush 0x07, .rbPush 0x03, .rbPush 0x0B, .rbPush 0x0F] := by decide
/-- `phases 10` is `tick 625000` from reset (V-S3). -/
theorem test_trace_phases : phasesTick 10 State.reset = some (.tTick 625000) := by decide +kernel

/-! ### One step of every command -/

/-- V-RB1. -/
theorem test_push : next (stepWord 0x10000000D State.reset) (fun t =>
    decide (t.rb = { slots := [(0, 0x0D)], writeIdx := 1, readIdx := 0 }) && decide (t.events = [])) = true := by decide
/-- The wrap of V-RB3: a push into slot 7 of 8; a zero snapshot is written like any other. -/
theorem test_push_wraps :
    next (stepWord 0x100000000 (State.reset.setRb { slots := [(7, 0x1F)], writeIdx := 7, readIdx := 0 })) (fun t =>
      decide (t.rb = { slots := [], writeIdx := 0, readIdx := 0 })) = true := by decide

/-- V-RB2: a drain of the empty ring. -/
theorem test_drain_empty : next (stepWord 0x200000000 State.reset) (fun t => decide (t = State.reset)) = true := by
  decide +kernel
/-- The last two snapshots of V-RB5's second drain, through the wrap. -/
theorem test_drain_wraps :
    next (stepWord 0x200000000 (State.reset.setRb { slots := [(0, 0x9F), (1, 0xAF)], writeIdx := 2, readIdx := 0 }))
      (fun t => decide (t.rb.readIdx = 2) && decide (t.drain = .notDraining) && decide (t.enc0 = Encoder.atReset)) =
    true := by decide

/-- V-EN1, the last sample of a positive detent. -/
theorem test_pins_commit : next (stepWord 0x300000003 (withEnc0 (midDetent 0))) (fun t =>
    decide (t.enc0 = { Encoder.atReset with pendingDelta := 1 }) && decide (t.enc1 = Encoder.atReset)) = true := by decide
/-- V-EN23: with `DELTA_W = 2` the second commit faults. -/
theorem test_pins_fault :
    faults (stepWord 0x300000003 ((State.resetWith (smallConfig 8 2)).setEnc .enc0 (midDetent 1)))
      (.deltaOverflow .enc0) = true := by decide

/-- V-EN25: `turn(0,-128)`. -/
theorem test_encdrain : next (stepWord 0x400000000 (withEnc0 { Encoder.atReset with pendingDelta := -128 })) (fun t =>
    decide (t.events = [.turn .enc0 (-128)]) && decide (t.enc0 = Encoder.atReset)) = true := by decide
/-- V-EN17: no event for a zero delta. -/
theorem test_encdrain_zero : next (stepWord 0x400000100 State.reset) (fun t => decide (t.events = [])) = true := by decide

/-- V-EN22, the first command. -/
theorem test_btn : next (stepWord 0x500000101 State.reset) (fun t =>
    decide (t.events = [.press .enc1]) && t.enc1.prevPressed && !t.enc0.prevPressed) = true := by decide
/-- V-EN22, the fourth command: a level that has not changed. -/
theorem test_btn_same : next (stepWord 0x500000000 State.reset) (fun t => decide (t.events = [])) = true := by decide

/-- V-TE4: a negative operand clamps to `MIN_TEMPO`, and `spp = 1/4`. -/
theorem test_setbpm_low : next (stepWord 0x600008000 State.reset) (fun t =>
    decide (t.te.bpm = 30) && decide (t.spp = 1 / 4)) = true := by decide +kernel
/-- V-TE3: 301 clamps to 300. -/
theorem test_setbpm_high : next (stepWord 0x60000012D State.reset) (fun t =>
    decide (t.te.bpm = 300) && decide (t.spp = 1 / 40)) = true := by decide +kernel

/-- V-TE11, the third tick: eight alternating edges from a low clock. -/
theorem test_tick : next (stepWord 0x70007A120 State.reset) (fun t =>
    decide (t.events = [.clockRising, .clockFalling, .clockRising, .clockFalling, .clockRising, .clockFalling,
      .clockRising, .clockFalling]) && decide (t.te.acc = 0) && !t.te.clkLevel) = true := by decide +kernel
/-- V-TE14, the last tick: a raised tempo pays the excess out. -/
theorem test_tick_after_setbpm :
    next (stepWord 0x700000000 (withTe fun x => { x with bpm := 300, acc := 1 / 5 })) (fun t =>
      decide (t.events.length = 8) && decide (t.te.acc = 0)) = true := by decide +kernel

/-- V-TE18, first edge. -/
theorem test_extedge : next (stepWord 0x800000001 (withTe fun x => { x with softClk := false })) (fun t =>
    decide (t.events = [.clockRising]) && t.te.clkLevel) = true := by decide
/-- V-TE15: no effect in software mode. -/
theorem test_extedge_soft : next (stepWord 0x800000001 State.reset) (fun t =>
    decide (t.events = []) && !t.te.clkLevel) = true := by decide

/-- V-TE30, the second `begintap`. -/
theorem test_begintap :
    next (stepWord 0x900000000 (withTe fun x => { x with tapCount := 2, tapBuf := [1 / 2] })) (fun t =>
      decide (t.te.tapCount = 0) && decide (t.te.tapBuf = [])) = true := by decide +kernel

/-- V-TE26, the last tap: the oldest duration leaves the window, and 126.3 rounds down. -/
theorem test_tap :
    next (stepWord 0xA00249F00 (withTe fun x =>
        { x with tapCount := 5, tapBuf := [1 / 2, 1 / 2, 1 / 2, 1 / 2], lastTap := 2 })) (fun t =>
      decide (t.te.tapCount = 6) && decide (t.te.tapBuf = [1 / 2, 1 / 2, 1 / 2, 2 / 5]) &&
      decide (t.te.bpm = 126) && decide (t.te.lastTap = 12 / 5)) = true := by decide +kernel
/-- V-TE31: a tap at the time of the one before it. -/
theorem test_tap_fault :
    faults (stepWord 0xA000003E8 (withTe fun x => { x with tapCount := 1, lastTap := 1 / 1000 }))
      (.tapIntervalNotPositive (1 / 1000)) = true := by decide +kernel

/-- V-TE19, the first toggle. -/
theorem test_endtap_toggles :
    next (stepWord 0xB00000000 (withTe fun x => { x with tapCount := 0, acc := 1 / 25 })) (fun t =>
      !t.te.softClk && decide (t.te.acc = 0) && decide (t.te.tapCount = -1)) = true := by decide +kernel
/-- V-S6: a gesture with one tap does not toggle. -/
theorem test_endtap_one_tap :
    next (stepWord 0xB00000000 (withTe fun x => { x with tapCount := 1 })) (fun t =>
      t.te.softClk && decide (t.te.tapCount = -1)) = true := by decide

/-- V-PO5: one poll over four snapshots that turn both encoders, both buttons pressed, one sixteenth of a second. -/
theorem test_poll :
    next (stepWord 0xC0003D093
        (State.reset.setRb { slots := [(0, 0x05), (2, 0x0A), (3, 0x0F)], writeIdx := 4, readIdx := 0 })) (fun t =>
      decide (t.events.map (Event.word 8) = [0x2001#16, 0x4000#16, 0x3001#16, 0x5000#16, 0x8000#16]) && decide (t.te.bpm = 121) &&
      decide (t.te.acc = 1 / 1936) && decide (t.rb.readIdx = 4)) = true := by decide +kernel
/-- V-PO3: the tempo encoder's step is clamped. -/
theorem test_poll_clamps :
    next (stepWord 0xC00000000 ((withEnc0 { Encoder.atReset with pendingDelta := -1 }).setTe
        { State.reset.te with bpm := 30 })) (fun t =>
      decide (t.te.bpm = 30) && decide (t.events = [.turn .enc0 (-1)])) = true := by decide +kernel

/-- V-RB6, its C0: the bound does not see a push between P1 and P2. -/
theorem test_micro_step_c0 :
    next (step (((State.reset.setRb { slots := [(0, 0x1F)], writeIdx := 0, readIdx := 0 }).setIsr .wrote).setEnv
        [.start .consumer 0x200000000#36])) (fun t =>
      decide (t.drain = .notDraining) && decide (t.rb.readIdx = 0) && decide (t.isr = .wrote)) = true := by decide
/-- P5, step 7: the C1 of a drain that pushes have overtaken reads the newer snapshot. -/
theorem test_micro_step_c1 :
    next (step ((((State.resetWith (smallConfig 4 8)).setRb
        { slots := [(0, 0x5F), (1, 0x2F), (2, 0x3F), (3, 0x4F)], writeIdx := 1, readIdx := 0 }).setDrain
        (.draining 3)).setEnv [.advance .poll])) (fun t => decide (t.drain = .holding 3 0x5F)) = true := by decide

/-- R190, R197: ENC.DRAIN 0 and the T.SETBPM it asks for are two steps, and a push falls between them. -/
theorem test_micro_step_wiring :
    let s := (withEnc0 { Encoder.atReset with pendingDelta := 1 }).setPollRest [.encDrain .enc0, .encBtn .enc0 false]
    next (step (s.setEnv [.advance .poll])) (fun t =>
      decide (t.pollRest = [.wireTempo 1, .encBtn .enc0 false]) && decide (t.te.bpm = 120) &&
        decide (t.events = [.turn .enc0 1])) = true ∧
    next (runActions [.advance .poll, .issue .producer 0x10000000D#36, .advance .poll] s) (fun t =>
      decide (t.pollRest = [.encBtn .enc0 false]) && decide (t.te.bpm = 121) && decide (t.rb.writeIdx = 1)) = true := by
  decide

/-- U8: `CAP = 1` is no configuration. -/
theorem test_bad_config :
    refuses (step (State.resetWith (smallConfig 1 8))) (.badConfiguration .cap) = true := by decide

/-! ### Witnesses: states and operands that meet the hypotheses of each statement -/

theorem encoder_good {c : Config} {x : Encoder} (h : deltaInRange c x.pendingDelta = true) : x.Good c := by
  simpa [deltaInRange, Encoder.Good] using h

/-- The reset state of REF is good, and both agents are between operations in it. -/
theorem witness_good_reset : State.Good State.reset ∧ State.reset.isrIdle ∧ State.reset.pollIdle := by
  refine ⟨⟨by decide, ⟨by decide, by decide, by decide, by decide⟩, trivial, ?_, ?_, fun _ h => by cases h⟩, by decide, by decide⟩
  · intro e; cases e <;> exact encoder_good (by decide)
  · constructor <;> decide +kernel

/-- A good state with one snapshot unread. -/
theorem witness_good_unread : State.Good oneUnread ∧ oneUnread.isrIdle ∧ oneUnread.pollIdle ∧
    oneUnread.unread = [0x0D] := by
  have h := witness_good_reset.1
  exact ⟨⟨h.cfg, ⟨by decide, by decide, by decide, by decide⟩, trivial, h.enc, h.te, h.events⟩, by decide, by decide,
    by decide⟩

/-- A good state in the middle of a drain, an interrupt in progress, and a POLL to finish. -/
def inFlight : State := (((oneUnread.setDrain (.draining 1)).setIsr .wrote).setPollRest [.tick 62500])

theorem witness_good_inFlight : State.Good inFlight ∧ inFlight.unread ≠ [] := by
  have h := witness_good_unread.1
  exact ⟨⟨h.cfg, h.rb, ⟨by decide, by decide⟩, fun e => by cases e; exacts [h.enc .enc0, h.enc .enc1], h.te, h.events⟩, by decide⟩

theorem room_of {c : Config} {k : Nat} {x : Encoder}
    (h : deltaInRange c (x.pendingDelta - k) = true ∧ deltaInRange c (x.pendingDelta + k) = true) : x.hasRoom c k := by
  simp only [deltaInRange, Bool.and_eq_true, decide_eq_true_eq] at h
  exact ⟨h.1.1, h.2.2⟩

/-- DecodeOfEncode, EncodeOfDecode, PlacedWordRunsNext, StepRunsTheDecodedCommand: operands at the edge of their field. -/
theorem witness_encoding :
    (Instr.tSetBpm (-32768)).wf = true ∧ (Instr.poll 1073741823 true false).wf = true ∧
    decodeAt .producer 0x1000000FF#36 = .ok (.rbPush 0xFF) ∧ Config.ref.wf = true ∧
    decodeTableWord 40 0xA00061A80 = some (.tTap 400000) ∧
    (choose [.issue .producer 0x1000000FF#36]).env = .issue .producer 0x1000000FF#36 :: [] := by decide

/-- OpcodeTableDecides: a word that is a row's, one that is not for an operand bit, one that is not for its opcode. -/
theorem witness_OpcodeTableDecides :
    ∃ row ∈ opcodeTable, 0x300000103#36 &&& row.mask = row.pattern ∧ ¬ 0x300000004#36 &&& row.mask = row.pattern ∧
      ¬ 0x400000100#36 &&& row.mask = row.pattern := by decide

/-- ReservedOpcodeIsRefused, for both ways of presenting a word. -/
theorem witness_ReservedOpcodeIsRefused :
    (0xF00000000#36).extractLsb' 32 4 ∈ [0x0#4, 0xD#4, 0xE#4, 0xF#4] ∧ State.reset.cfg.wf = true ∧
    (choose [.issue .producer 0xF00000000#36]).env = .issue .producer 0xF00000000#36 :: [] ∧
    (choose [.start .consumer 0xF00000000#36]).env = .start .consumer 0xF00000000#36 :: [] := by decide

/-- ReservedBitIsRefused: bit 2 of ENC.PINS (V-DE9). -/
theorem witness_ReservedBitIsRefused :
    ∃ row ∈ opcodeTable, (0x300000004#36).extractLsb' 32 4 = row.pattern.extractLsb' 32 4 ∧
      0x300000004#36 &&& row.mask ≠ row.pattern ∧
      (choose [.issue row.port 0x300000004#36]).env = .issue row.port 0x300000004#36 :: [] := by decide

/-- WrongPortIsRefused (V-DE4, V-DE5). -/
theorem witness_WrongPortIsRefused :
    (∃ row ∈ opcodeTable, (0x10000000D#36).extractLsb' 32 4 = row.pattern.extractLsb' 32 4 ∧ row.port ≠ .consumer) ∧
    (∃ row ∈ opcodeTable, (0x200000000#36).extractLsb' 32 4 = row.pattern.extractLsb' 32 4 ∧ row.port ≠ .producer) := by
  decide

/-- BadConfigurationIsRefused: a configuration of each kind, the bad ones at the edge of one constraint each. -/
theorem witness_BadConfigurationIsRefused :
    [Config.ref, smallConfig 1 8, smallConfig 8 1, { Config.ref with minTempo := 0 }, { Config.ref with maxTempo := 29 },
      { Config.ref with maxTempo := 1001 }, { Config.ref with tpb := 0 }, { Config.ref with defaultBpm := 301 },
      { Config.ref with bpmStep := 0 }, { Config.ref with tipb := 0 }, { Config.ref with timeHz := 0 }].map
        Config.violated =
    [none, some .cap, some .deltaW, some .minTempo, some .maxTempo, some .maxTempo, some .tpb, some .defaultBpm,
      some .bpmStep, some .tipb, some .timeHz] := by decide

/-- IndexWidthIsTight, at the least `CAP` and on both sides of a power of two. -/
theorem witness_IndexWidthIsTight :
    2 ≤ (smallConfig 2 8).cap ∧ (smallConfig 2 8).idxW = 1 ∧ (smallConfig 8 8).idxW = 3 ∧ (smallConfig 9 8).idxW = 4 := by
  decide

/-- StatusEncodings: at the least width, `7` falls under both ranges, which agree on it. -/
theorem witness_StatusEncodings :
    tapCountBits 4 (-1) = 0b1111#4 ∧ (tapCountBits 4 7).toInt = 7 ∧ (tapCountBits 4 8).toInt = 7 ∧
    (tapCountBits 4 0).toInt = 0 := by decide

/-- StepKeepsInvariant, EventsOnlyGrow: a step that emits, from a good state. -/
theorem witness_step : State.Good (choose [.issue .consumer 0x500000001#36]) ∧
    next (step (choose [.issue .consumer 0x500000001#36])) (fun t => decide (t.events = [.press .enc0])) = true := by
  have h := witness_good_reset.1
  exact ⟨⟨h.cfg, h.rb, h.drain, fun e => by cases e; exacts [h.enc .enc0, h.enc .enc1], h.te, h.events⟩, by decide⟩

/-- EachElementHasOneWriter: a step of each agent. -/
theorem witness_EachElementHasOneWriter :
    (Action.start .producer 0x10000000D#36).agent = .isr ∧
    next (step (choose [.start .producer 0x10000000D#36])) (fun t => decide (t.isr = .wrote)) = true ∧
    (Action.advance .poll).agent = .poll ∧
    next (step (inFlight.setEnv [.advance .poll])) (fun t => decide (t.drain = .holding 1 0x0D)) = true := by decide

/-- BusyPortFinishesFirst: a drain and a tick in flight that end. -/
theorem witness_BusyPortFinishesFirst :
    Instr.port .tEndTap = .consumer ∧
    next (finishPoll inFlight) (fun t => decide (t.rb.readIdx = 1) && decide (t.events = [.clockRising])) = true := by
  decide +kernel

/-- IdleBlockKeepsItsState. -/
theorem witness_IdleBlockKeepsItsState :
    State.reset.cfg.wf = true ∧ State.reset.env = [] ∧ State.reset.isrIdle ∧ State.reset.pollIdle := by decide

/-- PushStoresAndAdvances, PushMicroSteps (first clause), PushIsP1ThenP2. -/
theorem witness_push :
    State.reset.isrIdle ∧ State.reset.rb.writeIdx < State.reset.cfg.cap ∧ State.reset.rb.slots.wf = true ∧
    State.reset.cfg.wf = true ∧ (choose [.start .producer (encode (.rbPush 0x0D))]).env =
      .start .producer (encode (.rbPush 0x0D)) :: [] := by decide

/-- PushMicroSteps, second clause. -/
theorem witness_PushMicroSteps_p2 :
    inFlight.cfg.wf = true ∧ inFlight.isr = .wrote ∧
      (inFlight.setEnv [.advance .isr]).env = .advance .isr :: [] := by decide

theorem room_unread : ∀ e, (oneUnread.enc e).hasRoom oneUnread.cfg 1 := by
  intro e; cases e <;> exact room_of (by decide)

/-- DrainDeliversTheUnread, DrainIsBoundedMicroSteps. -/
theorem witness_drain :
    oneUnread.pollIdle ∧ oneUnread.rb.writeIdx < oneUnread.cfg.cap ∧ oneUnread.rb.readIdx < oneUnread.cfg.cap ∧
    oneUnread.unread.length = 1 ∧ (∀ e, (oneUnread.enc e).hasRoom oneUnread.cfg 1) ∧
    next (exec .rbDrain oneUnread) (fun t => decide (t.rb.readIdx = 1)) = true :=
  ⟨by decide, by decide, by decide, by decide, room_unread, by decide⟩

/-- DrainMicroSteps, one clause each. -/
theorem witness_DrainMicroSteps_c0 :
    oneUnread.cfg.wf = true ∧ oneUnread.pollIdle ∧ (oneUnread.setEnv [.start .consumer (encode .rbDrain)]).env =
      .start .consumer (encode .rbDrain) :: [] := by decide
theorem witness_DrainMicroSteps_c1 :
    inFlight.drain = .draining 1 ∧ inFlight.rb.readIdx < inFlight.cfg.cap ∧
      (inFlight.setEnv [.advance .poll]).env = .advance .poll :: [] := by decide
theorem witness_DrainMicroSteps_c2 :
    (oneUnread.setDrain (.holding 1 0x0D)).drain = .holding 1 0x0D ∧
    ∀ e, ((oneUnread.setDrain (.holding 1 0x0D)).enc e).hasRoom oneUnread.cfg 1 :=
  ⟨rfl, fun e => by cases e; exacts [room_unread .enc0, room_unread .enc1]⟩

/-- UnreadIsAQueue: both clauses; six unread of seven is the most the first admits with `CAP = 8`. -/
theorem witness_UnreadIsAQueue :
    (State.reset.setRb { slots := [], writeIdx := 6, readIdx := 0 }).unread.length < Config.ref.cap - 1 ∧
    State.Good inFlight ∧ inFlight.drain = .draining 1 ∧ inFlight.unread ≠ [] ∧
    (∀ e, (inFlight.enc e).hasRoom inFlight.cfg 1) :=
  ⟨by decide, witness_good_inFlight.1, by decide, witness_good_inFlight.2, fun e => by cases e; exacts [room_unread .enc0, room_unread .enc1]⟩

/-- DrainAfterPushesDeliversLastLap, for up to seven snapshots over a multiple of `CAP`. -/
theorem witness_DrainAfterPushesDeliversLastLap :
    State.Good State.reset ∧ State.reset.isrIdle ∧ State.reset.pollIdle ∧ State.reset.rb.readIdx = State.reset.rb.writeIdx ∧
    ∀ e, (State.reset.enc e).hasRoom State.reset.cfg 7 :=
  ⟨witness_good_reset.1, by decide, by decide, by decide, fun e => by cases e <;> exact room_of (by decide)⟩

/-- DrainReadsOnlyUnreadSlots: another value in a slot that is not unread. -/
theorem witness_DrainReadsOnlyUnreadSlots :
    State.Good oneUnread ∧ oneUnread.pollIdle ∧
    (oneUnread.setRb { oneUnread.rb with slots := [(0, 0x0D), (5, 0x7F)] }).unread = oneUnread.unread :=
  ⟨witness_good_unread.1, by decide, by decide⟩

/-- PinsLatchThenCommit: a commit that reaches the end of the range, and a sample that commits nothing; and
CommitOutOfRangeFaults, one step further, both ways. -/
theorem witness_pins :
    (withEnc0 (midDetent 126)).pollIdle ∧ Config.ref.deltaMin ≤ 126 + Dir.pos.toInt ∧
    126 + Dir.pos.toInt ≤ Config.ref.deltaMax ∧ (midDetent 126).commits true true = true ∧
    Encoder.atReset.commits true true = false ∧ Config.ref.deltaMax < (midDetent 127).pendingDelta + 1 ∧
    (midDetentNeg (-128)).pendingDelta - 1 < Config.ref.deltaMin := by decide

/-- DetentCountsOneStep, PartialMovementIsRejected, MissedSampleNeverReverses, RepeatedSampleChangesNothing: a decoder
at rest, with room for a step each way and a stale latch. -/
theorem witness_detent :
    let s := withEnc0 { Encoder.atReset with latchedDir := .neg, pendingDelta := 126 }
    s.pollIdle ∧ (s.enc .enc0).prevA = true ∧ (s.enc .enc0).prevB = true ∧
    (s.enc .enc0).pendingDelta + 1 ≤ s.cfg.deltaMax ∧ s.cfg.deltaMin ≤ (s.enc .enc0).pendingDelta + 1 ∧
    (s.enc .enc0).pendingDelta - 1 ≤ s.cfg.deltaMax ∧ s.cfg.deltaMin ≤ (s.enc .enc0).pendingDelta - 1 := by decide
/-- MissedSampleNeverReverses: the six runs do end in a next state (V-EN7 to V-EN9 and their mirror images). -/
theorem witness_MissedSampleNeverReverses :
    ([[Instr.encPins .enc0 false false, .encPins .enc0 false true, .encPins .enc0 true true],
      [.encPins .enc0 true false, .encPins .enc0 false true, .encPins .enc0 true true],
      [.encPins .enc0 true false, .encPins .enc0 false false, .encPins .enc0 true true],
      [.encPins .enc0 false false, .encPins .enc0 true false, .encPins .enc0 true true],
      [.encPins .enc0 false true, .encPins .enc0 true false, .encPins .enc0 true true],
      [.encPins .enc0 false true, .encPins .enc0 false false, .encPins .enc0 true true]].map fun is =>
        next (runCommands is State.reset) fun t => decide (-1 ≤ t.enc0.pendingDelta)) =
      [true, true, true, true, true, true] := by decide

/-- EncDrainReportsAndClears, ButtonChangeIsReported, SetBpmClamps, ExternalEdgePassesThrough, BeginTapResetsTheGesture,
EndTapEndsTheGesture, OneTapLeavesTheTempo: POLL between operations. -/
theorem witness_pollIdle : State.reset.pollIdle := by decide

/-- EncodersAreIndependent. -/
theorem witness_EncodersAreIndependent :
    EncIdx.enc1 ≠ EncIdx.enc0 ∧ State.reset.pollIdle ∧
    next (exec (.encPins .enc0 true false) State.reset) (fun t => decide (t.enc0.latchedDir = .pos)) = true := by decide

/-- TickEmitsFloorEdges, TickLeavesLessThanAPhase, TickSplitDoesNotMatter: the accumulator empty, and half full. -/
theorem witness_tick_soft :
    State.reset.pollIdle ∧ State.reset.te.softClk = true ∧ 0 < State.reset.spp ∧ State.reset.te.acc = 0 ∧
    0 < (withTe fun x => { x with acc := 1 / 32 }).te.acc ∧
    (withTe fun x => { x with acc := 1 / 32 }).te.acc < (withTe fun x => { x with acc := 1 / 32 }).spp := by decide +kernel

/-- TickInExternalModeDiscards. -/
theorem witness_tick_external :
    (withTe fun x => { x with softClk := false }).pollIdle ∧ (withTe fun x => { x with softClk := false }).te.softClk = false := by
  decide

/-- TapSetsTheTempo: its three clauses, the third with a full window; TapNotLaterFaults: at the very time of the tap
before. -/
theorem witness_tap :
    let s := withTe fun x => { x with tapCount := 5, tapBuf := [1 / 2, 1 / 2, 1 / 2, 1 / 2], lastTap := 2 }
    State.reset.te.tapCount = -1 ∧ (withTe fun x => { x with tapCount := 0 }).te.tapCount = 0 ∧
    1 ≤ s.te.tapCount ∧ s.te.tapBuf.length ≤ 4 ∧ s.te.lastTap < (2400000 : Rat) / (s.cfg.timeHz : Rat) ∧
    (2000000 : Rat) / (s.cfg.timeHz : Rat) ≤ s.te.lastTap ∧ s.pollIdle := by decide +kernel

/-- LastTapIsReadOnlyInAGesture: at either count, and a first tap that runs. -/
theorem witness_LastTapIsReadOnlyInAGesture :
    State.reset.pollIdle ∧ State.reset.te.tapCount = -1 ∧ (withTe fun x => { x with tapCount := 0 }).te.tapCount = 0 ∧
    next (exec (.tTap 5) (withTe fun x => { x with tapCount := 0 })) (fun t => decide (t.te.tapCount = 1)) = true := by
  decide

/-- OnlyTapCommandsChangeTheModes: a command that changes both. -/
theorem witness_OnlyTapCommandsChangeTheModes :
    next (exec .tEndTap (withTe fun x => { x with tapCount := 0 })) (fun t =>
      decide (t.te.softClk ≠ State.reset.te.softClk) && decide (t.te.tapCount ≠ 0)) = true := by decide

/-- SteadyTapsSetTheTempo: one interval of one unit. -/
theorem witness_SteadyTapsSetTheTempo : Config.ref.wf = true ∧ State.reset.pollIdle ∧ 0 < 1 ∧ 1 ≤ 1 := by decide

/-- PollNeverOverflows: REF, and the greatest `CAP` that `DELTA_W = 2` admits. -/
theorem witness_PollNeverOverflows :
    State.Good State.reset ∧ State.reset.pollIdle ∧ (∀ e, (State.reset.enc e).pendingDelta = 0) ∧
    1 + (State.reset.cfg.cap - 2) / 3 ≤ 2 ^ (State.reset.cfg.deltaW - 1) - 1 ∧
    1 + ((smallConfig 4 2).cap - 2) / 3 ≤ 2 ^ ((smallConfig 4 2).deltaW - 1) - 1 :=
  ⟨witness_good_reset.1, by decide, fun e => by cases e <;> rfl, by decide, by decide⟩

/-- PushCommutesWithPollParts: the tempo wiring among the components, and a push that runs. -/
theorem witness_PushCommutesWithPollParts :
    next (exec (.rbPush 0x0D) (runPart (.wireTempo 1) State.reset)) (fun t =>
      decide (t.te.bpm = 121) && decide (t.rb.writeIdx = 1)) = true := by decide

/-- PollIsItsMicroSteps: a POLL that ends, from a good state with a snapshot unread. -/
theorem witness_PollIsItsMicroSteps :
    State.Good oneUnread ∧ oneUnread.pollIdle ∧ 62500 < 2 ^ 30 ∧
    next (exec (.poll 62500 true false) oneUnread) (fun t => decide (t.rb.readIdx = 1)) = true :=
  ⟨witness_good_unread.1, witness_good_unread.2.2.1, by decide, by decide +kernel⟩

end Sys2Proof.Tests
end

section
/-! SUPPORT. The constraints on a configuration as one conjunction, the derived index width (R6) and `ROUND` (R16). -/

namespace Sys2Proof

/-- The named constraints of R5 to R17, written out as one conjunction. -/
theorem Config.constraints_iff (c : Config) : c.Constraints ↔
    2 ≤ c.cap ∧ 2 ≤ c.deltaW ∧ 1 ≤ c.minTempo ∧ c.minTempo ≤ c.maxTempo ∧ c.maxTempo ≤ 1000 ∧ 1 ≤ c.tpb ∧
      c.minTempo ≤ c.defaultBpm ∧ c.defaultBpm ≤ c.maxTempo ∧ 1 ≤ c.bpmStep ∧ 1 ≤ c.tipb ∧ 1 ≤ c.timeHz :=
  ⟨fun ⟨h1, h2, h3, h4, h5, h6, h7, h8, h9, h10, h11⟩ => ⟨h1, h2, h3, h4, h5, h6, h7, h8, h9, h10, h11⟩,
   fun ⟨h1, h2, h3, h4, h5, h6, h7, h8, h9, h10, h11⟩ => ⟨h1, h2, h3, h4, h5, h6, h7, h8, h9, h10, h11⟩⟩

/-! ### The width of an index -/

theorem Config.cap_le_two_pow_idxW (c : Config) : c.cap ≤ 2 ^ c.idxW := by
  have h : c.cap - 1 < 2 ^ c.idxW := Nat.lt_log2_self
  omega

theorem Config.two_pow_idxW_pred_lt_cap {c : Config} (h : 2 ≤ c.cap) : 2 ^ (c.idxW - 1) < c.cap := by
  have hle : 2 ^ (c.idxW - 1) ≤ c.cap - 1 := Nat.log2_self_le (by omega)
  omega

/-- Settles O11: `IDX_W - 1` is the base-two logarithm of `CAP - 1`, which lies between two powers of two. -/
theorem indexWidthIsTight : Obligations.IndexWidthIsTight := by
  unfold Obligations.IndexWidthIsTight
  exact fun c h => ⟨c.cap_le_two_pow_idxW, Config.two_pow_idxW_pred_lt_cap h⟩

/-! ### The rounding -/

theorem Rounding.down_apply (x : Rat) : Rounding.down.apply x = ⌊x⌋ := rfl

theorem Rounding.up_apply (x : Rat) : Rounding.up.apply x = ⌈x⌉ := Rat.ceil_eq_neg_floor_neg x

/-- Away from the integers the free rounding is one of the two others, whichever `freeRoundUp` picks. -/
theorem Rounding.unspecified_apply (x : Rat) :
    Rounding.unspecified.apply x =
      if x.den = 1 then x.num else if freeRoundUp x then Rounding.up.apply x else Rounding.down.apply x := rfl

theorem Rounding.apply_intCast (r : Rounding) (n : Int) : r.apply (n : Rat) = n := by
  cases r with
  | down => rw [Rounding.down_apply, Int.floor_intCast]
  | up => rw [Rounding.up_apply, Int.ceil_intCast]
  | unspecified => rw [Rounding.unspecified_apply, if_pos (Rat.den_intCast n), Rat.num_intCast]

theorem Rounding.apply_eq_floor_or_ceil (r : Rounding) (x : Rat) : r.apply x = ⌊x⌋ ∨ r.apply x = ⌈x⌉ := by
  cases r with
  | down => exact .inl (Rounding.down_apply x)
  | up => exact .inr (Rounding.up_apply x)
  | unspecified =>
    by_cases hx : x.den = 1
    · have hn : (x.num : Rat) = x := (Rat.den_eq_one_iff x).1 hx
      rw [← hn, Rounding.apply_intCast, Int.floor_intCast]
      exact .inl rfl
    · rw [Rounding.unspecified_apply, if_neg hx]
      split
      · exact .inr (Rounding.up_apply x)
      · exact .inl (Rounding.down_apply x)

/-- Settles O52: by the three choices of `ROUND`; the free one is the integer itself at an integer. -/
theorem roundIsFloorOrCeiling : Obligations.RoundIsFloorOrCeiling := by
  unfold Obligations.RoundIsFloorOrCeiling
  exact ⟨Rounding.apply_eq_floor_or_ceil, Rounding.apply_intCast, Rounding.down_apply⟩

end Sys2Proof
end

section
/-! SUPPORT. Which refusals a step can answer (R202), and what it writes, by the agent that makes it (R87). -/

namespace Sys2Proof.Machine

/-! ### Refusals -/

theorem andThen_ne_refused {o : Result} {f : State → Result} {r : Refusal} (ho : o ≠ .refused r)
    (hf : ∀ u, f u ≠ .refused r) : andThen o f ≠ .refused r := by
  intro h
  rcases andThen_eq_refused h with h | ⟨u, _, h⟩
  · exact ho h
  · exact hf u h

theorem onPoll_ne_refused {f : State → Result} {r : Refusal} (s : State) (hf : ∀ u, f u ≠ .refused r) :
    onPoll s f ≠ .refused r := andThen_ne_refused (finishPoll_ne_refused s r) hf

theorem takeInterrupt_ne_refused (v : Snapshot) (s : State) (r : Refusal) : takeInterrupt v s ≠ .refused r := by
  rcases takeInterrupt_cases v s with ⟨_, h⟩ | ⟨_, h⟩ <;> rw [h] <;> exact nofun

/-- Every command has a meaning (R138). -/
theorem exec_ne_refused (i : Instr) (s : State) (r : Refusal) : exec i s ≠ .refused r := by
  rcases instr_port_cases i with ⟨v, rfl⟩ | hi
  · rw [execRbPush_eq]
    exact andThen_ne_refused (takeInterrupt_ne_refused v _ r) fun _ => nofun
  · rw [exec_consumer hi]
    exact onPoll_ne_refused s fun u => consumerEffect_ne_refused i u r

theorem startCommand_ne_refused (i : Instr) (s : State) (r : Refusal) : startCommand i s ≠ .refused r := by
  rcases startCommand_cases i s with ⟨v, _, e⟩ | ⟨_, e⟩ | ⟨n, b0, b1, _, e⟩ | ⟨_, e⟩ <;> rw [e]
  · exact takeInterrupt_ne_refused v _ r
  · exact onPoll_ne_refused s fun _ => nofun
  · exact onPoll_ne_refused s fun _ => nofun
  · exact exec_ne_refused i s r

/-- A command whose meaning never refuses is refused by decoding alone (R115). -/
theorem takeCommand_eq_refused {p : Port} {w : Word} {f : Instr → Result} {r : Refusal}
    (hf : ∀ i, f i ≠ .refused r) (h : takeCommand p w f = .refused r) : ∃ err, r = refusalOf err := by
  cases hd : decodeAt p w with
  | ok i =>
    rw [takeCommand_ok f hd] at h
    exact absurd h (hf i)
  | error err =>
    rw [takeCommand_error f hd] at h
    cases h
    exact ⟨err, rfl⟩

theorem runAction_eq_refused {act : Action} {s : State} {r : Refusal} (h : runAction act s = .refused r) :
    ∃ err, r = refusalOf err := by
  cases act with
  | issue p w => exact takeCommand_eq_refused (fun i => exec_ne_refused i s r) h
  | start p w => exact takeCommand_eq_refused (fun i => startCommand_ne_refused i s r) h
  | advance a =>
    cases a with
    | isr => cases h
    | poll => exact absurd h (pollStep_ne_refused s r)

theorem idleStep_ne_refused (s : State) (r : Refusal) : idleStep s ≠ .refused r := by
  rcases idleStep_cases s with ⟨_, h⟩ | ⟨_, h⟩ <;> rw [h]
  · exact nofun
  · exact pollStep_ne_refused s r

theorem envStep_nil {s : State} (h : s.env = []) : envStep s = idleStep s := by simp [envStep, h]

/-- A well-formed block refuses for what stands at a port only. -/
theorem envStep_eq_refused {s : State} {r : Refusal} (h : envStep s = .refused r) : ∃ err, r = refusalOf err := by
  cases he : s.env with
  | nil =>
    rw [envStep_nil he] at h
    exact absurd h (idleStep_ne_refused s r)
  | cons act rest =>
    rw [envStep_cons he] at h
    exact runAction_eq_refused h

theorem refusalOf_ne_badConfiguration (err : DecodeError) (param : ConfigParam) :
    refusalOf err ≠ .badConfiguration param := by cases err <;> exact nofun

theorem step_violated {s : State} {param : ConfigParam} (h : s.cfg.violated = some param) :
    step s = .refused (.badConfiguration param) := by simp [step, h]

/-- The parameter a step names is the one `Config.violated` finds, and no command names one (R20, R207). -/
theorem step_eq_badConfiguration_iff (s : State) (param : ConfigParam) :
    step s = .refused (.badConfiguration param) ↔ s.cfg.violated = some param := by
  refine ⟨fun h => ?_, step_violated⟩
  cases hv : s.cfg.violated with
  | some q =>
    rw [step_violated hv] at h
    cases h
    rfl
  | none =>
    have hw : s.cfg.wf = true := by simp [Config.wf, hv]
    rw [step_wf hw] at h
    obtain ⟨err, herr⟩ := envStep_eq_refused h
    exact absurd herr.symm (refusalOf_ne_badConfiguration err param)

/-- Settles O8: a step names a parameter exactly when one violates its constraint, since no choice of ENV answers
`BadConfiguration`. -/
theorem badConfigurationIsRefused : Obligations.BadConfigurationIsRefused := by
  unfold Obligations.BadConfigurationIsRefused
  intro s
  simp only [step_eq_badConfiguration_iff]
  rw [← Option.ne_none_iff_exists', ne_eq, Config.violated_eq_none_iff, Config.constraints_iff]

/-! ### What a step writes -/

theorem decodeAt_port {p : Port} {w : Word} {i : Instr} (h : decodeAt p w = .ok i) : i.port = p := by
  obtain ⟨op, _, hp, _, rfl⟩ := (decodeAt_eq_ok_iff p w i).1 h
  rw [Instr.port, Opcode.operands_opcode, hp]

/-- What an agent's step writes (R87). -/
def AgentFrame : Agent → State → State → Prop
  | .isr => IsrFrame
  | .poll => PollFrame

theorem exec_frame {i : Instr} {s t : State} (h : exec i s = .next t) : AgentFrame (Port.agent i.port) s t := by
  rcases instr_port_cases i with ⟨v, rfl⟩ | hi
  · exact execRbPush_frame h
  · rw [hi]
    exact exec_consumer_frame hi h

theorem startCommand_frame {i : Instr} {s t : State} (h : startCommand i s = .next t) :
    AgentFrame (Port.agent i.port) s t := by
  rcases instr_port_cases i with ⟨v, rfl⟩ | hi
  · exact (finishPush_frame s).trans (takeInterrupt_frame h)
  · rw [hi]
    exact startCommand_consumer_frame hi h

/-- A choice of ENV writes only what the agent it belongs to may write (R87). -/
theorem runAction_frame {act : Action} {s t : State} (h : runAction act s = .next t) : AgentFrame act.agent s t := by
  cases act with
  | issue p w =>
    obtain ⟨i, hd, hi⟩ := takeCommand_eq_next h
    rw [Action.agent, ← decodeAt_port hd]
    exact exec_frame hi
  | start p w =>
    obtain ⟨i, hd, hi⟩ := takeCommand_eq_next h
    rw [Action.agent, ← decodeAt_port hd]
    exact startCommand_frame hi
  | advance a =>
    cases a with
    | isr =>
      cases h
      exact finishPush_frame s
    | poll => exact pollStep_frame h

theorem idleStep_frame {s t : State} (h : idleStep s = .next t) : ∃ a, AgentFrame a s t := by
  rcases idleStep_cases s with ⟨_, e⟩ | ⟨_, e⟩ <;> rw [e] at h
  · cases h
    exact ⟨.isr, endInterrupt_frame s⟩
  · exact ⟨.poll, pollStep_frame h⟩

theorem AgentFrame.cfg {a : Agent} {s t : State} (h : AgentFrame a s t) : t.cfg = s.cfg := by
  cases a with
  | isr => exact IsrFrame.cfg h
  | poll => exact PollFrame.cfg h

theorem AgentFrame.events {a : Agent} {s t : State} (h : AgentFrame a s t) : s.events <+: t.events := by
  cases a with
  | isr => exact (IsrFrame.events h).symm ▸ List.prefix_rfl
  | poll => exact PollFrame.events h

/-- A step is one agent's, once ENV's choice is off its list. -/
theorem step_frame {s t : State} (h : step s = .next t) : ∃ a, AgentFrame a (s.setEnv s.env.tail) t := by
  obtain ⟨_, ht⟩ := step_eq_next h
  cases he : s.env with
  | nil =>
    rw [envStep_nil he] at ht
    rw [List.tail_nil, ← he, State.setEnv_self]
    exact idleStep_frame ht
  | cons act rest =>
    rw [envStep_cons he] at ht
    exact ⟨act.agent, runAction_frame ht⟩

/-- Settles O17: whichever agent makes the step, what it may write leaves the configuration and only extends the
stream. -/
theorem eventsOnlyGrow : Obligations.EventsOnlyGrow := by
  unfold Obligations.EventsOnlyGrow
  intro s t h
  obtain ⟨a, ha⟩ := step_frame h
  exact ⟨ha.events, ha.cfg⟩

end Sys2Proof.Machine
end

section
/-! SUPPORT. The invariant of the block: reset meets it, every step keeps it, and no step from a good state reaches
outside the slot array (10_state.md). -/

namespace Sys2Proof.Machine

/-! ### Every step keeps the invariant -/

/-- Each of ENV's choices keeps the invariant: a command whole, its first micro-step, or an agent's next one. -/
theorem runAction_inv {act : Action} {s t : State} (hs : State.Good s) (h : runAction act s = .next t) :
    State.Good t := by
  cases act with
  | issue p w =>
    obtain ⟨i, _, hi⟩ := takeCommand_eq_next h
    exact exec_inv hs hi
  | start p w =>
    obtain ⟨i, _, hi⟩ := takeCommand_eq_next h
    exact startCommand_inv hs hi
  | advance a =>
    cases a with
    | isr =>
      cases h
      exact finishPush_inv hs
    | poll => exact pollStep_inv hs h

theorem idleStep_inv {s t : State} (hs : State.Good s) (h : idleStep s = .next t) : State.Good t := by
  rcases idleStep_cases s with ⟨_, e⟩ | ⟨_, e⟩ <;> rw [e] at h
  · cases h
    exact endInterrupt_inv hs
  · exact pollStep_inv hs h

theorem envStep_inv {s t : State} (hs : State.Good s) (h : envStep s = .next t) : State.Good t := by
  cases he : s.env with
  | nil =>
    rw [envStep_nil he] at h
    exact idleStep_inv hs h
  | cons act rest =>
    rw [envStep_cons he] at h
    exact runAction_inv (hs.setEnv rest) h

/-- Settles O16: a step carries out ENV's next choice or, when none is left, goes on with what is in flight, and both
keep the invariant. -/
theorem stepKeepsInvariant : Obligations.StepKeepsInvariant := by
  unfold Obligations.StepKeepsInvariant
  intro s t hs h
  exact envStep_inv hs (step_eq_next h).2

/-! ### The faults a good state can reach -/

/-- The two faults of R202, as against the model's own `slotOutOfRange`. -/
def Fault.ofSpec (r : Fault) : Prop := (∃ e, r = .deltaOverflow e) ∨ ∃ now, r = .tapIntervalNotPositive now

theorem Fault.slotOutOfRange_not_ofSpec (i : Nat) : ¬ (Fault.slotOutOfRange i).ofSpec := by
  rintro (⟨e, h⟩ | ⟨now, h⟩) <;> cases h

theorem runAction_fault {act : Action} {s : State} {r : Fault} (hs : State.Good s) (h : runAction act s = .fault r) :
    r.ofSpec := by
  cases act with
  | issue p w =>
    obtain ⟨i, _, hi⟩ := takeCommand_eq_fault h
    exact exec_fault hs hi
  | start p w =>
    obtain ⟨i, _, hi⟩ := takeCommand_eq_fault h
    exact startCommand_fault hs hi
  | advance a =>
    cases a with
    | isr => cases h
    | poll => exact .inl (pollStep_fault hs h)

theorem idleStep_fault {s : State} {r : Fault} (hs : State.Good s) (h : idleStep s = .fault r) : r.ofSpec := by
  rcases idleStep_cases s with ⟨_, e⟩ | ⟨_, e⟩ <;> rw [e] at h
  · cases h
  · exact .inl (pollStep_fault hs h)

theorem envStep_fault {s : State} {r : Fault} (hs : State.Good s) (h : envStep s = .fault r) : r.ofSpec := by
  cases he : s.env with
  | nil =>
    rw [envStep_nil he] at h
    exact idleStep_fault hs h
  | cons act rest =>
    rw [envStep_cons he] at h
    exact runAction_fault (hs.setEnv rest) h

/-- Settles O22: the indices of a good state are in range, so its steps fault with R202's two faults only. -/
theorem slotAccessStaysInRange : Obligations.SlotAccessStaysInRange := by
  unfold Obligations.SlotAccessStaysInRange
  intro s i hs h
  rw [step_wf hs.cfg] at h
  exact Fault.slotOutOfRange_not_ofSpec i (envStep_fault hs h)

/-! ### The state after reset -/

@[simp] theorem State.resetWith_enc (c : Config) (e : EncIdx) : (State.resetWith c).enc e = Encoder.atReset := by
  cases e <;> rfl

/-- Settles O14: by the fields of `State.resetWith`; both decoders are `Encoder.atReset`. -/
theorem resetState : Obligations.ResetState := by
  unfold Obligations.ResetState
  intro c
  have henc : ∀ e, let x := (State.resetWith c).enc e
      x.prevA = true ∧ x.prevB = true ∧ x.latchedDir = .zero ∧ x.pendingDelta = 0 ∧ x.prevPressed = false := by
    intro e
    rw [State.resetWith_enc]
    exact ⟨rfl, rfl, rfl, rfl, rfl⟩
  exact ⟨rfl, rfl, rfl, rfl, henc, rfl, rfl, rfl, rfl, rfl, rfl, rfl, rfl⟩

theorem Ring.good_resetWith {c : Config} (h : c.Constraints) : (State.resetWith c).rb.Good c := by
  have hcap : 0 < c.cap := Nat.lt_of_lt_of_le Nat.zero_lt_two h.cap_ge
  exact ⟨hcap, hcap, rfl, nofun⟩

theorem Encoder.good_atReset (c : Config) : Encoder.atReset.Good c := Config.delta_zero

theorem Tempo.good_resetWith {c : Config} (h : c.Constraints) : (State.resetWith c).te.Good c where
  bpm_ge := h.default_ge
  bpm_le := h.default_le
  acc_nonneg := le_refl _
  acc_held _ := rfl
  tapCount_ge := le_refl _
  tapBuf_length hf := absurd hf (show ¬ (0 : Int) ≤ -1 by decide)
  tapBuf_le := Nat.zero_le _
  tapBuf_pos := nofun
  lastTap_nonneg := le_refl _

/-- Settles O15: both indices are slots because `CAP` is at least 2, and the default tempo is within its bounds. -/
theorem resetIsGood : Obligations.ResetIsGood := by
  unfold Obligations.ResetIsGood
  intro c hc
  have h := (Config.wf_iff c).1 hc
  refine ⟨hc, Ring.good_resetWith h, trivial, fun e => ?_, Tempo.good_resetWith h, nofun⟩
  rw [State.resetWith_enc]
  exact Encoder.good_atReset c

/-! ### What the next step runs -/

/-- With nothing in flight POLL's next micro-step changes nothing. -/
theorem pollStep_idle {s : State} (h : s.pollIdle) : pollStep s = .next s := by
  obtain ⟨hdrain, hrest⟩ := h
  simp [pollStep, hdrain, hrest]

/-- Settles O23: neither agent has a micro-step to make. -/
theorem idleBlockKeepsItsState : Obligations.IdleBlockKeepsItsState := by
  unfold Obligations.IdleBlockKeepsItsState
  intro s hwf henv hisr hpoll
  rw [step_wf hwf, envStep_nil henv]
  rcases idleStep_cases s with ⟨hw, _⟩ | ⟨_, h⟩
  · exact absurd (hisr.symm.trans hw) nofun
  · rw [h, pollStep_idle hpoll]

/-- A table word that decodes does so at the port at which `tableAction` presents it. -/
theorem decodeAt_of_decodeTableWord {nbits w : Nat} {i : Instr} (h : decodeTableWord nbits w = some i) :
    decodeAt (homePort (BitVec.ofNat 36 (w % 2 ^ nbits))) (BitVec.ofNat 36 (w % 2 ^ nbits)) = .ok i := by
  unfold decodeTableWord at h
  dsimp only at h
  split at h
  · split at h
    · cases h
      assumption
    · cases h
  · cases h

/-- Settles O10: the head of ENV's list is the word at its home port, where it decodes; the rest is `s` itself. -/
theorem placedWordRunsNext : Obligations.PlacedWordRunsNext := by
  unfold Obligations.PlacedWordRunsNext
  intro s nbits w i hwf hd
  have henv : (s.withFetchWord nbits w).env = tableAction nbits w :: s.env := rfl
  have hrest : (s.withFetchWord nbits w).setEnv s.env = s := rfl
  rw [step_wf (s := s.withFetchWord nbits w) hwf, envStep_cons henv, hrest]
  exact takeCommand_ok _ (decodeAt_of_decodeTableWord hd)

end Sys2Proof.Machine
end

section
/-! SUPPORT. The TempoEngine over the whole machine: the bounds of the phase (R55), the accumulator after T.TICK (R58),
and which commands change the clock source and the tap count (R46, R47). -/

namespace Sys2Proof.Machine

/-! ### The phase and the accumulator -/

/-- The phase falls as the tempo rises (R44). -/
theorem phase_antitone {lo hi : Int} {tpb : Nat} (hlo : 1 ≤ lo) (h : lo ≤ hi) (htpb : 1 ≤ tpb) :
    30 / ((hi : Rat) * (tpb : Rat)) ≤ 30 / ((lo : Rat) * (tpb : Rat)) := by
  have hlo' : (0 : Rat) < lo := by exact_mod_cast hlo
  have htpb' : (0 : Rat) < tpb := by exact_mod_cast htpb
  have h' : (lo : Rat) ≤ hi := by exact_mod_cast h
  gcongr

/-- Settles O43: `bpm` lies within its bounds, and the phase falls as `bpm` rises. -/
theorem phaseBounds : Obligations.PhaseBounds := by
  unfold Obligations.PhaseBounds
  intro s hs
  have hc := (Config.wf_iff _).1 hs.cfg
  have hbpm : 1 ≤ s.te.bpm := hc.minTempo_ge.trans hs.te.bpm_ge
  exact ⟨rfl, phase_antitone hbpm hs.te.bpm_le hc.tpb_ge, phase_antitone hc.minTempo_ge hs.te.bpm_ge hc.tpb_ge,
    spp_pos hc hs.te.bpm_ge⟩

/-- Settles O45: what POLL has in flight leaves a good state, and T.TICK from there consumes every whole phase. -/
theorem tickLeavesLessThanAPhase : Obligations.TickLeavesLessThanAPhase := by
  unfold Obligations.TickLeavesLessThanAPhase
  intro n s t hs h
  rw [exec_consumer rfl] at h
  obtain ⟨u, hu, ht⟩ := onPoll_eq_next h
  cases ht
  have hg := finishPoll_inv hs hu
  have hc := (Config.wf_iff _).1 hg.cfg
  rw [tick_spp]
  exact tick_acc (spp_pos hc hg.te.bpm_ge) hg.te.acc_nonneg

/-! ### The clock source and the tap count -/

/-- The clock source and the tap count are as they were (R46, R47). -/
structure KeepsModes (s t : State) : Prop where
  softClk : t.te.softClk = s.te.softClk
  tapCount : t.te.tapCount = s.te.tapCount

theorem KeepsModes.of_te {s t : State} (h : t.te = s.te) : KeepsModes s t := ⟨by rw [h], by rw [h]⟩

theorem KeepsModes.refl (s : State) : KeepsModes s s := ⟨rfl, rfl⟩

theorem KeepsModes.trans {s t u : State} (h : KeepsModes s t) (k : KeepsModes t u) : KeepsModes s u :=
  ⟨k.softClk.trans h.softClk, k.tapCount.trans h.tapCount⟩

theorem tick_keepsModes (n : Nat) (s : State) : KeepsModes s (tick n s) := by
  unfold tick; split <;> exact ⟨rfl, rfl⟩

theorem extEdge_keepsModes (l : Bool) (s : State) : KeepsModes s (extEdge l s) := by
  unfold extEdge; split <;> exact ⟨rfl, rfl⟩

theorem runPart_keepsModes (p : PollPart) (s : State) : KeepsModes s (runPart p s) := by
  cases p with
  | encDrain e => exact .of_te (encDrain_te e s)
  | wireTempo d => exact ⟨rfl, rfl⟩
  | encBtn e l => exact .of_te (encBtn_te e l s)
  | tick n => exact tick_keepsModes n s

theorem runParts_keepsModes (ps : List PollPart) (s : State) : KeepsModes s (runParts ps s) := by
  induction ps generalizing s with
  | nil => exact KeepsModes.refl s
  | cons p ps ih => exact (runPart_keepsModes p s).trans (ih _)

theorem finishParts_keepsModes (ps : List PollPart) (s : State) : KeepsModes s (finishParts ps s) := by
  induction ps generalizing s with
  | nil => exact KeepsModes.refl s
  | cons p ps ih => exact ((runPart_keepsModes p s).trans (runParts_keepsModes _ _)).trans (ih _)

theorem finishRest_keepsModes (s : State) : KeepsModes s (finishRest s) :=
  (KeepsModes.of_te (s.setPollRest_te [])).trans (finishParts_keepsModes s.pollRest (s.setPollRest []))

/-- Nothing POLL can have in flight is a tap command. -/
theorem finishPoll_keepsModes {s t : State} (h : finishPoll s = .next t) : KeepsModes s t := by
  obtain ⟨u, hu, ht⟩ := andThen_eq_next h
  cases ht
  exact (KeepsModes.of_te (finishDrain_frame hu).1.te).trans (finishRest_keepsModes u)

theorem tap_softClk {n : Nat} {s t : State} (h : tap n s = .next t) : t.te.softClk = s.te.softClk := by
  rcases tap_cases n s with ⟨_, e⟩ | ⟨_, e⟩ | ⟨_, _, _, e⟩ | ⟨_, _, _, e⟩ <;> rw [e] at h <;> cases h <;> rfl

theorem endTap_softClk {s : State} (h : s.te.tapCount ≠ 0) : (endTap s).te.softClk = s.te.softClk := by
  simp [endTap, h]

/-- ALL A COMMAND OF PORT C CAN DO to the two modes. -/
theorem consumerEffect_modes {i : Instr} {s t : State} (h : consumerEffect i s = .next t) :
    KeepsModes s t ∨
    (t.te.softClk = s.te.softClk ∧ (i = .tBeginTap ∨ ∃ n, i = .tTap n)) ∨
    (i = .tEndTap ∧ (s.te.tapCount ≠ 0 → t.te.softClk = s.te.softClk)) := by
  cases i with
  | rbPush v => cases h; exact .inl (.refl s)
  | rbDrain => exact .inl (.of_te ((finishDrain_frame h).1.te.trans (drainC0_te s)))
  | encPins e a b => rw [encPins_eq_next h]; exact .inl (.of_te (State.setEnc_te _ _ _))
  | encDrain e => cases h; exact .inl (.of_te (encDrain_te e s))
  | encBtn e l => cases h; exact .inl (.of_te (encBtn_te e l s))
  | tSetBpm v => cases h; exact .inl ⟨rfl, rfl⟩
  | tTick n => cases h; exact .inl (tick_keepsModes n s)
  | tExtEdge l => cases h; exact .inl (extEdge_keepsModes l s)
  | tBeginTap => cases h; exact .inr (.inl ⟨rfl, .inl rfl⟩)
  | tTap n => exact .inr (.inl ⟨tap_softClk h, .inr ⟨n, rfl⟩⟩)
  | tEndTap => cases h; exact .inr (.inr ⟨rfl, endTap_softClk⟩)
  | poll n b0 b1 =>
    have hstart : KeepsModes s (startPoll n b0 b1 s) := ⟨rfl, rfl⟩
    exact .inl (hstart.trans (finishPoll_keepsModes h))

/-- Settles O57: RB.PUSH leaves the TempoEngine, what POLL has in flight leaves both modes, and of the commands of port
C only the three tap commands do not. -/
theorem onlyTapCommandsChangeTheModes : Obligations.OnlyTapCommandsChangeTheModes := by
  unfold Obligations.OnlyTapCommandsChangeTheModes
  intro i s t h
  rcases instr_port_cases i with ⟨v, rfl⟩ | hi
  · have hte := (execRbPush_frame h).te
    exact ⟨fun hne => absurd (by rw [hte]) hne, fun hne => absurd (by rw [hte]) hne⟩
  · rw [exec_consumer hi] at h
    obtain ⟨u, hu, ht⟩ := onPoll_eq_next h
    have hk := finishPoll_keepsModes hu
    rw [← hk.softClk, ← hk.tapCount]
    rcases consumerEffect_modes ht with hm | ⟨hsoft, htap⟩ | ⟨rfl, hsoft⟩
    · exact ⟨fun hne => absurd hm.softClk hne, fun hne => absurd hm.tapCount hne⟩
    · exact ⟨fun hne => absurd hsoft hne, fun _ => htap.imp_right .inl⟩
    · exact ⟨fun hne => ⟨rfl, by_contra fun h0 => hne (hsoft h0)⟩, fun _ => .inr (.inr rfl)⟩

end Sys2Proof.Machine
end

section
/-! SUPPORT. What an operation does not read: a change of the state that it carries through. Used for the slots a drain
does not deliver (R137) and for the timestamp of the last tap outside a gesture (R50). -/

namespace Sys2Proof.Machine

/-! ### A change that an operation carries through -/

/-- The operation does not read what `g` changes: its outcome from `g s` is its outcome from `s`, changed by `g`. -/
def CarriesThrough (g : State → State) (f : State → Result) (s : State) : Prop :=
  f (g s) = andThen (f s) fun t => .next (g t)

theorem carriesThrough_next {g p : State → State} {s : State} (h : p (g s) = g (p s)) :
    CarriesThrough g (fun x => .next (p x)) s := congrArg Host.Outcome.next h

theorem CarriesThrough.andThen {g : State → State} {f k : State → Result} {s : State} (hf : CarriesThrough g f s)
    (hk : ∀ t, f s = .next t → CarriesThrough g k t) : CarriesThrough g (fun x => andThen (f x) k) s := by
  unfold CarriesThrough at hf ⊢
  dsimp only
  rw [hf, andThen_assoc]
  cases h : f s with
  | next t => exact hk t h
  | fault r => rfl
  | refused r => rfl

/-! ### A drain -/

/-- A change of nothing that a drain reads or writes beside the contents of the slots. -/
structure OutsideDrain (g : State → State) : Prop where
  cfg : ∀ s, (g s).cfg = s.cfg
  readIdx : ∀ s, (g s).rb.readIdx = s.rb.readIdx
  drain : ∀ s, (g s).drain = s.drain
  enc : ∀ s e, (g s).enc e = s.enc e
  setEnc : ∀ s e x, (g s).setEnc e x = g (s.setEnc e x)
  setDrain : ∀ s d, (g s).setDrain d = g (s.setDrain d)
  popSlot : ∀ s w, popSlot w (g s) = g (popSlot w s)

section
variable {g : State → State} (hg : OutsideDrain g)
include hg

theorem encPins_carries (e : EncIdx) (a b : Bool) (s : State) : CarriesThrough g (encPins e a b) s := by
  unfold CarriesThrough encPins
  rw [hg.enc, hg.cfg, hg.setEnc]
  split <;> rfl

theorem deliver_carries (v : Snapshot) (s : State) : CarriesThrough g (deliver v) s :=
  (encPins_carries hg _ _ _ s).andThen fun t _ => encPins_carries hg _ _ _ t

theorem drainC1_carries (w : Nat) {s : State}
    (hread : (g s).rb.slots.read s.rb.readIdx = s.rb.slots.read s.rb.readIdx) : CarriesThrough g (drainC1 w) s := by
  unfold CarriesThrough drainC1 memRead
  simp only [hg.cfg, hg.readIdx, hread, hg.setDrain]
  split <;> rfl

theorem drainC2_carries (w : Nat) (v : Snapshot) (s : State) : CarriesThrough g (drainC2 w v) s :=
  (deliver_carries hg v s).andThen fun t _ => carriesThrough_next (hg.popSlot t w)

/-- The next micro-step of a drain reads at most the slot at `readIdx`, in C1. -/
theorem drainStep_carries {s : State}
    (hread : ∀ w, s.drain = .draining w → (g s).rb.slots.read s.rb.readIdx = s.rb.slots.read s.rb.readIdx) :
    CarriesThrough g drainStep s := by
  unfold CarriesThrough drainStep
  rw [hg.drain]
  split
  · rfl
  · exact drainC1_carries hg _ (hread _ (by assumption))
  · exact drainC2_carries hg _ _ s

/-- A drain carries a change through if, in all the states it goes through, C1 reads what it would have read. -/
theorem finishDrain_carries {P : State → Prop} (hstep : ∀ s t, P s → drainStep s = .next t → P t)
    (hread : ∀ s w, P s → s.drain = .draining w → (g s).rb.slots.read s.rb.readIdx = s.rb.slots.read s.rb.readIdx)
    (k : Nat) {s : State} (hs : P s) : CarriesThrough g (finishDrain k) s := by
  induction k generalizing s with
  | zero =>
    unfold CarriesThrough finishDrain
    rw [hg.drain]
    split <;> rfl
  | succ k ih =>
    unfold CarriesThrough finishDrain
    rw [hg.drain]
    split
    · rfl
    · exact (drainStep_carries hg fun w hw => hread s w hs hw).andThen fun t ht => ih (hstep s t hs ht)

end

/-! ### The slots a drain delivers -/

/-- Other contents of the slots. -/
def State.setSlots (m : Memory) (s : State) : State := s.setRb { s.rb with slots := m }

theorem setSlots_outsideDrain (m : Memory) : OutsideDrain (State.setSlots m) where
  cfg _ := rfl
  readIdx _ := rfl
  drain _ := rfl
  enc s e := State.setRb_enc s _ e
  setEnc s e x := by cases e <;> rfl
  setDrain _ _ := rfl
  popSlot _ _ := rfl

/-- The two arrays hold the same snapshots in the slots from `r` up to, not including, `w`. -/
def SlotsAgree (m m' : Memory) (cap r w : Nat) : Prop :=
  slotsFrom m cap r (slotsTo cap r w) = slotsFrom m' cap r (slotsTo cap r w)

/-- Agreement as far as `w` is agreement at the first slot and, from the next one on, as far as `w`. -/
theorem SlotsAgree.head_tail {m m' : Memory} {cap r w : Nat} (hr : r < cap) (hw : w < cap) (hne : r ≠ w)
    (h : SlotsAgree m m' cap r w) : m.read r = m'.read r ∧ SlotsAgree m m' cap (inc cap r) w := by
  unfold SlotsAgree at h
  rw [← slotsTo_inc hr hw hne, slotsFrom_succ hr, slotsFrom_succ hr] at h
  exact List.cons.inj h

/-- `m` holds what the slots hold as far as the drain in flight still goes. -/
def AgreesAhead (m : Memory) (s : State) : Prop :=
  s.drain ≠ .notDraining → SlotsAgree m s.rb.slots s.cfg.cap s.rb.readIdx s.drain.bound

theorem stageAt_bound {r w : Nat} (h : stageAt r w ≠ .notDraining) : (stageAt r w).bound = w := by
  by_cases hrw : r = w
  · exact absurd (if_pos hrw) h
  · simp [stageAt, hrw, DrainStage.bound]

/-- What a drain in flight still delivers shrinks from the front (R130, R131). -/
theorem drainStep_agreesAhead {m : Memory} {s t : State} (hg : DrainGood s) (ha : AgreesAhead m s)
    (h : drainStep s = .next t) : AgreesAhead m t := by
  have hd := hg.drain
  unfold AgreesAhead at ha
  unfold drainStep at h
  split at h
  · cases h; exact ha
  · rename_i w hw
    rw [hw] at ha
    rcases drainC1_cases w s with ⟨_, h'⟩ | ⟨_, h'⟩ <;> rw [h'] at h <;> cases h
    exact fun _ => ha nofun
  · rename_i w v hw
    rw [hw] at ha hd
    obtain ⟨hwlt, hne⟩ := hd
    rcases drainC2_cases w v s with ⟨h', _⟩ | ⟨_, h'⟩ <;> rw [h'] at h <;> cases h
    have hf := (deliverTo_frame v s).trans (popSlot_frame w (deliverTo v s))
    intro hstage
    rw [popSlot_drain] at hstage ⊢
    rw [stageAt_bound hstage, hf.cfg, hf.slots, popSlot_readIdx, deliverTo_readIdx, (deliverTo_frame v s).cfg]
    exact (SlotsAgree.head_tail hg.read_lt hwlt hne (ha nofun)).2

/-- C1 reads a slot that the drain still delivers. -/
theorem AgreesAhead.read {m : Memory} {s : State} {w : Nat} (ha : AgreesAhead m s) (hg : DrainGood s)
    (hw : s.drain = .draining w) : m.read s.rb.readIdx = s.rb.slots.read s.rb.readIdx := by
  have hd := hg.drain
  unfold AgreesAhead at ha
  rw [hw] at ha hd
  exact (SlotsAgree.head_tail hg.read_lt hd.1 hd.2 (ha nofun)).1

/-- Settles O32: C0 starts a drain ahead of which `m` holds what the slots hold, every micro-step keeps that, and so
C1 never reads a slot in which they differ. -/
theorem drainReadsOnlyUnreadSlots : Obligations.DrainReadsOnlyUnreadSlots := by
  unfold Obligations.DrainReadsOnlyUnreadSlots
  intro s m hs hidle hunread
  rw [exec_idle rfl hidle, exec_idle (s := s.setRb { s.rb with slots := m }) rfl hidle]
  have hahead : AgreesAhead m (drainC0 s) := by
    intro hstage
    rw [drainC0_drain] at hstage ⊢
    rw [stageAt_bound hstage]
    exact hunread
  exact finishDrain_carries (setSlots_outsideDrain m) (P := fun x => DrainGood x ∧ AgreesAhead m x)
    (fun _ _ ⟨hg, ha⟩ h => ⟨drainStep_good h hg, drainStep_agreesAhead hg ha h⟩)
    (fun _ _ ⟨hg, ha⟩ hw => ha.read hg hw) _ ⟨(drainC0_inv hs).drainGood, hahead⟩

/-! ### The timestamp of the last tap -/

/-- Another timestamp of the last tap. -/
def State.setLastTap (x : Rat) (s : State) : State := s.setTe { s.te with lastTap := x }

theorem setLastTap_outsideDrain (x : Rat) : OutsideDrain (State.setLastTap x) where
  cfg _ := rfl
  readIdx _ := rfl
  drain _ := rfl
  enc s e := State.setTe_enc s _ e
  setEnc s e y := by cases e <;> rfl
  setDrain _ _ := rfl
  popSlot _ _ := rfl

theorem finishDrain_setLastTap (x : Rat) (k : Nat) (s : State) : CarriesThrough (State.setLastTap x) (finishDrain k) s :=
  finishDrain_carries (setLastTap_outsideDrain x) (P := fun _ => True) (fun _ _ _ _ => trivial) (fun _ _ _ _ => rfl) k
    trivial

theorem encDrain_setLastTap (x : Rat) (e : EncIdx) (s : State) :
    encDrain e (s.setLastTap x) = (encDrain e s).setLastTap x := by cases e <;> rfl

theorem encBtn_setLastTap (x : Rat) (e : EncIdx) (l : Bool) (s : State) :
    encBtn e l (s.setLastTap x) = (encBtn e l s).setLastTap x := by cases e <;> rfl

theorem tick_setLastTap (x : Rat) (n : Nat) (s : State) : tick n (s.setLastTap x) = (tick n s).setLastTap x := by
  by_cases h : s.te.softClk = true
  · rw [tick_soft h, tick_soft (s := s.setLastTap x) h]; rfl
  · have hext : s.te.softClk = false := by simpa using h
    rw [tick_external hext, tick_external (s := s.setLastTap x) hext]; rfl

theorem extEdge_setLastTap (x : Rat) (l : Bool) (s : State) :
    extEdge l (s.setLastTap x) = (extEdge l s).setLastTap x := by
  unfold extEdge
  rw [apply_ite (State.setLastTap x)]
  rfl

theorem endTap_setLastTap (x : Rat) (s : State) : endTap (s.setLastTap x) = (endTap s).setLastTap x := by
  unfold endTap
  rw [apply_ite (State.setLastTap x)]
  rfl

theorem runPart_setLastTap (x : Rat) (p : PollPart) (s : State) :
    runPart p (s.setLastTap x) = (runPart p s).setLastTap x := by
  cases p with
  | encDrain e => exact encDrain_setLastTap x e s
  | wireTempo d => rfl
  | encBtn e l => exact encBtn_setLastTap x e l s
  | tick n => exact tick_setLastTap x n s

theorem runParts_setLastTap (x : Rat) (ps : List PollPart) (s : State) :
    runParts ps (s.setLastTap x) = (runParts ps s).setLastTap x := by
  induction ps generalizing s with
  | nil => rfl
  | cons p ps ih => simp only [runParts, runPart_setLastTap, ih]

theorem wiredPart_setLastTap (x : Rat) (p : PollPart) (s : State) : wiredPart p (s.setLastTap x) = wiredPart p s := by
  cases p with
  | encDrain e => cases e <;> rfl
  | wireTempo d => rfl
  | encBtn e l => rfl
  | tick n => rfl

theorem finishParts_setLastTap (x : Rat) (ps : List PollPart) (s : State) :
    finishParts ps (s.setLastTap x) = (finishParts ps s).setLastTap x := by
  induction ps generalizing s with
  | nil => rfl
  | cons p ps ih => simp only [finishParts, wiredPart_setLastTap, runPart_setLastTap, runParts_setLastTap, ih]

theorem finishRest_setLastTap (x : Rat) (s : State) : finishRest (s.setLastTap x) = (finishRest s).setLastTap x :=
  finishParts_setLastTap x s.pollRest (s.setPollRest [])

theorem finishPoll_setLastTap (x : Rat) (s : State) : CarriesThrough (State.setLastTap x) finishPoll s :=
  (finishDrain_setLastTap x _ s).andThen fun t _ => carriesThrough_next (finishRest_setLastTap x t)

theorem finishPush_wrote {s : State} (h : s.isr = .wrote) : finishPush s = endInterrupt s := by simp [finishPush, h]

theorem finishPush_setLastTap (x : Rat) (s : State) : finishPush (s.setLastTap x) = (finishPush s).setLastTap x := by
  cases h : s.isr with
  | idle => rw [finishPush_idle h, finishPush_idle (s := s.setLastTap x) h]
  | wrote => rw [finishPush_wrote h, finishPush_wrote (s := s.setLastTap x) h]; rfl

theorem takeInterrupt_setLastTap (x : Rat) (v : Snapshot) (s : State) :
    CarriesThrough (State.setLastTap x) (takeInterrupt v) s := by
  unfold CarriesThrough
  rcases takeInterrupt_cases v s with ⟨hw, e⟩ | ⟨hw, e⟩ <;> rw [e]
  · exact takeInterrupt_next (s := s.setLastTap x) hw
  · exact ((takeInterrupt_cases v (s.setLastTap x)).resolve_left fun h => hw h.1).2

theorem execRbPush_setLastTap (x : Rat) (v : Snapshot) (s : State) :
    CarriesThrough (State.setLastTap x) (exec (.rbPush v)) s := by
  have hp1 : CarriesThrough (State.setLastTap x) (fun y => takeInterrupt v (finishPush y)) s := by
    unfold CarriesThrough
    dsimp only
    rw [finishPush_setLastTap]
    exact takeInterrupt_setLastTap x v (finishPush s)
  exact hp1.andThen fun _ _ => carriesThrough_next rfl

/-- No effect of port C but that of T.TAP reads the timestamp of the last tap. -/
theorem consumerEffect_setLastTap (x : Rat) {i : Instr} (hi : ∀ n, i ≠ .tTap n) (s : State) :
    CarriesThrough (State.setLastTap x) (consumerEffect i) s := by
  cases i with
  | rbPush v => rfl
  | rbDrain => exact finishDrain_setLastTap x _ (drainC0 s)
  | encPins e a b => exact encPins_carries (setLastTap_outsideDrain x) e a b s
  | encDrain e => exact carriesThrough_next (encDrain_setLastTap x e s)
  | encBtn e l => exact carriesThrough_next (encBtn_setLastTap x e l s)
  | tSetBpm v => rfl
  | tTick n => exact carriesThrough_next (tick_setLastTap x n s)
  | tExtEdge l => exact carriesThrough_next (extEdge_setLastTap x l s)
  | tBeginTap => rfl
  | tTap n => exact absurd rfl (hi n)
  | tEndTap => exact carriesThrough_next (endTap_setLastTap x s)
  | poll n b0 b1 => exact finishPoll_setLastTap x (startPoll n b0 b1 s)

theorem exec_setLastTap (x : Rat) {i : Instr} (hi : ∀ n, i ≠ .tTap n) (s : State) :
    CarriesThrough (State.setLastTap x) (exec i) s := by
  rcases instr_port_cases i with ⟨v, rfl⟩ | hport
  · exact execRbPush_setLastTap x v s
  · rw [funext (exec_consumer hport)]
    exact (finishPoll_setLastTap x s).andThen fun t _ => consumerEffect_setLastTap x hi t

/-- Outside a gesture T.TAP is ignored (R175). -/
theorem tap_ignored {n : Nat} {s : State} (h : s.te.tapCount = -1) : tap n s = .next s := by simp [tap, h]

/-- The first tap of a gesture records its timestamp and reads none (R176). -/
theorem tap_first {n : Nat} {s : State} (h : s.te.tapCount = 0) :
    tap n s = .next (s.setTe { s.te with lastTap := secondsOf s.cfg n, tapCount := 1 }) := by simp [tap, h]

/-- Settles O56: every command but T.TAP carries another timestamp through; T.TAP outside a gesture leaves it, and the
first tap of a gesture overwrites it. -/
theorem lastTapIsReadOnlyInAGesture : Obligations.LastTapIsReadOnlyInAGesture := by
  unfold Obligations.LastTapIsReadOnlyInAGesture
  intro i s t x hidle hcount h
  change ∃ u, exec i (s.setLastTap x) = .next u ∧ (u = t ∨ u = t.setLastTap x)
  by_cases htap : ∃ n, i = .tTap n
  · obtain ⟨n, rfl⟩ := htap
    rw [exec_idle rfl hidle] at h
    rw [exec_idle (s := s.setLastTap x) rfl hidle]
    rcases hcount with hnone | hzero
    · cases (tap_ignored hnone).symm.trans h
      exact ⟨_, tap_ignored hnone, .inr rfl⟩
    · cases (tap_first hzero).symm.trans h
      exact ⟨_, tap_first hzero, .inl rfl⟩
  · have hcarry := exec_setLastTap x (fun n hn => htap ⟨n, hn⟩) s
    exact ⟨t.setLastTap x, by rw [hcarry, h, andThen_next], .inr rfl⟩

end Sys2Proof.Machine
end

section
/-! SUPPORT. The word of a POLL decodes at port C to that POLL (R103). -/

namespace Sys2Proof

/-- The operand bits of POLL: both button levels, then the elapsed time (R103). -/
theorem getLsbD_argBits_poll (n : Nat) (b0 b1 : Bool) (i : Nat) :
    (Instr.poll n b0 b1).argBits.getLsbD i =
      if i = 0 then b0 else if i = 1 then b1 else (BitVec.ofNat 30 n).getLsbD (i - 2) := by
  have houter := BitVec.getLsbD_append (x := BitVec.ofNat 30 n ++ BitVec.ofBool b1) (y := BitVec.ofBool b0) (i := i)
  refine houter.trans ?_
  rw [BitVec.getLsbD_append]
  match i with
  | 0 => simp
  | 1 => simp
  | i + 2 => simp

theorem poll_operands_argBits {n : Nat} (b0 b1 : Bool) (hn : n < 2 ^ 30) :
    Opcode.poll.operands (Instr.poll n b0 b1).argBits = .poll n b0 b1 := by
  have htime : (Instr.poll n b0 b1).argBits.extractLsb' 2 30 = BitVec.ofNat 30 n := by
    apply BitVec.eq_of_getLsbD_eq
    intro i hi
    simp [getLsbD_argBits_poll, hi, Nat.add_comm 2 i]
  rw [Opcode.operands, htime, getLsbD_argBits_poll, getLsbD_argBits_poll, BitVec.toNat_ofNat, Nat.mod_eq_of_lt hn]
  rfl

/-- The word of an encodable POLL decodes at port C to that POLL (R103). -/
theorem decodeAt_encode_poll {n : Nat} (b0 b1 : Bool) (hn : n < 2 ^ 30) :
    decodeAt .consumer (encode (.poll n b0 b1)) = .ok (.poll n b0 b1) := by
  refine (decodeAt_eq_ok_iff _ _ _).2 ⟨.poll, ?_, rfl, ?_, ?_⟩
  · rw [opField_encode, Instr.opcode, Opcode.ofBits_bits]
  · rw [argField_encode]
    exact Laws.OperandFits.poll n b0 b1
  · rw [argField_encode, poll_operands_argBits b0 b1 hn]

end Sys2Proof
end

section
/-! SUPPORT. Which agent writes what (R87), the unread snapshots as a queue (R82, R83), and a POLL by its micro-steps
(R79, R190). -/

namespace Sys2Proof.Machine

/-! ### One writer for each element -/

/-- Settles O18: ENV's choice is a step of one agent, and each agent writes its own elements only. -/
theorem eachElementHasOneWriter : Obligations.EachElementHasOneWriter := by
  unfold Obligations.EachElementHasOneWriter
  intro s t act rest henv h
  obtain ⟨_, ht⟩ := step_eq_next h
  rw [envStep_cons henv] at ht
  have hframe := runAction_frame ht
  constructor
  · intro hpoll
    rw [hpoll] at hframe
    obtain ⟨_, hslots, hwrite, hisr, _, _⟩ : PollFrame (s.setEnv rest) t := hframe
    exact ⟨hslots, hwrite, hisr⟩
  · intro hisr
    rw [hisr] at hframe
    obtain ⟨_, hread, hdrain, hrest, henc, hte, hevents, _⟩ : IsrFrame (s.setEnv rest) t := hframe
    exact ⟨hread, hdrain, hrest, fun e => (henc e).trans (State.setEnv_enc s rest e), hte, hevents⟩

/-! ### ENV's choices carried out one after the other -/

/-- A choice of ENV put before everything it has chosen already is the next one carried out. -/
theorem runActions_cons {act : Action} {acts : List Action} {s : State} (hwf : s.cfg.wf = true) :
    runActions (act :: acts) s = andThen (runAction act s) (runActions acts) := by
  have hstep : step (s.setEnv (act :: s.env)) = runAction act s := by
    rw [step_wf (s := s.setEnv (act :: s.env)) hwf, envStep_cons (State.setEnv_env s _), State.setEnv_setEnv,
      State.setEnv_self]
  rw [runActions, hstep]

theorem runActions_append (as bs : List Action) (s : State) :
    runActions (as ++ bs) s = andThen (runActions as s) (runActions bs) := by
  induction as generalizing s with
  | nil => rfl
  | cons a as ih => rw [List.cons_append, runActions, runActions, andThen_assoc, funext ih]

/-- The first of POLL's next micro-steps, then the others. -/
theorem runActions_advance {acts : List Action} {s t : State} (hwf : s.cfg.wf = true) (h : pollStep s = .next t) :
    runActions (.advance .poll :: acts) s = runActions acts t := by
  rw [runActions_cons hwf, show runAction (.advance .poll) s = .next t from h, andThen_next]

/-! ### The unread snapshots -/

theorem slotsFrom_succ_last (m : Memory) (cap r u : Nat) :
    slotsFrom m cap r (u + 1) = slotsFrom m cap r u ++ [m.read ((r + u) % cap)] := by
  simp [slotsFrom, List.range_succ]

/-- The slots between `r` and `w`, counted on from `r`, end just before `w`. -/
theorem add_slotsTo_mod {cap r w : Nat} (hr : r < cap) (hw : w < cap) : (r + slotsTo cap r w) % cap = w := by
  rw [slotsTo, Nat.add_mod_mod, show r + (w + cap - r) = w + cap by omega, Nat.add_mod_right, Nat.mod_eq_of_lt hw]

/-- Two distances below `CAP` from `r` that lead to the same slot are equal. -/
theorem add_mod_inj {cap r k u : Nat} (hk : k < cap) (hu : u < cap) (h : (r + k) % cap = (r + u) % cap) : k = u :=
  (Nat.ModEq.add_left_cancel' r h).eq_of_lt_of_lt hk hu

/-- With a slot to spare, the writer moving on puts one more slot between the reader and it. -/
theorem slotsTo_inc_right {cap r w : Nat} (hr : r < cap) (hw : w < cap) (h : slotsTo cap r w + 1 < cap) :
    slotsTo cap r (inc cap w) = slotsTo cap r w + 1 := by
  have hcap : 0 < cap := by omega
  refine add_mod_inj (r := r) (slotsTo_lt hcap) h ?_
  rw [add_slotsTo_mod hr (inc_lt hcap), ← Nat.add_assoc, ← Nat.mod_add_mod, add_slotsTo_mod hr hw, inc]

/-- A write to a slot that is not among those counted leaves what they hold. -/
theorem slotsFrom_write {m : Memory} {cap r u i : Nat} (v : Snapshot) (hm : m.wf = true)
    (hi : ∀ k < u, (r + k) % cap ≠ i) : slotsFrom (m.write i v) cap r u = slotsFrom m cap r u := by
  refine List.map_congr_left fun k hk => ?_
  rw [Memory.read_write m i _ v hm, if_neg (hi k (List.mem_range.1 hk))]

/-- A push with a slot to spare puts its snapshot behind the unread ones. -/
theorem slotsFrom_push {m : Memory} {cap r w : Nat} (v : Snapshot) (hm : m.wf = true) (hr : r < cap) (hw : w < cap)
    (h : slotsTo cap r w + 1 < cap) :
    slotsFrom (m.write w v) cap r (slotsTo cap r (inc cap w)) = slotsFrom m cap r (slotsTo cap r w) ++ [v] := by
  have hbefore : ∀ k < slotsTo cap r w, (r + k) % cap ≠ w := fun k hk heq =>
    hk.ne (add_mod_inj (by omega) (by omega) (heq.trans (add_slotsTo_mod hr hw).symm))
  rw [slotsTo_inc_right hr hw h, slotsFrom_succ_last, slotsFrom_write v hm hbefore, add_slotsTo_mod hr hw,
    Memory.read_write m w w v hm, if_pos rfl]

/-- The snapshot at `readIdx` is the oldest of the unread ones, and the next slot holds the oldest of the others. -/
theorem slotsFrom_pop {m : Memory} {cap r w : Nat} (hr : r < cap) (hw : w < cap) (h : r ≠ w) :
    slotsFrom m cap r (slotsTo cap r w) = m.read r :: slotsFrom m cap (inc cap r) (slotsTo cap (inc cap r) w) := by
  rw [← slotsTo_inc hr hw h, slotsFrom_succ hr]

theorem unread_push {v : Snapshot} {s : State} (hs : State.Good s) (hisr : s.isrIdle)
    (h : s.unread.length < s.cfg.cap - 1) : ∃ t, exec (.rbPush v) s = .next t ∧ t.unread = s.unread ++ [v] := by
  rw [unread_length] at h
  have hspare : slotsTo s.cfg.cap s.rb.readIdx s.rb.writeIdx + 1 < s.cfg.cap := by omega
  refine ⟨_, by rw [execRbPush_eq, finishPush_idle hisr, takeInterrupt_next hs.rb.write_lt, andThen_next], ?_⟩
  exact slotsFrom_push v hs.rb.slots_wf hs.rb.read_lt hs.rb.write_lt hspare

theorem unread_ne_nil_iff {s : State} (hs : State.Good s) : s.unread ≠ [] ↔ s.rb.readIdx ≠ s.rb.writeIdx := by
  rw [← List.length_pos_iff_ne_nil, unread_length, Nat.pos_iff_ne_zero, ne_eq,
    slotsTo_eq_zero hs.rb.read_lt hs.rb.write_lt]

/-! ### The micro-steps of a drain -/

theorem pollStep_eq_drainStep {s : State} (h : s.drain ≠ .notDraining) : pollStep s = drainStep s := by
  cases hd : s.drain with
  | notDraining => exact absurd hd h
  | draining w => simp [pollStep, drainStep, hd]
  | holding w v => simp [pollStep, drainStep, hd]

/-- The state after C1: the snapshot at `readIdx` is held (R130). -/
def State.hold (w : Nat) (s : State) : State := s.setDrain (.holding w (s.rb.slots.read s.rb.readIdx))

/-- The state after C1 and C2: the snapshot at `readIdx` is delivered and its slot passed (R130, R131). -/
def State.deliverHead (w : Nat) (s : State) : State := popSlot w (deliverTo (s.rb.slots.read s.rb.readIdx) (s.hold w))

theorem pollStep_draining {w : Nat} {s : State} (hd : s.drain = .draining w) (hr : s.rb.readIdx < s.cfg.cap) :
    pollStep s = .next (s.hold w) := by
  have hC1 : pollStep s = drainC1 w s := by simp [pollStep, hd]
  rcases drainC1_cases w s with ⟨_, h⟩ | ⟨hn, _⟩
  · rw [hC1, h, State.hold]
  · exact absurd hr hn

theorem pollStep_hold {w : Nat} {s : State} (hroom : ∀ e, (s.enc e).hasRoom s.cfg 1) :
    pollStep (s.hold w) = .next (s.deliverHead w) := by
  have hC2 : pollStep (s.hold w) = drainC2 w (s.rb.slots.read s.rb.readIdx) (s.hold w) := rfl
  have hroom' : ∀ e, ((s.hold w).enc e).hasRoom (s.hold w).cfg 1 := fun e => by simpa [State.hold] using hroom e
  rw [hC2, drainC2, deliver_next hroom', andThen_next, State.deliverHead]

theorem deliverHead_enc (w : Nat) (s : State) (e : EncIdx) :
    (s.deliverHead w).enc e =
      (s.enc e).onPins (phaseA (s.rb.slots.read s.rb.readIdx) e) (phaseB (s.rb.slots.read s.rb.readIdx) e) := by
  rw [State.deliverHead, popSlot_enc, deliverTo_enc, State.hold, State.setDrain_enc]

/-- C1 and C2 take the oldest unread snapshot (R82). -/
theorem unread_deliverHead {w : Nat} {s : State} (hs : State.Good s) (h : s.unread ≠ []) :
    s.unread = s.rb.slots.read s.rb.readIdx :: (s.deliverHead w).unread := by
  have hne : s.rb.readIdx ≠ s.rb.writeIdx := (unread_ne_nil_iff hs).1 h
  have hring : (s.deliverHead w).unread = slotsFrom s.rb.slots s.cfg.cap (inc s.cfg.cap s.rb.readIdx)
      (slotsTo s.cfg.cap (inc s.cfg.cap s.rb.readIdx) s.rb.writeIdx) := by
    simp [unread_eq, State.deliverHead, State.hold, popSlot, deliverTo]
  rw [hring, unread_eq, slotsFrom_pop hs.rb.read_lt hs.rb.write_lt hne]

/-- Settles O30: a push fills the slot just behind the unread ones, and C1 with C2 passes the first of them. -/
theorem unreadIsAQueue : Obligations.UnreadIsAQueue := by
  unfold Obligations.UnreadIsAQueue
  refine ⟨fun v s hs hisr hspare => unread_push hs hisr hspare, ?_⟩
  intro s w hs hd hne hroom
  refine ⟨s.rb.slots.read s.rb.readIdx, s.deliverHead w, ?_, unread_deliverHead hs hne, deliverHead_enc w s⟩
  rw [runActions_advance hs.cfg (pollStep_draining hd hs.rb.read_lt),
    runActions_advance (s := s.hold w) hs.cfg (pollStep_hold hroom)]
  rfl

/-- A drain that ends in one piece ends in the same state when its micro-steps are taken one by one (R79, R128). -/
theorem runActions_drainLeft {k : Nat} {s t : State} (hs : State.Good s) (h : finishDrain k s = .next t) :
    runActions (List.replicate (drainLeft s) (.advance .poll)) s = .next t := by
  induction k generalizing s with
  | zero =>
    have hd : s.drain = .notDraining := by
      by_contra hd
      rw [finishDrain, if_neg hd] at h
      cases h
    rw [finishDrain_idle hd] at h
    rw [drainLeft, hd]
    exact h
  | succ k ih =>
    by_cases hd : s.drain = .notDraining
    · rw [finishDrain_idle hd] at h
      rw [drainLeft, hd]
      exact h
    · rw [finishDrain, if_neg hd] at h
      obtain ⟨u, hu, ht⟩ := andThen_eq_next h
      have hstep : pollStep s = .next u := (pollStep_eq_drainStep hd).trans hu
      rw [← drainStep_left hu hs.drainGood hd, List.replicate_succ, runActions_advance hs.cfg hstep]
      exact ih (pollStep_inv hs hstep) ht

/-! ### The components of a POLL, one to a micro-step -/

/-- How many micro-steps a component can take, with what it puts next (R193). -/
def PollPart.steps : PollPart → Nat
  | .encDrain .enc0 => 2
  | .encDrain .enc1 => 1
  | .wireTempo _ => 1
  | .encBtn _ _ => 1
  | .tick _ => 1

/-- How many micro-steps the components in a list can take. -/
def partSteps (ps : List PollPart) : Nat := (ps.map PollPart.steps).sum

theorem partSteps_pollParts (n : Nat) (b0 b1 : Bool) : partSteps (pollParts n b0 b1) = 6 := rfl

theorem pollStep_part {p : PollPart} {ps : List PollPart} {s : State} (hd : s.drain = .notDraining)
    (hp : s.pollRest = p :: ps) : pollStep s = .next (runPart p (s.setPollRest (wiredPart p s ++ ps))) := by
  simp [pollStep, hd, hp]

/-- A component leaves fewer micro-steps to take, the one it puts next counted in. -/
theorem partSteps_wiredPart_lt (p : PollPart) (ps : List PollPart) (s : State) :
    partSteps (wiredPart p s ++ ps) < partSteps (p :: ps) := by
  have hpos : 0 < p.steps := by
    cases p with
    | encDrain e => cases e <;> exact Nat.zero_lt_succ _
    | _ => exact Nat.one_pos
  rcases wiredPart_cases p s with h | ⟨rfl, _, h⟩
  · simpa [partSteps, h] using hpos
  · simp [partSteps, h, PollPart.steps]

theorem finishRest_nil {s : State} (h : s.pollRest = []) : finishRest s = s := by
  have hself : s.setPollRest s.pollRest = s := rfl
  rw [finishRest, h, finishParts, ← h, hself]

/-- The component operations a POLL still has to perform, taken one by one, come to the same end as all at once. -/
theorem runActions_finishRest {s : State} (hs : State.Good s) (hd : s.drain = .notDraining) :
    ∃ k ≤ partSteps s.pollRest, runActions (List.replicate k (.advance .poll)) s = .next (finishRest s) := by
  induction hn : partSteps s.pollRest using Nat.strong_induction_on generalizing s with
  | _ n ih =>
    cases hp : s.pollRest with
    | nil => exact ⟨0, Nat.zero_le n, congrArg Host.Outcome.next (finishRest_nil hp).symm⟩
    | cons p ps =>
      have hstep := pollStep_part hd hp
      have hframe := runPart_frame p (s.setPollRest (wiredPart p s ++ ps))
      have hlt : partSteps (runPart p (s.setPollRest (wiredPart p s ++ ps))).pollRest < n := by
        rw [hframe.pollRest, State.setPollRest_pollRest, ← hn, hp]
        exact partSteps_wiredPart_lt p ps s
      obtain ⟨k, hk, hrun⟩ := ih _ hlt (pollStep_inv hs hstep) (hframe.drain.trans hd) rfl
      refine ⟨k + 1, by omega, ?_⟩
      rw [List.replicate_succ, runActions_advance hs.cfg hstep, hrun, finishRest_runPart hp]

/-- What POLL has in flight, run to its end in one piece, comes to the same end by its micro-steps (R79). -/
theorem runActions_finishPoll {s t : State} (hs : State.Good s) (h : finishPoll s = .next t) :
    ∃ k ≤ 2 * (s.cfg.cap - 1) + partSteps s.pollRest,
      runActions (List.replicate k (.advance .poll)) s = .next t := by
  obtain ⟨u, hu, ht⟩ := andThen_eq_next h
  cases ht
  obtain ⟨hframe, hidle⟩ := finishDrain_frame hu
  have hgood : State.Good u := hs.of_drain hframe (finishDrain_good hu hs.drainGood)
  obtain ⟨k, hk, hrun⟩ := runActions_finishRest hgood hidle
  rw [hframe.pollRest] at hk
  refine ⟨drainLeft s + k, Nat.add_le_add (drainLeft_le hs.drainGood) hk, ?_⟩
  rw [List.replicate_add, runActions_append, runActions_drainLeft hs hu, andThen_next, hrun]

/-! ### A POLL by its micro-steps -/

/-- The first micro-step of a POLL, POLL being between operations, is C0 with its components left to do (R191). -/
theorem runAction_start_poll {n : Nat} (b0 b1 : Bool) {s : State} (hn : n < 2 ^ 30) (hs : s.pollIdle) :
    runAction (.start .consumer (encode (.poll n b0 b1))) s = .next (startPoll n b0 b1 s) := by
  rw [runAction, takeCommand_ok _ (decodeAt_encode_poll b0 b1 hn), startCommand, onPoll_idle _ hs]

/-- Settles O60: after C0 the micro-steps are those of the drain, then the components one by one, six at most. -/
theorem pollIsItsMicroSteps : Obligations.PollIsItsMicroSteps := by
  unfold Obligations.PollIsItsMicroSteps
  intro n b0 b1 s t hs hidle hn h
  rw [exec_idle rfl hidle] at h
  obtain ⟨k, hk, hrun⟩ := runActions_finishPoll (startPoll_inv hs) h
  refine ⟨k, hk, ?_⟩
  rw [runActions_cons hs.cfg, runAction_start_poll b0 b1 hn hidle, andThen_next, hrun]

end Sys2Proof.Machine
end

section
/-! SUPPORT. The operand field of a command and the operands of a layout are each other's inverse (R98 to R103, R108,
R110), and what each row of the opcode table decides (R97, R107 to R109). -/

namespace Sys2Proof

/-! ### The operand field, read after it is written -/

/-- A field at the foot of the operand field reads back what was put there. -/
theorem extractLsb'_setWidth_self {n : Nat} (x : BitVec n) (hn : n ≤ 32) : (x.setWidth 32).extractLsb' 0 n = x :=
  (BitVec.extractLsb'_setWidth_of_le (by omega)).trans BitVec.extractLsb'_eq_self

/-- The operands read from a well-formed command's own field are the command's (R98 to R103, R110). -/
theorem operands_argBits {i : Instr} (hwf : i.wf = true) : i.opcode.operands i.argBits = i := by
  cases i with
  | rbPush v => exact congrArg Instr.rbPush (extractLsb'_setWidth_self v (by decide))
  | rbDrain => rfl
  | encPins e a b => cases e <;> cases a <;> cases b <;> rfl
  | encDrain e => cases e <;> rfl
  | encBtn e level => cases e <;> cases level <;> rfl
  | tSetBpm v =>
    obtain ⟨hlo, hhi⟩ : -32768 ≤ v ∧ v ≤ 32767 := by simpa [Instr.wf] using hwf
    have hvalue : (BitVec.ofInt 16 v).toInt = v := BitVec.toInt_ofInt_eq_self (by decide) hlo (Int.lt_add_one_of_le hhi)
    rw [Instr.opcode, Opcode.operands, Instr.argBits, extractLsb'_setWidth_self _ (by decide), hvalue]
  | tTick n => exact congrArg Instr.tTick (Nat.mod_eq_of_lt (of_decide_eq_true hwf))
  | tExtEdge level => cases level <;> rfl
  | tBeginTap => rfl
  | tTap n => exact congrArg Instr.tTap (Nat.mod_eq_of_lt (of_decide_eq_true hwf))
  | tEndTap => rfl
  | poll n b0 b1 => exact poll_operands_argBits b0 b1 (of_decide_eq_true hwf)

/-- No command sets a bit its layout does not name (R108). -/
theorem argBits_fits (i : Instr) : i.argBits &&& ~~~i.opcode.argMask = 0#32 := by
  cases i with
  | rbPush v => exact Laws.OperandFits.rbPush v
  | rbDrain => exact Laws.OperandFits.rbDrain
  | encPins e a b => exact Laws.OperandFits.encPins e a b
  | encDrain e => exact Laws.OperandFits.encDrain e
  | encBtn e level => exact Laws.OperandFits.encBtn e level
  | tSetBpm v => exact Laws.OperandFits.tSetBpm v
  | tTick n => exact Laws.OperandFits.tTick n
  | tExtEdge level => exact Laws.OperandFits.tExtEdge level
  | tBeginTap => exact Laws.OperandFits.tBeginTap
  | tTap n => exact Laws.OperandFits.tTap n
  | tEndTap => exact Laws.OperandFits.tEndTap
  | poll n b0 b1 => exact Laws.OperandFits.poll n b0 b1

/-- The opcode field of a command's word names its opcode, whose layout reads back the operands written. -/
theorem decodeAt_encode {i : Instr} (hwf : i.wf = true) : decodeAt i.port (encode i) = .ok i := by
  refine (decodeAt_eq_ok_iff _ _ _).2 ⟨i.opcode, ?_, rfl, ?_, ?_⟩
  · rw [opField_encode, Opcode.ofBits_bits]
  · rw [argField_encode, argBits_fits]
  · rw [argField_encode, operands_argBits hwf]

/-- Settles O1: by the layout of each command's operand field. -/
theorem decodeOfEncode : Obligations.DecodeOfEncode := by
  unfold Obligations.DecodeOfEncode
  exact fun i hwf => decodeAt_encode hwf

/-- Settles O4: each word is the encoding of the command written beside it. -/
theorem writtenWordsDecode : Obligations.WrittenWordsDecode := by
  unfold Obligations.WrittenWordsDecode
  have htempo : encode (.tSetBpm (-5)) = 0x60000FFFB#36 := by decide
  exact ⟨decodeAt_encode (i := .rbPush 0x0D) rfl, decodeAt_encode (i := .rbDrain) rfl,
    decodeAt_encode (i := .encPins .enc1 false true) rfl, decodeAt_encode (i := .encDrain .enc1) rfl,
    decodeAt_encode (i := .encBtn .enc1 true) rfl, htempo ▸ decodeAt_encode (i := .tSetBpm (-5)) rfl,
    decodeAt_encode (i := .tTick 4294967295) rfl, decodeAt_encode (i := .tExtEdge true) rfl,
    decodeAt_encode (i := .tBeginTap) rfl, decodeAt_encode (i := .tTap 400000) rfl,
    decodeAt_encode (i := .tEndTap) rfl, decodeAt_encode (i := .poll 62500 false true) rfl⟩

/-! ### The operand field, written after it is read -/

theorem bitAt_getLsbD (k : Nat) (arg : Arg) : bitAt k (arg.getLsbD k) = arg &&& BitVec.twoPow 32 k :=
  (BitVec.and_twoPow arg k).symm

theorem setWidth_extractLsb'_zero (n : Nat) (arg : Arg) :
    (arg.extractLsb' 0 n).setWidth 32 = arg &&& (BitVec.allOnes n).setWidth 32 := by
  apply BitVec.eq_of_getLsbD_eq
  intro k hk
  by_cases h : k < n <;> simp [hk, h]

theorem argBits_poll_operands (arg : Arg) : (Opcode.poll.operands arg).argBits = arg := by
  apply BitVec.eq_of_getLsbD_eq
  intro k hk
  rw [Opcode.operands, getLsbD_argBits_poll]
  match k with
  | 0 => rfl
  | 1 => rfl
  | k + 2 =>
    have htime : k < 30 := by omega
    rw [if_neg (by omega), if_neg (by omega), Nat.add_sub_cancel, BitVec.ofNat_toNat, BitVec.setWidth_eq,
      BitVec.getLsbD_extractLsb', decide_eq_true htime, Bool.true_and, Nat.add_comm]

/-- The field of the command a layout reads holds the layout's bits and no other (R98 to R103, R110). -/
theorem argBits_operands (op : Opcode) (arg : Arg) : (op.operands arg).argBits = arg &&& op.argMask := by
  cases op with
  | rbPush => exact setWidth_extractLsb'_zero 8 arg
  | rbDrain => exact BitVec.and_zero.symm
  | encPins =>
    rw [Opcode.operands, Instr.argBits, EncIdx.bit_ofBit, bitAt_getLsbD, bitAt_getLsbD, bitAt_getLsbD,
      ← BitVec.and_or_distrib_left, ← BitVec.and_or_distrib_left]
    rfl
  | encDrain => rw [Opcode.operands, Instr.argBits, EncIdx.bit_ofBit, bitAt_getLsbD]; rfl
  | encBtn =>
    rw [Opcode.operands, Instr.argBits, EncIdx.bit_ofBit, bitAt_getLsbD, bitAt_getLsbD, ← BitVec.and_or_distrib_left]
    rfl
  | tSetBpm =>
    rw [Opcode.operands, Instr.argBits, BitVec.ofInt_toInt]
    exact setWidth_extractLsb'_zero 16 arg
  | tTick => exact (BitVec.ofNat_toNat 32 arg).trans ((BitVec.setWidth_eq arg).trans BitVec.and_allOnes.symm)
  | tExtEdge => exact bitAt_getLsbD 0 arg
  | tBeginTap => exact BitVec.and_zero.symm
  | tTap => exact (BitVec.ofNat_toNat 32 arg).trans ((BitVec.setWidth_eq arg).trans BitVec.and_allOnes.symm)
  | tEndTap => exact BitVec.and_zero.symm
  | poll => exact (argBits_poll_operands arg).trans BitVec.and_allOnes.symm

/-- With no bit outside a mask, the mask takes nothing away. -/
theorem and_eq_self_of_and_not {x m : Arg} (h : x &&& ~~~m = 0#32) : x &&& m = x := by
  have hsplit : x &&& (m ||| ~~~m) = x &&& m := by rw [BitVec.and_or_distrib_left, h, BitVec.or_zero]
  rw [← hsplit, BitVec.or_not_self]
  exact BitVec.and_allOnes

/-- What a layout reads from a field fits that field (R101 to R103). -/
theorem operands_wf (op : Opcode) (arg : Arg) : (op.operands arg).wf = true := by
  cases op with
  | tSetBpm =>
    have hlo : -32768 ≤ (arg.extractLsb' 0 16).toInt := BitVec.le_toInt _
    have hhi : (arg.extractLsb' 0 16).toInt ≤ 32767 := BitVec.toInt_le
    rw [Opcode.operands, Instr.wf, decide_eq_true hlo, decide_eq_true hhi]
    rfl
  | tTick => exact decide_eq_true arg.isLt
  | tTap => exact decide_eq_true arg.isLt
  | poll => exact decide_eq_true (arg.extractLsb' 2 30).isLt
  | _ => rfl

/-- Settles O2: with no reserved bit set, the layout's bits are the whole operand field. -/
theorem encodeOfDecode : Obligations.EncodeOfDecode := by
  unfold Obligations.EncodeOfDecode
  intro p w i h
  obtain ⟨op, hop, hport, hmask, rfl⟩ := (decodeAt_eq_ok_iff p w i).1 h
  have hfield : (op.operands (argField w)).argBits = argField w :=
    (argBits_operands op _).trans (and_eq_self_of_and_not hmask)
  refine ⟨operands_wf op _, by rw [Instr.port, Opcode.operands_opcode, hport], ?_⟩
  rw [encode, Opcode.operands_opcode, hfield, ← Opcode.bits_of_ofBits hop]
  exact (word_eq_append w).symm

/-! ### The rows of the opcode table -/

/-- The mnemonic of an opcode (R97). -/
def Opcode.mnemonic (op : Opcode) : String := (op.operands 0#32).mnemonic

theorem Instr.mnemonic_eq (i : Instr) : i.mnemonic = i.opcode.mnemonic := by cases i <;> rfl

/-- The opcodes in the order of the table. -/
def Opcode.all : List Opcode :=
  [.rbPush, .rbDrain, .encPins, .encDrain, .encBtn, .tSetBpm, .tTick, .tExtEdge, .tBeginTap, .tTap, .tEndTap, .poll]

theorem Opcode.mem_all (op : Opcode) : op ∈ Opcode.all := by cases op <;> decide

/-- No two commands share a mnemonic (R97). -/
theorem Opcode.mnemonic_inj {a b : Opcode} (h : a.mnemonic = b.mnemonic) : a = b := by
  have hnodup : (Opcode.all.map Opcode.mnemonic).Nodup := by decide
  exact List.inj_on_of_nodup_map hnodup a.mem_all b.mem_all h

/-- The row of an opcode: its number with a zero operand field, under a mask of the opcode field and the reserved bits
(R96, R108). -/
def Opcode.row (op : Opcode) : OpcodeRow := ⟨op.mnemonic, op.bits ++ 0#32, 0xF#4 ++ ~~~op.argMask, op.port⟩

theorem opcodeTable_eq : opcodeTable = Opcode.all.map Opcode.row := by decide

theorem exists_row_of_mem {row : OpcodeRow} (h : row ∈ opcodeTable) : ∃ op : Opcode, op.row = row := by
  rw [opcodeTable_eq] at h
  obtain ⟨op, _, hrow⟩ := List.mem_map.1 h
  exact ⟨op, hrow⟩

theorem opField_pattern (op : Opcode) : opField op.row.pattern = op.bits := opField_append op.bits 0#32

/-- A row's mask and match ask for its opcode and for no reserved bit (R96, R108). -/
theorem row_matches_iff (op : Opcode) (w : Word) :
    w &&& op.row.mask = op.row.pattern ↔ opField w = op.bits ∧ argField w &&& ~~~op.argMask = 0#32 := by
  have hand : w &&& op.row.mask = opField w ++ (argField w &&& ~~~op.argMask) := by
    conv_lhs => rw [word_eq_append w]
    exact BitVec.and_append.trans (congrArg (· ++ (argField w &&& ~~~op.argMask)) BitVec.and_allOnes)
  rw [hand]
  constructor
  · intro h
    exact ⟨by simpa [Opcode.row] using congrArg opField h, by simpa [Opcode.row] using congrArg argField h⟩
  · rintro ⟨hop, harg⟩
    rw [hop, harg]
    rfl

theorem ofBits_opField_iff (w : Word) (op : Opcode) : Opcode.ofBits (opField w) = some op ↔ opField w = op.bits :=
  ⟨Opcode.bits_of_ofBits, fun h => by rw [h, Opcode.ofBits_bits]⟩

/-- Settles O3: both sides say that the word has the row's opcode and no reserved bit. -/
theorem opcodeTableDecides : Obligations.OpcodeTableDecides := by
  unfold Obligations.OpcodeTableDecides
  intro row hrow w
  obtain ⟨op, rfl⟩ := exists_row_of_mem hrow
  rw [row_matches_iff]
  constructor
  · rintro ⟨hop, harg⟩
    refine ⟨op.operands (argField w), ?_, ?_⟩
    · exact (decodeAt_eq_ok_iff _ _ _).2 ⟨op, (ofBits_opField_iff w op).2 hop, rfl, harg, rfl⟩
    · rw [Instr.mnemonic_eq, Opcode.operands_opcode]
      rfl
  · rintro ⟨i, hdecode, hmnemonic⟩
    obtain ⟨op', hop', _, harg, rfl⟩ := (decodeAt_eq_ok_iff _ _ _).1 hdecode
    rw [Instr.mnemonic_eq, Opcode.operands_opcode] at hmnemonic
    cases Opcode.mnemonic_inj hmnemonic
    exact ⟨(ofBits_opField_iff w _).1 hop', harg⟩

/-! ### The decoding errors, in the order of R115 -/

theorem decodeAt_reservedOpcode (p : Port) {w : Word} (h : Opcode.ofBits (opField w) = none) :
    decodeAt p w = .error (.reservedEncoding w) := by simp [decodeAt, h]

theorem decodeAt_wrongPort {p : Port} {w : Word} {op : Opcode} (hop : opField w = op.bits) (hp : op.port ≠ p) :
    decodeAt p w = .error (.wrongPort p w) := by simp [decodeAt, hop, hp]

theorem decodeAt_reservedBits {w : Word} {op : Opcode} (hop : opField w = op.bits)
    (harg : argField w &&& ~~~op.argMask ≠ 0#32) : decodeAt op.port w = .error (.reservedEncoding w) := by
  simp [decodeAt, hop, harg]

end Sys2Proof
end

section
/-! SUPPORT. What a step makes of the word presented (R95, R115), the refusals of decoding (R107 to R109), and the
encodings of event words and status elements (R105, R106). -/

namespace Sys2Proof.Machine

/-! ### The word presented -/

/-- Settles O9: ENV's choice is taken off its list, and the word is the command it decodes to. -/
theorem stepRunsTheDecodedCommand : Obligations.StepRunsTheDecodedCommand := by
  unfold Obligations.StepRunsTheDecodedCommand
  intro s p w rest i hwf henv hdecode
  rw [step_wf hwf, envStep_cons henv]
  exact takeCommand_ok _ hdecode

/-- A word that does not decode is refused however it is presented. -/
theorem step_undecodable {s : State} {p : Port} {w : Word} {rest : List Action} {err : DecodeError}
    (hwf : s.cfg.wf = true) (henv : s.env = .issue p w :: rest ∨ s.env = .start p w :: rest)
    (herr : decodeAt p w = .error err) : step s = .refused (refusalOf err) := by
  rw [step_wf hwf]
  rcases henv with henv | henv <;> rw [envStep_cons henv] <;> exact takeCommand_error _ herr

/-- Settles O5: the four numbers are those that name no opcode. -/
theorem reservedOpcodeIsRefused : Obligations.ReservedOpcodeIsRefused := by
  unfold Obligations.ReservedOpcodeIsRefused
  intro s p w rest hwf hop henv
  exact step_undecodable hwf henv (decodeAt_reservedOpcode p ((Opcode.ofBits_eq_none_iff _).2 hop))

/-- Settles O6: a word with the row's opcode fails the row's mask by a reserved bit alone. -/
theorem reservedBitIsRefused : Obligations.ReservedBitIsRefused := by
  unfold Obligations.ReservedBitIsRefused
  intro s w rest row hrow hwf hop hmask henv
  obtain ⟨op, rfl⟩ := exists_row_of_mem hrow
  have hopcode : opField w = op.bits := hop.trans (opField_pattern op)
  have hbit : argField w &&& ~~~op.argMask ≠ 0#32 := fun h => hmask ((row_matches_iff op w).2 ⟨hopcode, h⟩)
  exact step_undecodable hwf henv (decodeAt_reservedBits hopcode hbit)

/-- Settles O7: the port is checked before any operand bit (R115). -/
theorem wrongPortIsRefused : Obligations.WrongPortIsRefused := by
  unfold Obligations.WrongPortIsRefused
  intro s p w rest row hrow hwf hop hport henv
  obtain ⟨op, rfl⟩ := exists_row_of_mem hrow
  have hopcode : opField w = op.bits := hop.trans (opField_pattern op)
  exact step_undecodable hwf henv (decodeAt_wrongPort hopcode hport)

/-- Settles O19: each agent's own finishing leaves it idle, where a second finishing changes nothing. -/
theorem busyPortFinishesFirst : Obligations.BusyPortFinishesFirst := by
  unfold Obligations.BusyPortFinishesFirst
  refine ⟨fun v s => ⟨?_, finishPush_isrIdle s⟩, ?_⟩
  · rw [execRbPush_eq, execRbPush_eq, finishPush_idle (finishPush_isrIdle s)]
  · intro i s t hport hfinish
    have hidle : t.pollIdle := (finishPoll_frame hfinish).2
    refine ⟨?_, hidle⟩
    rw [exec_consumer hport, onPoll, hfinish, andThen_next, exec_idle hport hidle]

/-! ### Event words -/

theorem Event.word_kind (w : Nat) (ev : Event) : (ev.word w).extractLsb' (w + 5) 3 = ev.kind := by
  have h4 : (w + 5) - w = 5 := by omega
  rw [Event.word, BitVec.extractLsb'_append_eq_of_le (by omega), h4, BitVec.extractLsb'_append_eq_of_le (by decide)]
  exact BitVec.extractLsb'_append_eq_left

theorem Event.word_encBit (w : Nat) (ev : Event) : (ev.word w).getLsbD (w + 4) = ev.encBit := by
  rw [Event.word, BitVec.getLsbD_append, if_neg (by omega), Nat.add_sub_cancel_left, BitVec.getLsbD_append,
    if_neg (by decide), BitVec.getLsbD_append]
  exact BitVec.getLsbD_ofBool _ 0

theorem Event.word_zeros (w : Nat) (ev : Event) : (ev.word w).extractLsb' w 4 = 0#4 := by
  rw [Event.word, BitVec.extractLsb'_append_eq_of_le le_rfl, Nat.sub_self]
  exact BitVec.extractLsb'_append_eq_right

theorem Event.word_delta (w : Nat) (ev : Event) : (ev.word w).extractLsb' 0 w = BitVec.ofInt w ev.delta :=
  BitVec.extractLsb'_append_eq_right

/-- Settles O12: the four fields of the word, read off for each event. -/
theorem eventWordLayout : Obligations.EventWordLayout := by
  unfold Obligations.EventWordLayout
  intro ev
  refine ⟨Event.word_zeros 8 ev, ?_, ?_, ?_, ?_, ?_⟩
  · rintro e d rfl
    exact ⟨Event.word_kind 8 _, Event.word_encBit 8 _, Event.word_delta 8 _⟩
  · rintro e rfl
    exact ⟨Event.word_kind 8 _, Event.word_encBit 8 _, Event.word_delta 8 _⟩
  · rintro e rfl
    exact ⟨Event.word_kind 8 _, Event.word_encBit 8 _, Event.word_delta 8 _⟩
  · rintro rfl
    rfl
  · rintro rfl
    rfl

/-! ### Status elements -/

theorem tapCountBits_neg_one (w : Nat) : tapCountBits w (-1) = BitVec.allOnes w := by
  have hpos : (0 : Int) < 2 ^ (w - 1) := Int.pow_pos (by decide)
  have hmin : min (-1) (2 ^ (w - 1) - 1 : Int) = -1 := min_eq_left (by omega)
  rw [tapCountBits, hmin, BitVec.ofInt_neg]
  exact BitVec.neg_one_eq_allOnes

/-- A count of taps reads back as itself or as the largest positive value, whichever is less (R106). -/
theorem tapCountBits_toInt {w : Nat} (hw : 0 < w) (n : Nat) :
    (tapCountBits w n).toInt = min (n : Int) (2 ^ (w - 1) - 1) := by
  have hpos : (0 : Int) < 2 ^ (w - 1) := Int.pow_pos (by decide)
  exact BitVec.toInt_ofInt_eq_self hw (by omega) (by omega)

/-- Settles O13: `latchedDir` by its three values; `tapCount` by the value its bits read back as. -/
theorem statusEncodings : Obligations.StatusEncodings := by
  unfold Obligations.StatusEncodings
  refine ⟨rfl, rfl, rfl, fun d => by cases d <;> decide, ?_⟩
  intro w hw
  have hread (n : Nat) := tapCountBits_toInt (Nat.zero_lt_of_lt hw) n
  exact ⟨tapCountBits_neg_one w, fun n hn => (hread n).trans (min_eq_left hn),
    fun n hn => (hread n).trans (min_eq_right hn)⟩

end Sys2Proof.Machine
end

section
/-! SUPPORT. The ring: a push by its micro-steps P1 and P2 (R125 to R127), a drain by C0, C1 and C2 (R128 to R132), and
which of the snapshots pushed in a row a drain still finds (R134, R135). -/

namespace Sys2Proof.Machine

/-- Settles O21: no command's meaning refuses, whichever port it belongs to. -/
theorem execNeverRefuses : Obligations.ExecNeverRefuses := by
  unfold Obligations.ExecNeverRefuses
  exact exec_ne_refused

/-! ### The next choice of ENV -/

theorem step_cons {s : State} {act : Action} {rest : List Action} (hwf : s.cfg.wf = true) (henv : s.env = act :: rest) :
    step s = runAction act (s.setEnv rest) := by rw [step_wf hwf, envStep_cons henv]

/-- The word of an encodable command, presented as one piece at the command's port, is the command. -/
theorem runAction_issue_encode {i : Instr} {p : Port} (hi : i.wf = true) (hp : i.port = p) (s : State) :
    runAction (.issue p (encode i)) s = exec i s := takeCommand_ok _ (hp ▸ decodeAt_encode hi)

theorem runAction_start_encode {i : Instr} {p : Port} (hi : i.wf = true) (hp : i.port = p) (s : State) :
    runAction (.start p (encode i)) s = startCommand i s := takeCommand_ok _ (hp ▸ decodeAt_encode hi)

/-! ### A push -/

theorem State.setIsr_eq_self {s : State} (h : s.isrIdle) : s.setIsr .idle = s := by rw [← h]; rfl

/-- The state after P1: the snapshot stands at `writeIdx`, and the push is in progress (R126). -/
def State.store (v : Snapshot) (s : State) : State :=
  (s.setRb { s.rb with slots := s.rb.slots.write s.rb.writeIdx v }).setIsr .wrote

theorem takeInterrupt_store (v : Snapshot) {s : State} (h : s.rb.writeIdx < s.cfg.cap) :
    takeInterrupt v s = .next (s.store v) := takeInterrupt_next h

theorem store_read_writeIdx (v : Snapshot) {s : State} (h : s.rb.slots.wf = true) :
    (s.store v).rb.slots.read s.rb.writeIdx = v :=
  (Memory.read_write _ _ _ v h).trans (if_pos rfl)

theorem store_read_of_ne (v : Snapshot) {s : State} {i : Nat} (h : s.rb.slots.wf = true) (hi : i ≠ s.rb.writeIdx) :
    (s.store v).rb.slots.read i = s.rb.slots.read i :=
  (Memory.read_write _ _ _ v h).trans (if_neg hi)

/-- With a push in progress ISR's next micro-step is P2 (R127). -/
theorem runAction_advance_isr {s : State} (h : s.isr = .wrote) :
    runAction (.advance .isr) s = .next (endInterrupt s) := congrArg Host.Outcome.next (finishPush_wrote h)

/-- RB.PUSH between pushes: P1, then P2 (R125). -/
theorem execRbPush_idle (v : Snapshot) {s : State} (hisr : s.isrIdle) (hw : s.rb.writeIdx < s.cfg.cap) :
    exec (.rbPush v) s = .next (endInterrupt (s.store v)) := by
  rw [execRbPush_eq, finishPush_idle hisr, takeInterrupt_store v hw, andThen_next]

/-- Settles O24: P1 writes the slot at `writeIdx` only, P2 the index only, and ISR is between pushes again. -/
theorem pushStoresAndAdvances : Obligations.PushStoresAndAdvances := by
  unfold Obligations.PushStoresAndAdvances
  intro v s hisr hw hslots
  exact ⟨_, execRbPush_idle v hisr hw, store_read_writeIdx v hslots, fun i hi => store_read_of_ne v hslots hi, rfl,
    State.setIsr_eq_self hisr⟩

/-- Settles O25: the step presents the push and makes P1, and ISR's next one is P2. -/
theorem pushMicroSteps : Obligations.PushMicroSteps := by
  unfold Obligations.PushMicroSteps
  constructor
  · intro v s rest hwf hisr hw hslots henv
    refine ⟨(s.setEnv rest).store v, ?_, rfl, store_read_writeIdx v hslots, fun i hi => store_read_of_ne v hslots hi,
      rfl⟩
    rw [step_cons hwf henv, runAction_start_encode (i := .rbPush v) (p := .producer) rfl rfl, startCommand,
      finishPush_idle (s := s.setEnv rest) hisr, takeInterrupt_store v (s := s.setEnv rest) hw]
  · intro s rest hwf hisr henv
    refine ⟨endInterrupt (s.setEnv rest), ?_, rfl, rfl, rfl⟩
    rw [step_cons hwf henv, runAction_advance_isr (s := s.setEnv rest) hisr]

/-- Settles O26: P1 leaves a push in progress, so that ISR's next micro-step is P2; where P1 faults, both do. -/
theorem pushIsP1ThenP2 : Obligations.PushIsP1ThenP2 := by
  unfold Obligations.PushIsP1ThenP2
  intro v s hwf
  rw [runActions_cons hwf, runActions_cons hwf, runAction_issue_encode (i := .rbPush v) (p := .producer) rfl rfl,
    runAction_start_encode (i := .rbPush v) (p := .producer) rfl rfl, execRbPush_eq, startCommand, andThen_assoc]
  rcases takeInterrupt_cases v (finishPush s) with ⟨_, hP1⟩ | ⟨_, hP1⟩
  · have hwf' : ((finishPush s).store v).cfg.wf = true := (finishPush_frame s).cfg ▸ hwf
    have hP2 : runActions [.advance .isr] ((finishPush s).store v) = .next (endInterrupt ((finishPush s).store v)) := by
      rw [runActions_cons hwf', runAction_advance_isr rfl]
      rfl
    rw [hP1]
    exact hP2.symm
  · rw [hP1]
    rfl

/-! ### A drain -/

theorem execRbDrain_idle {s : State} (h : s.pollIdle) : exec .rbDrain s = drainRing s := exec_idle rfl h

theorem State.setDrain_eq_self {s : State} (h : s.drain = .notDraining) : s.setDrain .notDraining = s := by
  rw [← h]; rfl

/-- Settles O27: with room for every unread snapshot the drain runs to the bound that C0 sampled, `writeIdx`. -/
theorem drainDeliversTheUnread : Obligations.DrainDeliversTheUnread := by
  unfold Obligations.DrainDeliversTheUnread
  intro s hidle hw hr hroom
  exact ⟨_, (execRbDrain_idle hidle).trans (drainRing_delivers hr hw hroom), rfl, drainedState_enc s _ _,
    State.setDrain_eq_self hidle.1⟩

/-- The first micro-step of RB.DRAIN, POLL being between operations, is C0 (R129). -/
theorem runAction_start_drain {s : State} (h : s.pollIdle) :
    runAction (.start .consumer (encode .rbDrain)) s = .next (drainC0 s) := by
  rw [runAction_start_encode (i := .rbDrain) (p := .consumer) rfl rfl, startCommand, onPoll_idle _ h]

theorem pollStep_holding {w : Nat} {v : Snapshot} {s : State} (hd : s.drain = .holding w v)
    (hroom : ∀ e, (s.enc e).hasRoom s.cfg 1) : pollStep s = .next (popSlot w (deliverTo v s)) := by
  have hC2 : pollStep s = drainC2 w v s := by simp [pollStep, hd]
  rw [hC2, drainC2, deliver_next hroom, andThen_next]

/-- Settles O28: C0 is the first micro-step of the command; C1 and C2 are POLL's next one, by the stage of the drain. -/
theorem drainMicroSteps : Obligations.DrainMicroSteps := by
  unfold Obligations.DrainMicroSteps
  refine ⟨?_, ?_, ?_⟩
  · intro s rest hwf hidle henv
    rw [step_cons hwf henv, runAction_start_drain (s := s.setEnv rest) hidle]
    rfl
  · intro s w rest hwf hd hr henv
    rw [step_cons hwf henv]
    exact pollStep_draining (s := s.setEnv rest) hd hr
  · intro s w v rest hwf hd hroom henv
    refine ⟨popSlot w (deliverTo v (s.setEnv rest)), ?_, rfl, rfl, rfl, rfl, rfl⟩
    rw [step_cons hwf henv]
    exact pollStep_holding (s := s.setEnv rest) hd fun e => State.setEnv_enc s rest e ▸ hroom e

/-- Settles O29: after C0 a good drain has a definite number of micro-steps left, and they come to the same end. -/
theorem drainIsBoundedMicroSteps : Obligations.DrainIsBoundedMicroSteps := by
  unfold Obligations.DrainIsBoundedMicroSteps
  intro s t hs hidle h
  rw [execRbDrain_idle hidle] at h
  have hC0 : State.Good (drainC0 s) := drainC0_inv hs
  refine ⟨drainLeft (drainC0 s), drainLeft_le hC0.drainGood, ?_⟩
  rw [runActions_cons hs.cfg, runAction_start_drain hidle, andThen_next, runActions_drainLeft hC0 h]

/-! ### Pushes in a row -/

/-- The unread snapshots after one more push: the new one behind the others, or none where it fills the last slot and
`writeIdx` comes round to `readIdx` (R134). -/
def pushUnread (cap : Nat) (q : List Snapshot) (v : Snapshot) : List Snapshot :=
  if q.length + 1 < cap then q ++ [v] else []

/-- With no slot to spare, the writer moving on catches up with the reader. -/
theorem inc_of_slotsTo_full {cap r w : Nat} (hr : r < cap) (hw : w < cap) (h : slotsTo cap r w + 1 = cap) :
    inc cap w = r := by
  rw [← add_slotsTo_mod hr hw, inc, Nat.mod_add_mod, Nat.add_assoc, h, Nat.add_mod_right, Nat.mod_eq_of_lt hr]

theorem unread_eq_nil {s : State} (h : s.rb.readIdx = s.rb.writeIdx) : s.unread = [] := by
  rw [← List.length_eq_zero_iff, unread_length, h, slotsTo, Nat.add_sub_cancel_left, Nat.mod_self]

/-- What is unread after a push, whether or not it finds a slot to spare (R82, R134). -/
theorem unread_push_eq (v : Snapshot) {s : State} (hs : State.Good s) (hisr : s.isrIdle) :
    (endInterrupt (s.store v)).unread = pushUnread s.cfg.cap s.unread v := by
  have hlen := unread_length s
  have hlt : slotsTo s.cfg.cap s.rb.readIdx s.rb.writeIdx < s.cfg.cap := slotsTo_lt (Nat.zero_lt_of_lt hs.rb.read_lt)
  unfold pushUnread
  split
  · obtain ⟨t, ht, hunread⟩ := unread_push (v := v) hs hisr (by omega)
    rw [execRbPush_idle v hisr hs.rb.write_lt] at ht
    cases ht
    exact hunread
  · have hfull : slotsTo s.cfg.cap s.rb.readIdx s.rb.writeIdx + 1 = s.cfg.cap := by omega
    exact unread_eq_nil (inc_of_slotsTo_full hs.rb.read_lt hs.rb.write_lt hfull).symm

/-- What pushing `vs` one after the other makes of a state. -/
structure PushedAll (vs : List Snapshot) (s t : State) : Prop where
  good : State.Good t
  frame : IsrFrame s t
  writeIdx : t.rb.writeIdx = (s.rb.writeIdx + vs.length) % s.cfg.cap
  unread : t.unread = vs.foldl (pushUnread s.cfg.cap) s.unread

/-- Pushes in a row all run, however many there are (R138). -/
theorem runCommands_push (vs : List Snapshot) {s : State} (hs : State.Good s) (hisr : s.isrIdle) :
    ∃ t, runCommands (vs.map .rbPush) s = .next t ∧ PushedAll vs s t := by
  induction vs generalizing s with
  | nil => exact ⟨s, rfl, hs, IsrFrame.refl s, (Nat.mod_eq_of_lt hs.rb.write_lt).symm, rfl⟩
  | cons v vs ih =>
    have hpush := execRbPush_idle v hisr hs.rb.write_lt
    obtain ⟨t, ht, hgood, hframe, hwrite, hunread⟩ := ih (exec_inv hs hpush) (endInterrupt_isr _)
    refine ⟨t, ?_, hgood, (execRbPush_frame hpush).trans hframe, ?_, ?_⟩
    · rw [List.map_cons, runCommands, hpush, andThen_next, ht]
    · rw [hwrite, List.length_cons, Nat.add_comm vs.length 1, ← Nat.add_assoc]
      exact Nat.mod_add_mod _ _ _
    · rw [hunread, unread_push_eq v hs hisr]
      rfl

/-- The last `k mod CAP` of `k` snapshots (R135). -/
def lastLap (cap : Nat) (vs : List Snapshot) : List Snapshot := vs.drop (vs.length - vs.length % cap)

theorem lastLap_length (cap : Nat) (vs : List Snapshot) : (lastLap cap vs).length = vs.length % cap := by
  have := Nat.mod_le vs.length cap
  rw [lastLap, List.length_drop]
  omega

/-- One snapshot more is one more of the lap, or ends it. -/
theorem lastLap_append (cap : Nat) (vs : List Snapshot) (v : Snapshot) (hcap : 0 < cap) :
    lastLap cap (vs ++ [v]) = pushUnread cap (lastLap cap vs) v := by
  have hlt := Nat.mod_lt vs.length hcap
  have hle := Nat.mod_le vs.length cap
  have hmod : (vs.length + 1) % cap = (vs.length % cap + 1) % cap := (Nat.mod_add_mod _ _ _).symm
  rw [pushUnread, lastLap_length, lastLap, List.length_append, List.length_singleton, hmod]
  split
  · rename_i h
    rw [Nat.mod_eq_of_lt h, Nat.add_sub_add_right, List.drop_append_of_le_length (Nat.sub_le _ _), lastLap]
  · have hfull : vs.length % cap + 1 = cap := by omega
    rw [hfull, Nat.mod_self]
    exact List.drop_of_length_le (by simp)

/-- Pushed into an empty ring, the snapshots that are still unread are those of the last lap (R134, R135). -/
theorem foldl_pushUnread {cap : Nat} (hcap : 0 < cap) (vs : List Snapshot) :
    vs.foldl (pushUnread cap) [] = lastLap cap vs := by
  induction vs using List.reverseRecOn with
  | nil => rfl
  | append_singleton vs v ih => rw [List.foldl_concat, ih, lastLap_append cap vs v hcap]

/-- Settles O31: the pushes leave the last lap unread, for which the decoders have room, and the drain delivers it. -/
theorem drainAfterPushesDeliversLastLap : Obligations.DrainAfterPushesDeliversLastLap := by
  unfold Obligations.DrainAfterPushesDeliversLastLap
  intro s vs hs hisr hidle hempty hroom
  obtain ⟨t, hpush, hgood, hframe, hwrite, hunread⟩ := runCommands_push vs hs hisr
  rw [unread_eq_nil hempty, foldl_pushUnread (Nat.zero_lt_of_lt hs.rb.read_lt)] at hunread
  have hidle' : t.pollIdle := ⟨hframe.drain.trans hidle.1, hframe.pollRest.trans hidle.2⟩
  have hroom' : ∀ e, (t.enc e).hasRoom t.cfg t.unread.length := fun e => by
    rw [hframe.enc e, hframe.cfg, hunread, lastLap_length]
    exact hroom e
  refine ⟨t, drainedState t t.rb.writeIdx t.unread, hpush, ?_, ?_, rfl, hwrite, hframe.events⟩
  · rw [execRbDrain_idle hidle', drainRing_delivers hgood.rb.read_lt hgood.rb.write_lt hroom']
  · intro e
    rw [drainedState_enc, hframe.enc e, hunread, lastLap]

end Sys2Proof.Machine
end

section
/-! SUPPORT. One sample of a decoder: when it commits a step or latches a direction, and ENC.PINS as the sample it
performs (R140 to R146, R152). -/

namespace Sys2Proof.Machine

/-! ### The conditions of a sample -/

theorem consistent_iff (l : Dir) (pa pb : Bool) : consistent l pa pb = true ↔
    (l = .pos ∧ pa = false ∧ pb = true) ∨ (l = .neg ∧ pa = true ∧ pb = false) := by
  cases l <;> simp [consistent]

/-- A commit of R141, with R143 written out; a consistent latch is never zero. -/
theorem Encoder.commits_iff (x : Encoder) (a b : Bool) : x.commits a b = true ↔
    a = true ∧ b = true ∧ ¬ (x.prevA = true ∧ x.prevB = true) ∧
      ((x.latchedDir = .pos ∧ x.prevA = false ∧ x.prevB = true) ∨
       (x.latchedDir = .neg ∧ x.prevA = true ∧ x.prevB = false)) := by
  have hlatched : consistent x.latchedDir x.prevA x.prevB = true → x.latchedDir ≠ .zero := by
    rw [consistent_iff]
    rintro (⟨h, _⟩ | ⟨h, _⟩) <;> rw [h] <;> decide
  rw [← consistent_iff, ← Bool.and_eq_true, Bool.not_eq_true, ← Bool.not_eq_true']
  simp only [Encoder.commits, commitCond, Bool.and_eq_true, decide_eq_true_eq]
  exact ⟨fun ⟨⟨⟨⟨ha, hb⟩, hrest⟩, _⟩, hc⟩ => ⟨ha, hb, hrest, hc⟩,
    fun ⟨ha, hb, hrest, hc⟩ => ⟨⟨⟨⟨ha, hb⟩, hrest⟩, hlatched hc⟩, hc⟩⟩

theorem latchPos_iff (a b pa pb : Bool) :
    latchPos a b pa pb = true ↔ pa = true ∧ pb = true ∧ a = true ∧ b = false := by
  simp [latchPos, and_assoc]

theorem latchNeg_iff (a b pa pb : Bool) :
    latchNeg a b pa pb = true ↔ pa = true ∧ pb = true ∧ a = false ∧ b = true := by
  simp [latchNeg, and_assoc]

/-- A commit clears the latch; another sample sets it as R142 says or leaves it (R145). -/
theorem Encoder.onPins_latchedDir (x : Encoder) (a b : Bool) : (x.onPins a b).latchedDir =
    if x.commits a b then .zero else if latchPos a b x.prevA x.prevB then .pos
    else if latchNeg a b x.prevA x.prevB then .neg else x.latchedDir := by
  unfold Encoder.onPins; repeat' split
  all_goals rfl

/-- A sample equal to the previous one commits nothing (R152). -/
theorem Encoder.not_commits_same (x : Encoder) : ¬ x.commits x.prevA x.prevB = true := by
  rw [Encoder.commits_iff]
  exact fun ⟨ha, hb, hne, _⟩ => hne ⟨ha, hb⟩

/-! ### ENC.PINS as a command -/

theorem execEncPins_idle {e : EncIdx} {a b : Bool} {s : State} (h : s.pollIdle) :
    exec (.encPins e a b) s = encPins e a b s := exec_idle rfl h

/-- Settles O33: ENC.PINS performs the sample unless it commits out of range, and each field after a sample is known. -/
theorem pinsLatchThenCommit : Obligations.PinsLatchThenCommit := by
  unfold Obligations.PinsLatchThenCommit
  intro e a b s hidle x commit hrange
  have hcommit : x.commits a b = true ↔ commit := x.commits_iff a b
  refine ⟨s.setEnc e (x.onPins a b), ?_, ?_⟩
  · rw [execEncPins_idle hidle]
    exact encPins_next fun h => hrange (hcommit.1 h)
  · simp only [State.setEnc_enc_same, State.setEnc_setEnc, Encoder.onPins_pendingDelta, Encoder.onPins_latchedDir,
      hcommit, latchPos_iff, latchNeg_iff]
    exact ⟨x.onPins_prevA a b, x.onPins_prevB a b, x.onPins_prevPressed a b, fun h => ⟨if_pos h, if_pos h⟩,
      fun h => ⟨if_neg h, if_neg h⟩, State.setEnc_self s e⟩

/-- Settles O34: the rest sample commits the latched step, for which the range has no room. -/
theorem commitOutOfRangeFaults : Obligations.CommitOutOfRangeFaults := by
  unfold Obligations.CommitOutOfRangeFaults
  intro e s hidle x h
  have hcommit : x.commits true true = true := by
    rw [Encoder.commits_iff]
    rcases h with ⟨hl, ha, hb, _⟩ | ⟨hl, ha, hb, _⟩ <;> simp [hl, ha, hb]
  rw [execEncPins_idle hidle]
  refine encPins_fault hcommit ?_
  change ¬ (s.cfg.deltaMin ≤ x.pendingDelta + x.latchedDir.toInt ∧ x.pendingDelta + x.latchedDir.toInt ≤ s.cfg.deltaMax)
  rcases h with ⟨hl, _, _, hd⟩ | ⟨hl, _, _, hd⟩ <;> rw [hl, Dir.toInt] <;> omega

/-- Settles O35: such a sample commits nothing, so ENC.PINS runs, and it leaves the decoder as it was. -/
theorem repeatedSampleChangesNothing : Obligations.RepeatedSampleChangesNothing := by
  unfold Obligations.RepeatedSampleChangesNothing
  intro e s hidle
  rw [execEncPins_idle hidle, encPins_next fun h => absurd h (s.enc e).not_commits_same, Encoder.onPins_same,
    State.setEnc_self]

end Sys2Proof.Machine
end

section
/-! SUPPORT. Samples of one decoder in a row: detents, bounces and half movements, and movements with a sample missed
(R149 to R153). -/

namespace Sys2Proof.Machine

/-! ### Samples in a row -/

/-- The ENC.PINS commands that present the samples to decoder `e`, first sample first. -/
def pinCommands (e : EncIdx) (ps : List (Bool × Bool)) : List Instr := ps.map fun p => .encPins e p.1 p.2

/-- What the samples do to a decoder, on unbounded integers. -/
def Encoder.onSamples (x : Encoder) : List (Bool × Bool) → Encoder
  | [] => x
  | p :: ps => (x.onPins p.1 p.2).onSamples ps

/-- Every commit that the samples make on the way is in range (R146). -/
def Encoder.CommitsInRange (c : Config) (x : Encoder) : List (Bool × Bool) → Prop
  | [] => True
  | p :: ps =>
    (x.commits p.1 p.2 = true →
      c.deltaMin ≤ x.pendingDelta + x.latchedDir.toInt ∧ x.pendingDelta + x.latchedDir.toInt ≤ c.deltaMax) ∧
    (x.onPins p.1 p.2).CommitsInRange c ps

theorem setEnc_pollIdle {s : State} (h : s.pollIdle) (e : EncIdx) (x : Encoder) : (s.setEnc e x).pollIdle :=
  ⟨(State.setEnc_drain s e x).trans h.1, (State.setEnc_pollRest s e x).trans h.2⟩

/-- Samples in a row run unless a commit among them is out of range. -/
theorem runCommands_pins {e : EncIdx} {ps : List (Bool × Bool)} {s : State} (hidle : s.pollIdle)
    (h : (s.enc e).CommitsInRange s.cfg ps) :
    runCommands (pinCommands e ps) s = .next (s.setEnc e ((s.enc e).onSamples ps)) := by
  induction ps generalizing s with
  | nil => exact congrArg Host.Outcome.next (State.setEnc_self s e).symm
  | cons p ps ih =>
    obtain ⟨hp, hps⟩ := h
    have hrest := ih (setEnc_pollIdle hidle e ((s.enc e).onPins p.1 p.2)) (by simpa using hps)
    rw [State.setEnc_enc_same, State.setEnc_setEnc] at hrest
    rw [pinCommands, List.map_cons, runCommands, execEncPins_idle hidle, encPins_next hp, andThen_next]
    exact hrest

/-- Samples that have run have done what they do on unbounded integers. -/
theorem runCommands_pins_eq_next {e : EncIdx} {ps : List (Bool × Bool)} {s t : State} (hidle : s.pollIdle)
    (h : runCommands (pinCommands e ps) s = .next t) : t = s.setEnc e ((s.enc e).onSamples ps) := by
  induction ps generalizing s with
  | nil => exact (Host.Outcome.next.inj h).symm.trans (State.setEnc_self s e).symm
  | cons p ps ih =>
    obtain ⟨u, hu, ht⟩ := andThen_eq_next h
    rw [execEncPins_idle hidle] at hu
    cases encPins_eq_next hu
    rw [ih (setEnc_pollIdle hidle e _) ht, State.setEnc_enc_same, State.setEnc_setEnc, Encoder.onSamples]

/-! ### Movements from rest -/

/-- The direction of a movement, positive for `true`: phase A falls first (R149, R150). -/
def Dir.ofBool (up : Bool) : Dir := if up then .pos else .neg

/-- The samples of a detent: one phase falls, the other too, the first rises, and both are high again (R149, R150). -/
def detent (up : Bool) : List (Bool × Bool) := [(up, !up), (false, false), (!up, up), (true, true)]

/-- One phase bounces (R151 (a)). -/
def bounce (up : Bool) : List (Bool × Bool) := [(up, !up), (true, true)]

/-- Half a detent and back (R151 (b)). -/
def halfAndBack (up : Bool) : List (Bool × Bool) := [(up, !up), (false, false), (up, !up), (true, true)]

/-- A detent with a bounce in its middle (R151 (c)). -/
def detentWithBounce (up : Bool) : List (Bool × Bool) :=
  [(up, !up), (false, false), (!up, up), (false, false), (!up, up), (true, true)]

/-- A detent of which the first, the second or the third sample is missed (R153). -/
def missedSample (up : Bool) : List (List (Bool × Bool)) :=
  [(detent up).eraseIdx 0, (detent up).eraseIdx 1, (detent up).eraseIdx 2]

/-- The samples run and take the decoder to latch `l` and delta `d`, with nothing else of it changed. -/
def Encoder.Moves (c : Config) (x : Encoder) (ps : List (Bool × Bool)) (l : Dir) (d : Int) : Prop :=
  x.CommitsInRange c ps ∧ x.onSamples ps = { x with latchedDir := l, pendingDelta := d }

theorem runCommands_moves {e : EncIdx} {ps : List (Bool × Bool)} {l : Dir} {d : Int} {s : State} (hidle : s.pollIdle)
    (h : (s.enc e).Moves s.cfg ps l d) :
    runCommands (pinCommands e ps) s = .next (s.setEnc e { s.enc e with latchedDir := l, pendingDelta := d }) := by
  rw [runCommands_pins hidle h.1, h.2]

/-- A decoder at rest, field by field. -/
theorem Encoder.eq_of_rest {x : Encoder} (ha : x.prevA = true) (hb : x.prevB = true) :
    x = ⟨true, true, x.latchedDir, x.pendingDelta, x.prevPressed⟩ := by
  obtain ⟨pa, pb, l, d, p⟩ := x
  cases ha
  cases hb
  rfl

section
variable {c : Config} {x : Encoder} (ha : x.prevA = true) (hb : x.prevB = true) (up : Bool)
include ha hb

/-- Only the last sample commits, and it commits the direction that the first one latched (R149, R150). -/
theorem Encoder.moves_detent (h : c.deltaMin ≤ x.pendingDelta + (Dir.ofBool up).toInt ∧
    x.pendingDelta + (Dir.ofBool up).toInt ≤ c.deltaMax) :
    x.Moves c (detent up) .zero (x.pendingDelta + (Dir.ofBool up).toInt) := by
  rw [Encoder.eq_of_rest ha hb]
  cases up <;> exact ⟨⟨nofun, nofun, nofun, fun _ => h, trivial⟩, rfl⟩

theorem Encoder.moves_detentWithBounce (h : c.deltaMin ≤ x.pendingDelta + (Dir.ofBool up).toInt ∧
    x.pendingDelta + (Dir.ofBool up).toInt ≤ c.deltaMax) :
    x.Moves c (detentWithBounce up) .zero (x.pendingDelta + (Dir.ofBool up).toInt) := by
  rw [Encoder.eq_of_rest ha hb]
  cases up <;> exact ⟨⟨nofun, nofun, nofun, nofun, nofun, fun _ => h, trivial⟩, rfl⟩

theorem Encoder.moves_bounce : x.Moves c (bounce up) (Dir.ofBool up) x.pendingDelta := by
  rw [Encoder.eq_of_rest ha hb]
  cases up <;> exact ⟨⟨nofun, nofun, trivial⟩, rfl⟩

theorem Encoder.moves_halfAndBack : x.Moves c (halfAndBack up) (Dir.ofBool up) x.pendingDelta := by
  rw [Encoder.eq_of_rest ha hb]
  cases up <;> exact ⟨⟨nofun, nofun, nofun, nofun, trivial⟩, rfl⟩

/-- Whatever was latched, the samples that are left of a detent commit its direction or nothing (R153). -/
theorem Encoder.onSamples_missedSample {ps : List (Bool × Bool)} (hps : ps ∈ missedSample up) :
    (x.onSamples ps).pendingDelta = x.pendingDelta ∨
      (x.onSamples ps).pendingDelta = x.pendingDelta + (Dir.ofBool up).toInt := by
  rw [Encoder.eq_of_rest ha hb]
  simp only [missedSample, List.mem_cons, List.not_mem_nil, or_false] at hps
  generalize x.latchedDir = l
  rcases hps with rfl | rfl | rfl
  · exact match up, l with
      | true, .pos | false, .neg => .inr rfl
      | true, .neg | false, .pos | true, .zero | false, .zero => .inl rfl
  · exact .inr (by cases up <;> rfl)
  · exact .inl (by cases up <;> rfl)

end

/-- Settles O36: the samples are those of a detent in each direction. -/
theorem detentCountsOneStep : Obligations.DetentCountsOneStep := by
  unfold Obligations.DetentCountsOneStep
  intro e s hidle ha hb
  exact ⟨fun hle hge => runCommands_moves hidle (Encoder.moves_detent ha hb true ⟨hge, hle⟩),
    fun hle hge => runCommands_moves hidle (Encoder.moves_detent ha hb false ⟨hge, hle⟩)⟩

/-- Settles O37: the three movements in each direction, of which only the last commits. -/
theorem partialMovementIsRejected : Obligations.PartialMovementIsRejected := by
  unfold Obligations.PartialMovementIsRejected
  intro e s hidle ha hb
  exact ⟨runCommands_moves hidle (Encoder.moves_bounce ha hb true),
    runCommands_moves hidle (Encoder.moves_bounce ha hb false),
    runCommands_moves hidle (Encoder.moves_halfAndBack ha hb true),
    runCommands_moves hidle (Encoder.moves_halfAndBack ha hb false),
    fun h => runCommands_moves hidle (Encoder.moves_detentWithBounce ha hb true h),
    fun h => runCommands_moves hidle (Encoder.moves_detentWithBounce ha hb false h)⟩

theorem runCommands_missedSample {e : EncIdx} {s t : State} (hidle : s.pollIdle) (ha : (s.enc e).prevA = true)
    (hb : (s.enc e).prevB = true) (up : Bool) {ps : List (Bool × Bool)} (hps : ps ∈ missedSample up)
    (h : runCommands (pinCommands e ps) s = .next t) :
    (t.enc e).pendingDelta = (s.enc e).pendingDelta ∨
      (t.enc e).pendingDelta = (s.enc e).pendingDelta + (Dir.ofBool up).toInt := by
  rw [runCommands_pins_eq_next hidle h, State.setEnc_enc_same]
  exact Encoder.onSamples_missedSample ha hb up hps

/-- Settles O38: each run is a detent with one of its first three samples missed. -/
theorem missedSampleNeverReverses : Obligations.MissedSampleNeverReverses := by
  unfold Obligations.MissedSampleNeverReverses
  intro e s t hidle ha hb
  have hmissed (up : Bool) (i : Fin 3) (h : runCommands (pinCommands e ((missedSample up)[i])) s = .next t) :=
    runCommands_missedSample hidle ha hb up (List.getElem_mem i.isLt) h
  refine ⟨?_, ?_⟩
  · rintro (h | h | h)
    exacts [hmissed true 0 h, hmissed true 1 h, hmissed true 2 h]
  · rintro (h | h | h)
    exacts [hmissed false 0 h, hmissed false 1 h, hmissed false 2 h]

end Sys2Proof.Machine
end

section
/-! SUPPORT. ENC.DRAIN and ENC.BTN as commands (R147, R148), and what an operation on one decoder makes of the other
(R154). -/

namespace Sys2Proof.Machine

/-! ### ENC.DRAIN and ENC.BTN as commands -/

/-- An operation that writes one decoder and emits events changes nothing else. -/
theorem setEnc_emit_frame (s : State) (e : EncIdx) (x : Encoder) (evs : List Event) :
    { ((s.setEnc e x).emit evs).setEnc e (s.enc e) with events := s.events } = s := by cases e <;> rfl

/-- Settles O39: the turn event is that of the delta, which is then zero. -/
theorem encDrainReportsAndClears : Obligations.EncDrainReportsAndClears := by
  unfold Obligations.EncDrainReportsAndClears
  intro e s hidle
  exact ⟨encDrain e s, exec_idle rfl hidle, encDrain_events e s, encDrain_enc_same e s, setEnc_emit_frame s e _ _⟩

theorem buttonEvents_eq (e : EncIdx) (prev level : Bool) : buttonEvents e prev level =
    if level = prev then [] else if level = true then [.press e] else [.release e] := by
  cases level <;> rfl

/-- Settles O40: the event is that of the level, which is then recorded. -/
theorem buttonChangeIsReported : Obligations.ButtonChangeIsReported := by
  unfold Obligations.ButtonChangeIsReported
  intro e level s hidle
  refine ⟨encBtn e level s, exec_idle rfl hidle, ?_, encBtn_enc_same e level s, setEnc_emit_frame s e _ _⟩
  rw [encBtn_events, buttonEvents_eq]

/-! ### The other decoder -/

section
variable {e f : EncIdx} (hne : f ≠ e) (x : Encoder) (s : State)
include hne

/-- Writes to the two decoders can be exchanged. -/
theorem State.setEnc_comm (y : Encoder) : (s.setEnc f x).setEnc e y = (s.setEnc e y).setEnc f x := by
  exact match e, f, hne with
    | .enc0, .enc1, _ | .enc1, .enc0, _ => rfl
    | .enc0, .enc0, h | .enc1, .enc1, h => absurd rfl h

theorem encPins_setEnc_other (a b : Bool) : CarriesThrough (State.setEnc · f x) (encPins e a b) s := by
  unfold CarriesThrough encPins
  rw [State.setEnc_enc_other s x hne.symm, State.setEnc_cfg, State.setEnc_comm hne]
  split <;> rfl

theorem setEnc_emit_comm (y : Encoder) (evs : List Event) :
    ((s.setEnc f x).setEnc e y).emit evs = ((s.setEnc e y).emit evs).setEnc f x := by
  rw [State.setEnc_comm hne]
  cases f <;> rfl

theorem encDrain_setEnc_other : encDrain e (s.setEnc f x) = (encDrain e s).setEnc f x := by
  rw [encDrain, State.setEnc_enc_other s x hne.symm, setEnc_emit_comm hne, encDrain]

theorem encBtn_setEnc_other (level : Bool) : encBtn e level (s.setEnc f x) = (encBtn e level s).setEnc f x := by
  rw [encBtn, State.setEnc_enc_other s x hne.symm, setEnc_emit_comm hne, encBtn]

end

/-- Settles O41: each of the three commands reads and writes its own decoder only. -/
theorem encodersAreIndependent : Obligations.EncodersAreIndependent := by
  unfold Obligations.EncodersAreIndependent
  intro e f a b level x s hne hidle i hi
  have hcommand : i = .encPins e a b ∨ i = .encDrain e ∨ i = .encBtn e level := by simpa using hi
  have hport : i.port = .consumer := by rcases hcommand with rfl | rfl | rfl <;> rfl
  rw [exec_idle hport hidle, exec_idle hport (setEnc_pollIdle hidle f x)]
  rcases hcommand with rfl | rfl | rfl
  · refine ⟨encPins_setEnc_other hne x s a b, fun t ht => ?_⟩
    rw [encPins_eq_next ht, State.setEnc_enc_other s _ hne]
  · refine ⟨congrArg Host.Outcome.next (encDrain_setEnc_other hne x s), fun t ht => ?_⟩
    cases ht
    exact encDrain_enc_other s hne
  · refine ⟨congrArg Host.Outcome.next (encBtn_setEnc_other hne x s level), fun t ht => ?_⟩
    cases ht
    exact encBtn_enc_other level s hne

end Sys2Proof.Machine
end

section
/-! SUPPORT. A POLL from deltas at zero never commits out of range (R146, its last clause): a commit takes three samples
of its own, but for the first of a drain, and one drain has at most `CAP - 1` of them. -/

namespace Sys2Proof.Machine

/-! ### How far a decoder is from its next commit -/

/-- How many of the three samples of a commit the decoder has had: none at rest, two when the rest sample would commit,
one otherwise (R141 to R143). -/
def Encoder.progress (x : Encoder) : Int :=
  if x.prevA && x.prevB then 0 else if consistent x.latchedDir x.prevA x.prevB then 2 else 1

theorem Encoder.progress_le (x : Encoder) : x.progress ≤ 2 := by
  unfold Encoder.progress; repeat' split
  all_goals decide

theorem Encoder.progress_pos {x : Encoder} (h : ¬ (x.prevA && x.prevB) = true) : 1 ≤ x.progress := by
  rw [Encoder.progress, if_neg h]; split <;> decide

/-- A commit is the third sample, and the decoder is at rest again. -/
theorem Encoder.progress_of_commits {x : Encoder} {a b : Bool} (h : x.commits a b = true) :
    x.progress = 2 ∧ (x.onPins a b).progress = 0 := by
  obtain ⟨rfl, rfl, hrest, hc⟩ := (x.commits_iff a b).1 h
  have hc' : consistent x.latchedDir x.prevA x.prevB = true := (consistent_iff _ _ _).2 hc
  rw [← Bool.and_eq_true] at hrest
  exact ⟨by rw [Encoder.progress, if_neg hrest, if_pos hc'], by simp [Encoder.progress]⟩

/-- A sample that leaves rest through one phase latches the direction that the other phase is to confirm. -/
theorem Encoder.not_consistent_of_rest {x : Encoder} (hrest : (x.prevA && x.prevB) = true) (a b : Bool) :
    ¬ consistent (x.onPins a b).latchedDir a b = true := by
  obtain ⟨pa, pb, l, d, p⟩ := x
  obtain ⟨rfl, rfl⟩ : pa = true ∧ pb = true := by simpa using hrest
  cases a <;> cases b <;> cases l <;> exact nofun

/-- A sample is one more of its commit at most. -/
theorem Encoder.progress_onPins_le (x : Encoder) (a b : Bool) : (x.onPins a b).progress ≤ x.progress + 1 := by
  by_cases hrest : (x.prevA && x.prevB) = true
  · have hx : x.progress = 0 := by rw [Encoder.progress, if_pos hrest]
    rw [hx, Encoder.progress, Encoder.onPins_prevA, Encoder.onPins_prevB,
      if_neg (Encoder.not_consistent_of_rest hrest a b)]
    split <;> decide
  · have := Encoder.progress_pos hrest
    have := (x.onPins a b).progress_le
    omega

/-! ### Room for samples -/

/-- Whatever the next `k` samples are, the commits among them keep the delta in range: three samples pay for a step, and
`progress` of them are paid. -/
def Encoder.hasSampleRoom (c : Config) (k : Nat) (x : Encoder) : Prop :=
  3 * |x.pendingDelta| + x.progress + k ≤ 3 * c.deltaMax + 2

theorem Encoder.commit_in_range {c : Config} {k : Nat} {x : Encoder} {a b : Bool} (h : x.hasSampleRoom c (k + 1))
    (hc : x.commits a b = true) :
    c.deltaMin ≤ x.pendingDelta + x.latchedDir.toInt ∧ x.pendingDelta + x.latchedDir.toInt ≤ c.deltaMax := by
  have hp := (Encoder.progress_of_commits hc).1
  have hl := x.latchedDir.toInt_bounds
  have hmin : c.deltaMin = -c.deltaMax - 1 := by rw [Config.deltaMin, Config.deltaMax]; ring
  have hle := le_abs_self x.pendingDelta
  have hge := neg_abs_le x.pendingDelta
  unfold Encoder.hasSampleRoom at h
  push_cast at h
  constructor <;> omega

/-- A sample uses up the room for one sample: a commit, which costs three, has had two of them already. -/
theorem Encoder.hasSampleRoom_onPins {c : Config} {k : Nat} {x : Encoder} (h : x.hasSampleRoom c (k + 1)) (a b : Bool) :
    (x.onPins a b).hasSampleRoom c k := by
  unfold Encoder.hasSampleRoom at h ⊢
  push_cast at h
  rw [Encoder.onPins_pendingDelta]
  by_cases hc : x.commits a b = true
  · obtain ⟨hbefore, hafter⟩ := Encoder.progress_of_commits hc
    have hl : |x.latchedDir.toInt| ≤ 1 := abs_le.2 x.latchedDir.toInt_bounds
    have hstep := abs_add_le x.pendingDelta x.latchedDir.toInt
    rw [if_pos hc]
    omega
  · have := x.progress_onPins_le a b
    rw [if_neg hc]
    omega

theorem Encoder.hasSampleRoom_of_delta_zero {c : Config} {k : Nat} {x : Encoder} (hx : x.pendingDelta = 0)
    (hk : (k : Int) ≤ 3 * c.deltaMax) : x.hasSampleRoom c k := by
  have := x.progress_le
  rw [Encoder.hasSampleRoom, hx, abs_zero]
  omega

theorem encPins_next_of_sampleRoom {e : EncIdx} {a b : Bool} {k : Nat} {s : State}
    (h : (s.enc e).hasSampleRoom s.cfg (k + 1)) : encPins e a b s = .next (s.setEnc e ((s.enc e).onPins a b)) :=
  encPins_next (Encoder.commit_in_range h)

theorem deliver_next_of_sampleRoom {v : Snapshot} {k : Nat} {s : State}
    (h : ∀ e, (s.enc e).hasSampleRoom s.cfg (k + 1)) : deliver v s = .next (deliverTo v s) := by
  have h1 := h .enc1
  rw [deliver, encPins_next_of_sampleRoom (h .enc0), andThen_next,
    encPins_next_of_sampleRoom (by simpa using h1)]
  rfl

/-! ### A drain with room for its samples -/

/-- A drain with bound `w`, in flight or complete, whose decoders have room for the snapshots up to `w`. -/
structure DrainRoom (w : Nat) (s : State) : Prop where
  good : DrainGood s
  stage : (s.drain = .notDraining ∧ s.rb.readIdx = w) ∨ s.drain = .draining w ∨ ∃ v, s.drain = .holding w v
  room : ∀ e, (s.enc e).hasSampleRoom s.cfg (slotsTo s.cfg.cap s.rb.readIdx w)

theorem stageAt_cases (r w : Nat) : (stageAt r w = .notDraining ∧ r = w) ∨ stageAt r w = .draining w := by
  unfold stageAt; split
  · exact .inl ⟨rfl, by assumption⟩
  · exact .inr rfl

/-- Every micro-step of such a drain runs, and leaves the room that the rest of it needs. -/
theorem DrainRoom.step {w : Nat} {s : State} (h : DrainRoom w s) :
    ∃ t, drainStep s = .next t ∧ DrainRoom w t := by
  obtain ⟨hg, hstage, hroom⟩ := h
  have hd := hg.drain
  rcases hstage with ⟨hn, hr⟩ | hw | ⟨v, hv⟩
  · exact ⟨s, by simp [drainStep, hn], hg, .inl ⟨hn, hr⟩, hroom⟩
  · have hC1 : drainStep s = .next (s.hold w) := by
      rw [← pollStep_eq_drainStep (by rw [hw]; exact nofun), pollStep_draining hw hg.read_lt]
    refine ⟨_, hC1, drainStep_good hC1 hg, .inr (.inr ⟨_, rfl⟩), fun e => ?_⟩
    simpa [State.hold] using hroom e
  · rw [hv] at hd
    have hleft := slotsTo_inc hg.read_lt hd.1 hd.2
    rw [← hleft] at hroom
    have hC2 : drainStep s = .next (popSlot w (deliverTo v s)) := by
      simp [drainStep, hv, drainC2, deliver_next_of_sampleRoom hroom]
    have hcfg : (popSlot w (deliverTo v s)).cfg = s.cfg := (deliverTo_frame v s).cfg
    refine ⟨_, hC2, drainStep_good hC2 hg, ?_, fun e => ?_⟩
    · rw [popSlot_drain, popSlot_readIdx]
      exact (stageAt_cases _ w).imp_right .inl
    · rw [hcfg, popSlot_enc, deliverTo_enc, popSlot_readIdx, deliverTo_readIdx, (deliverTo_frame v s).cfg]
      exact Encoder.hasSampleRoom_onPins (hroom e) _ _

theorem DrainRoom.readIdx_eq {w : Nat} {s : State} (h : DrainRoom w s) (hn : s.drain = .notDraining) :
    s.rb.readIdx = w := by
  rcases h.stage with ⟨_, hr⟩ | hw | ⟨v, hv⟩
  · exact hr
  · exact absurd (hn.symm.trans hw) nofun
  · exact absurd (hn.symm.trans hv) nofun

/-- Such a drain runs to its bound. -/
theorem DrainRoom.completes {w k : Nat} {s : State} (h : DrainRoom w s) (hk : drainLeft s ≤ k) :
    ∃ t, finishDrain k s = .next t ∧ t.rb.readIdx = w := by
  induction k generalizing s with
  | zero =>
    have hn : s.drain = .notDraining := by
      by_contra hn
      obtain ⟨t, ht, _⟩ := h.step
      have := drainStep_left ht h.good hn
      omega
    exact ⟨s, finishDrain_idle hn, h.readIdx_eq hn⟩
  | succ k ih =>
    by_cases hn : s.drain = .notDraining
    · exact ⟨s, finishDrain_idle hn, h.readIdx_eq hn⟩
    · obtain ⟨t, ht, hroom⟩ := h.step
      have hleft := drainStep_left ht h.good hn
      obtain ⟨u, hu, hr⟩ := ih hroom (by omega)
      exact ⟨u, by rw [finishDrain, if_neg hn, ht, andThen_next, hu], hr⟩

/-! ### The components after the drain -/

/-- What holds between a state and the one a single component leaves, and can be chained, holds over all the components
a POLL performs. -/
theorem finishParts_induction {R : State → State → Prop} (refl : ∀ s, R s s)
    (trans : ∀ s t u, R s t → R t u → R s u) (part : ∀ p s, R s (runPart p s)) (ps : List PollPart) (s : State) :
    R s (finishParts ps s) := by
  have hparts : ∀ (qs : List PollPart) (t : State), R t (runParts qs t) := by
    intro qs
    induction qs with
    | nil => exact refl
    | cons q qs ih => exact fun t => trans _ _ _ (part q t) (ih _)
  induction ps generalizing s with
  | nil => exact refl s
  | cons p ps ih => exact trans _ _ _ (trans _ _ _ (part p s) (hparts _ _)) (ih _)

/-- Of the TempoEngine only `bpm`, `acc` and `clkLevel` differ. -/
def SameButClock (s t : State) : Prop :=
  { t.te with bpm := s.te.bpm, acc := s.te.acc, clkLevel := s.te.clkLevel } = s.te

theorem SameButClock.of_te {s t : State} (h : t.te = s.te) : SameButClock s t := by rw [SameButClock, h]

theorem SameButClock.trans {s t u : State} (h : SameButClock s t) (k : SameButClock t u) : SameButClock s u := by
  unfold SameButClock at h k ⊢
  rw [← k] at h
  exact h

theorem tick_sameButClock (n : Nat) (s : State) : SameButClock s (tick n s) := by
  by_cases h : s.te.softClk = true
  · rw [tick_soft h]; rfl
  · rw [tick_external (by simpa using h)]; rfl

theorem runPart_sameButClock (p : PollPart) (s : State) : SameButClock s (runPart p s) := by
  cases p with
  | encDrain e => exact .of_te (encDrain_te e s)
  | wireTempo d => rfl
  | encBtn e l => exact .of_te (encBtn_te e l s)
  | tick n => exact tick_sameButClock n s

theorem finishParts_sameButClock (ps : List PollPart) (s : State) : SameButClock s (finishParts ps s) :=
  finishParts_induction (fun _ => .of_te rfl) (fun _ _ _ => .trans) runPart_sameButClock ps s

/-- What a component puts next leaves the decoders. -/
theorem runParts_wiredPart_enc (p : PollPart) (s t : State) (e : EncIdx) :
    (runParts (wiredPart p s) t).enc e = t.enc e := by
  rcases wiredPart_cases p s with h | ⟨_, _, h⟩ <;> rw [h]
  · rfl
  · exact wireTempo_enc _ _ e

/-- The components of a POLL clear the delta and record the button level of encoder 0 (R190). -/
theorem finishParts_pollParts_enc0 (n : Nat) (b0 b1 : Bool) (s : State) :
    (finishParts (pollParts n b0 b1) s).enc .enc0 = { s.enc .enc0 with pendingDelta := 0, prevPressed := b0 } := by
  have hne : EncIdx.enc0 ≠ EncIdx.enc1 := nofun
  simp only [pollParts, finishParts, runPart, runParts_wiredPart_enc, tick_enc, encBtn_enc_other _ _ hne,
    encDrain_enc_other _ hne, encBtn_enc_same, encDrain_enc_same]

/-- The same for encoder 1. -/
theorem finishParts_pollParts_enc1 (n : Nat) (b0 b1 : Bool) (s : State) :
    (finishParts (pollParts n b0 b1) s).enc .enc1 = { s.enc .enc1 with pendingDelta := 0, prevPressed := b1 } := by
  have hne : EncIdx.enc1 ≠ EncIdx.enc0 := nofun
  simp only [pollParts, finishParts, runPart, runParts_wiredPart_enc, tick_enc, encBtn_enc_other _ _ hne,
    encDrain_enc_other _ hne, encBtn_enc_same, encDrain_enc_same]

/-! ### POLL -/

/-- The bound of R146: the snapshots of one drain are at most three for each step that the range admits. -/
theorem Config.cap_pred_le_of_bound {c : Config} (h : 1 + (c.cap - 2) / 3 ≤ 2 ^ (c.deltaW - 1) - 1) :
    ((c.cap - 1 : Nat) : Int) ≤ 3 * c.deltaMax := by
  have hmax : c.deltaMax = ((2 ^ (c.deltaW - 1) : Nat) : Int) - 1 := by rw [Config.deltaMax]; push_cast; rfl
  rw [hmax]
  omega

theorem startPoll_drainRoom (n : Nat) (b0 b1 : Bool) {s : State} (hs : State.Good s)
    (hzero : ∀ e, (s.enc e).pendingDelta = 0) (hbound : 1 + (s.cfg.cap - 2) / 3 ≤ 2 ^ (s.cfg.deltaW - 1) - 1) :
    DrainRoom s.rb.writeIdx (startPoll n b0 b1 s) := by
  refine ⟨(startPoll_inv hs).drainGood, (stageAt_cases s.rb.readIdx s.rb.writeIdx).imp_right .inl, fun e => ?_⟩
  have hlt : slotsTo s.cfg.cap s.rb.readIdx s.rb.writeIdx < s.cfg.cap := slotsTo_lt (Nat.zero_lt_of_lt hs.rb.read_lt)
  have hcap := Config.cap_pred_le_of_bound hbound
  rw [startPoll, drainC0_enc, State.setPollRest_enc]
  refine Encoder.hasSampleRoom_of_delta_zero (hzero e) ?_
  change ((slotsTo s.cfg.cap s.rb.readIdx s.rb.writeIdx : Nat) : Int) ≤ 3 * s.cfg.deltaMax
  omega

/-- What a POLL writes beside `readIdx`, the decoders and the event stream is of the clock alone. -/
theorem eq_of_pollFrame {s t : State} (hf : PollFrame s t) (hs : s.pollIdle) (ht : t.pollIdle)
    (hte : SameButClock s t) :
    { t with
      rb := { t.rb with readIdx := s.rb.readIdx }
      enc0 := s.enc0
      enc1 := s.enc1
      te := { t.te with bpm := s.te.bpm, acc := s.te.acc, clkLevel := s.te.clkLevel }
      events := s.events } = s := by
  obtain ⟨hcfg, hslots, hwrite, hisr, henv, _⟩ := hf
  have hrb : { t.rb with readIdx := s.rb.readIdx } = s.rb := by dsimp only; rw [hslots, hwrite]
  rw [hcfg, hrb, hisr, henv, ht.1, ht.2, ← hs.1, ← hs.2, hte]

/-- Settles O59: the drain of the POLL starts with room for all its samples, so it runs to its bound, and the components
clear both deltas again. -/
theorem pollNeverOverflows : Obligations.PollNeverOverflows := by
  unfold Obligations.PollNeverOverflows
  intro n b0 b1 s hs hidle hzero hbound
  have hroom := startPoll_drainRoom n b0 b1 hs hzero hbound
  obtain ⟨u, hu, hread⟩ := hroom.completes (k := 2 * (startPoll n b0 b1 s).cfg.cap)
    ((drainLeft_le hroom.good).trans (by omega))
  have hpoll : finishPoll (startPoll n b0 b1 s) = .next (finishRest u) := by rw [finishPoll, hu, andThen_next]
  obtain ⟨hframe, hidle'⟩ := finishPoll_frame hpoll
  have hdrain := (finishDrain_frame hu).1
  have hparts : finishRest u = finishParts (pollParts n b0 b1) (u.setPollRest []) := by
    rw [finishRest, hdrain.pollRest]
    rfl
  have henc0 := finishParts_pollParts_enc0 n b0 b1 (u.setPollRest [])
  have henc1 := finishParts_pollParts_enc1 n b0 b1 (u.setPollRest [])
  rw [← hparts] at henc0 henc1
  refine ⟨finishRest u, (exec_idle rfl hidle).trans hpoll, fun e => ?_, ?_, congrArg Encoder.prevPressed henc0,
    congrArg Encoder.prevPressed henc1, ?_⟩
  · cases e
    · rw [henc0]
    · rw [henc1]
  · rw [(finishRest_frame u).rb]
    exact hread
  · have hclock : SameButClock s (finishRest u) :=
      (SameButClock.of_te hdrain.te).trans (finishParts_sameButClock u.pollRest (u.setPollRest []))
    exact eq_of_pollFrame ((startPoll_frame n b0 b1 s).trans hframe) hidle hidle' hclock

end Sys2Proof.Machine
end

section
/-! SUPPORT. T.SETBPM, T.EXTEDGE and the software clock as commands (R161 to R172): a T.TICK is a number of edges and a
remainder, and two of them in a row are one of the summed time. -/

namespace Sys2Proof.Machine

/-! ### T.SETBPM and T.EXTEDGE -/

/-- Settles O42: T.SETBPM is a write of `bpm` alone, of which the phase is a function. -/
theorem setBpmClamps : Obligations.SetBpmClamps := by
  unfold Obligations.SetBpmClamps
  intro v s hidle
  exact ⟨setBpm v s, exec_idle rfl hidle, rfl, rfl, rfl⟩

theorem extEdge_soft {level : Bool} {s : State} (h : s.te.softClk = true) : extEdge level s = s := if_pos h

theorem extEdge_external {level : Bool} {s : State} (h : ¬ s.te.softClk = true) :
    extEdge level s = (s.setTe { s.te with clkLevel := level }).emit [externalEdge level] := if_neg h

/-- Settles O48: by the clock source. -/
theorem externalEdgePassesThrough : Obligations.ExternalEdgePassesThrough := by
  unfold Obligations.ExternalEdgePassesThrough
  intro level s hidle
  have hexec : exec (.tExtEdge level) s = .next (extEdge level s) := exec_idle rfl hidle
  rw [hexec]
  by_cases hsoft : s.te.softClk = true
  · rw [extEdge_soft hsoft, if_pos hsoft]
  · rw [extEdge_external hsoft, if_neg hsoft]
    rfl

/-! ### One T.TICK -/

theorem execTTick_idle {n : Nat} {s : State} (h : s.pollIdle) : exec (.tTick n) s = .next (tick n s) := exec_idle rfl h

/-- Settles O46: between operations T.TICK is `tick`, which in external mode discards the time. -/
theorem tickInExternalModeDiscards : Obligations.TickInExternalModeDiscards := by
  unfold Obligations.TickInExternalModeDiscards
  intro n s hidle hext
  rw [execTTick_idle hidle, tick_external hext]
  rfl

/-- The state once the clock has made `k` edges and `acc` is left in the accumulator. -/
def State.afterEdges (k : Nat) (acc : Rat) (s : State) : State :=
  (s.setTe { s.te with acc := acc, clkLevel := levelAfter s.te.clkLevel k }).emit (edgesFrom s.te.clkLevel k)

/-- No edge, and the accumulator as it was. -/
theorem State.afterEdges_zero (s : State) : s.afterEdges 0 s.te.acc = s := s.emit_nil

/-- The edges of two runs alternate on, and the remainder is that of the second (R168). -/
theorem State.afterEdges_afterEdges (s : State) (j k : Nat) (a b : Rat) :
    (s.afterEdges j a).afterEdges k b = s.afterEdges (j + k) b := by
  unfold State.afterEdges
  rw [edgesFrom_append, levelAfter_add, ← State.emit_emit]
  rfl

/-- How many phases are complete once `n` more time units have passed (R169). -/
def State.phases (n : Nat) (s : State) : Nat := catchUpRounds (s.te.acc + secondsOf s.cfg n) s.spp

/-- A clock that counts: software mode, and no time below zero in the accumulator. -/
structure State.Counts (s : State) : Prop where
  softClk : s.te.softClk = true
  spp_pos : 0 < s.spp
  acc_nonneg : 0 ≤ s.te.acc

theorem State.Counts.total_nonneg {s : State} (h : s.Counts) (n : Nat) : 0 ≤ s.te.acc + secondsOf s.cfg n :=
  add_nonneg h.acc_nonneg (secondsOf_nonneg s.cfg n)

/-- T.TICK of a counting clock: the edges of the complete phases, and the remainder (R169). -/
theorem State.Counts.tick_eq {s : State} (h : s.Counts) (n : Nat) :
    tick n s = s.afterEdges (s.phases n) (s.te.acc + secondsOf s.cfg n - (s.phases n : Rat) * s.spp) := by
  rw [tick_soft h.softClk, clockRun_eq h.spp_pos (h.total_nonneg n)]
  rfl


/-- Settles O44: the edges and the level are those of `k` alternations, and all else is as before. -/
theorem tickEmitsFloorEdges : Obligations.TickEmitsFloorEdges := by
  unfold Obligations.TickEmitsFloorEdges
  intro n s hidle hsoft hspp hacc
  have hcounts : s.Counts := ⟨hsoft, hspp, hacc⟩
  refine ⟨_, (execTTick_idle hidle).trans (congrArg Host.Outcome.next (hcounts.tick_eq n)), ?_, rfl, ?_, rfl⟩
  · exact congrArg (s.events ++ ·) (edgesFrom_eq_map s.te.clkLevel (s.phases n))
  · exact levelAfter_eq s.te.clkLevel (s.phases n)

/-! ### T.TICKs in a row -/

theorem secondsOf_add (c : Config) (m n : Nat) : secondsOf c (m + n) = secondsOf c m + secondsOf c n := by
  unfold secondsOf
  push_cast
  exact add_div _ _ _

section
variable {s : State} (h : s.Counts)
include h

theorem State.Counts.afterTick (n : Nat) : (tick n s).Counts where
  softClk := (tick_softClk n s).trans h.softClk
  spp_pos := (tick_spp n s).symm ▸ h.spp_pos
  acc_nonneg := (tick_acc h.spp_pos h.acc_nonneg).1

theorem State.Counts.tick_acc_eq (n : Nat) :
    (tick n s).te.acc = s.te.acc + secondsOf s.cfg n - (s.phases n : Rat) * s.spp := congrArg (·.te.acc) (h.tick_eq n)

theorem State.Counts.phases_spec (n : Nat) :
    (s.phases n : Rat) * s.spp ≤ s.te.acc + secondsOf s.cfg n ∧
      s.te.acc + secondsOf s.cfg n < ((s.phases n : Rat) + 1) * s.spp :=
  catchUpRounds_spec h.spp_pos (h.total_nonneg n)

theorem State.Counts.phases_unique {n k : Nat} (hle : (k : Rat) * s.spp ≤ s.te.acc + secondsOf s.cfg n)
    (hlt : s.te.acc + secondsOf s.cfg n < ((k : Rat) + 1) * s.spp) : s.phases n = k :=
  catchUpRounds_unique h.spp_pos hle hlt

/-- The phases of a summed time are those of the first tick and those that the second then completes. -/
theorem State.Counts.phases_add (m n : Nat) : s.phases (m + n) = s.phases m + (tick m s).phases n := by
  obtain ⟨hle, hlt⟩ := (h.afterTick m).phases_spec n
  rw [h.tick_acc_eq, tick_spp, tick_cfg] at hle hlt
  apply h.phases_unique <;> rw [secondsOf_add] <;> push_cast <;> linarith

theorem State.Counts.afterEdges_tick (m k : Nat) (a : Rat) :
    (tick m s).afterEdges k a = s.afterEdges (s.phases m + k) a := by
  rw [h.tick_eq m, State.afterEdges_afterEdges]

/-- Two ticks in a row are one of the summed time. -/
theorem State.Counts.tick_tick (m n : Nat) : tick n (tick m s) = tick (m + n) s := by
  have hacc : (tick m s).te.acc + secondsOf s.cfg n - ((tick m s).phases n : Rat) * s.spp =
      s.te.acc + secondsOf s.cfg (m + n) - (s.phases (m + n) : Rat) * s.spp := by
    rw [h.tick_acc_eq, h.phases_add, secondsOf_add]
    push_cast
    ring
  rw [(h.afterTick m).tick_eq, h.afterEdges_tick, tick_cfg, tick_spp, hacc, ← h.phases_add, ← h.tick_eq]

/-- No time, with less than a phase accumulated, is no change. -/
theorem State.Counts.tick_zero (hlt : s.te.acc < s.spp) : tick 0 s = s := by
  have hzero : secondsOf s.cfg 0 = 0 := by simp [secondsOf]
  have hphases : s.phases 0 = 0 :=
    h.phases_unique (by simpa [hzero] using h.acc_nonneg) (by simpa [hzero] using hlt)
  rw [h.tick_eq, hphases, hzero, Nat.cast_zero, zero_mul, add_zero, sub_zero, State.afterEdges_zero]

end

theorem tick_pollIdle {s : State} (h : s.pollIdle) (n : Nat) : (tick n s).pollIdle :=
  ⟨(tick_drain n s).trans h.1, (tick_pollRest n s).trans h.2⟩

/-- T.TICKs in a row are one T.TICK of the summed time (R170). -/
theorem runCommands_ticks (ns : List Nat) {s : State} (hidle : s.pollIdle) (h : s.Counts) (hlt : s.te.acc < s.spp) :
    runCommands (ns.map .tTick) s = .next (tick ns.sum s) := by
  induction ns generalizing s with
  | nil => exact congrArg Host.Outcome.next (h.tick_zero hlt).symm
  | cons n ns ih =>
    have hlt' : (tick n s).te.acc < (tick n s).spp := tick_spp n s ▸ (tick_acc h.spp_pos h.acc_nonneg).2
    rw [List.map_cons, runCommands, execTTick_idle hidle, andThen_next, ih (tick_pollIdle hidle n) (h.afterTick n) hlt',
      h.tick_tick, List.sum_cons]

theorem State.Counts.tick_events_length {s : State} (h : s.Counts) (n : Nat) :
    (tick n s).events.length = s.events.length + s.phases n := by
  rw [h.tick_eq, State.afterEdges, State.emit_events, List.length_append, edgesFrom_length, State.setTe_events]

/-- Settles O47: the ticks add up, and a tick from an empty accumulator makes the edges of the whole phases. -/
theorem tickSplitDoesNotMatter : Obligations.TickSplitDoesNotMatter := by
  unfold Obligations.TickSplitDoesNotMatter
  intro ns s hidle hsoft hspp hacc hlt
  have hcounts : s.Counts := ⟨hsoft, hspp, hacc⟩
  refine ⟨tick ns.sum s, runCommands_ticks ns hidle hcounts hlt, execTTick_idle hidle, fun hempty => ?_⟩
  rw [hcounts.tick_events_length, State.phases, hempty, zero_add]
  rfl

end Sys2Proof.Machine
end

section
/-! SUPPORT. The tap commands: what each does to a state between operations (R173 to R182), and whole gestures, of one
tap (R184) and of steady taps (R183). -/

namespace Sys2Proof.Machine

/-! ### The tap commands -/

theorem execTTap_idle {n : Nat} {s : State} (h : s.pollIdle) : exec (.tTap n) s = tap n s := exec_idle rfl h

/-- Settles O49: T.BEGINTAP writes these two elements. -/
theorem beginTapResetsTheGesture : Obligations.BeginTapResetsTheGesture := by
  unfold Obligations.BeginTapResetsTheGesture
  exact fun s hidle => exec_idle rfl hidle

theorem execTEndTap_idle {s : State} (h : s.pollIdle) : exec .tEndTap s = .next (endTap s) := exec_idle rfl h

theorem endTap_untapped {s : State} (h : s.te.tapCount = 0) :
    endTap s = s.setTe { s.te with softClk := !s.te.softClk, acc := 0, tapCount := -1 } := if_pos h

theorem endTap_tapped {s : State} (h : s.te.tapCount ≠ 0) : endTap s = s.setTe { s.te with tapCount := -1 } := if_neg h

/-- Settles O53: by whether a tap has arrived. -/
theorem endTapEndsTheGesture : Obligations.EndTapEndsTheGesture := by
  unfold Obligations.EndTapEndsTheGesture
  intro s hidle
  rw [execTEndTap_idle hidle]
  by_cases htaps : s.te.tapCount = 0
  · rw [endTap_untapped htaps, if_pos htaps]
    rfl
  · rw [endTap_tapped htaps, if_neg htaps]
    rfl

/-- A tap of time `now` that ends an interval: the interval joins the window, and the window sets the tempo (R177,
R179, R180). -/
def State.endInterval (now : Rat) (s : State) : State :=
  setBpm (tempoOfTaps s.cfg (pushTap s.te.tapBuf (now - s.te.lastTap)))
    (s.setTe { s.te with
      lastTap := now
      tapBuf := pushTap s.te.tapBuf (now - s.te.lastTap)
      tapCount := s.te.tapCount + 1 })

theorem tap_later {n : Nat} {s : State} (hcount : 1 ≤ s.te.tapCount) (hlt : s.te.lastTap < secondsOf s.cfg n) :
    tap n s = .next (s.endInterval (secondsOf s.cfg n)) := by
  rcases tap_cases n s with ⟨h, _⟩ | ⟨h, _⟩ | ⟨_, _, _, h⟩ | ⟨_, _, h, _⟩
  · omega
  · omega
  · exact h
  · exact absurd hlt h.not_gt

theorem tap_notLater {n : Nat} {s : State} (hcount : 1 ≤ s.te.tapCount) (hle : secondsOf s.cfg n ≤ s.te.lastTap) :
    tap n s = .fault (.tapIntervalNotPositive (secondsOf s.cfg n)) := by
  rcases tap_cases n s with ⟨h, _⟩ | ⟨h, _⟩ | ⟨_, _, h, _⟩ | ⟨_, _, _, h⟩
  · omega
  · omega
  · exact absurd hle h.not_ge
  · exact h

/-- Settles O51: between operations T.TAP is `tap`, which faults at such a time. -/
theorem tapNotLaterFaults : Obligations.TapNotLaterFaults := by
  unfold Obligations.TapNotLaterFaults
  exact fun n s hidle hcount hle => (execTTap_idle hidle).trans (tap_notLater hcount hle)

/-- Settles O50: by the three cases of the tap count; the window after the interval is the last four intervals. -/
theorem tapSetsTheTempo : Obligations.TapSetsTheTempo := by
  unfold Obligations.TapSetsTheTempo
  intro n s hidle hlen now buf
  have hwindow : pushTap s.te.tapBuf (now - s.te.lastTap) = buf := pushTap_eq_drop _ hlen
  rw [execTTap_idle hidle, ← hwindow]
  refine ⟨tap_ignored, tap_first, fun hcount hlt => ?_⟩
  exact ⟨s.endInterval now, tap_later hcount hlt, rfl, rfl, rfl, rfl, rfl⟩

/-! ### Gestures -/

/-- A gesture begun, and its first tap at time `now` (R173, R176). -/
def State.firstTap (now : Rat) (s : State) : State :=
  s.setTe { s.te with tapCount := 1, tapBuf := [], lastTap := now }

theorem runCommands_begin_tap {s : State} (hidle : s.pollIdle) (n : Nat) (is : List Instr) :
    runCommands (.tBeginTap :: .tTap n :: is) s = runCommands is (s.firstTap (secondsOf s.cfg n)) := by
  have hbegin : exec .tBeginTap s = .next (beginTap s) := exec_idle rfl hidle
  have htap : exec (.tTap n) (beginTap s) = .next (s.firstTap (secondsOf s.cfg n)) :=
    (execTTap_idle (s := beginTap s) hidle).trans (tap_first rfl)
  rw [runCommands, hbegin, andThen_next, runCommands, htap, andThen_next]

/-- Settles O55: the tap is the first of its gesture and so sets no tempo, and T.ENDTAP finds it counted. -/
theorem oneTapLeavesTheTempo : Obligations.OneTapLeavesTheTempo := by
  unfold Obligations.OneTapLeavesTheTempo
  intro n s hidle
  refine ⟨endTap (s.firstTap (secondsOf s.cfg n)), ?_, ?_⟩
  · rw [runCommands_begin_tap hidle, runCommands, execTEndTap_idle (s := s.firstTap _) hidle]
    rfl
  · rw [endTap_tapped (s := s.firstTap _) one_ne_zero]
    exact ⟨rfl, rfl, rfl, rfl, rfl, rfl⟩

/-- T.BEGINTAP, and `k + 1` taps at `t0`, `t0 + d`, ..., `t0 + k * d`. -/
def steadyGesture (t0 d k : Nat) : List Instr := .tBeginTap :: (List.range (k + 1)).map fun j => .tTap (t0 + j * d)

theorem steadyGesture_succ (t0 d k : Nat) :
    steadyGesture t0 d (k + 1) = steadyGesture t0 d k ++ [.tTap (t0 + (k + 1) * d)] := by
  rw [steadyGesture, List.range_succ, List.map_append]
  rfl

theorem runCommands_append (is js : List Instr) (s : State) :
    runCommands (is ++ js) s = andThen (runCommands is s) (runCommands js) := by
  induction is generalizing s with
  | nil => rfl
  | cons i is ih => rw [List.cons_append, runCommands, runCommands, andThen_assoc, funext ih]

/-- A window of equal durations takes one more of them (R177). -/
theorem pushTap_replicate (k : Nat) (d : Rat) :
    pushTap (List.replicate (min k 4) d) d = List.replicate (min (k + 1) 4) d := by
  have hlen : (List.replicate (min k 4) d).length = min k 4 := List.length_replicate
  rw [pushTap_eq_drop d (by omega), hlen, ← List.replicate_succ', List.drop_replicate]
  congr 1
  omega

theorem meanTap_replicate {k : Nat} (hk : 0 < k) (d : Rat) : meanTap (List.replicate k d) = d := by
  have hne : (k : Rat) ≠ 0 := by exact_mod_cast hk.ne'
  rw [meanTap, List.sum_replicate, List.length_replicate, nsmul_eq_mul, mul_div_cancel_left₀ _ hne]

/-- `ROUND(60 / (d * TIPB))`, the tempo of intervals of `d` seconds (R183). -/
def tempoOfInterval (c : Config) (d : Rat) : Int := c.round.apply (60 / (d * (c.tipb : Rat)))

theorem tempoOfTaps_replicate (c : Config) {k : Nat} (hk : 0 < k) (d : Rat) :
    tempoOfTaps c (List.replicate k d) = tempoOfInterval c d := by rw [tempoOfTaps, meanTap_replicate hk, tempoOfInterval]

/-- Each tap of the gesture comes `d` after the one before it. -/
theorem secondsOf_nextTap (c : Config) (t0 d k : Nat) :
    secondsOf c (t0 + (k + 1) * d) = secondsOf c (t0 + k * d) + secondsOf c d := by
  rw [← secondsOf_add, Nat.succ_mul, Nat.add_assoc]

/-- What `steadyGesture t0 d k`, performed from `s`, leaves: a window of `k` intervals or four, and from the first
interval on the tempo of `d`. -/
structure AfterSteadyTaps (s : State) (t0 d k : Nat) (t : State) : Prop where
  cfg : t.cfg = s.cfg
  idle : t.pollIdle
  lastTap : t.te.lastTap = secondsOf s.cfg (t0 + k * d)
  tapBuf : t.te.tapBuf = List.replicate (min k 4) (secondsOf s.cfg d)
  tapCount : t.te.tapCount = k + 1
  bpm : 1 ≤ k → t.te.bpm = clamp (tempoOfInterval s.cfg (secondsOf s.cfg d)) s.cfg.minTempo s.cfg.maxTempo

theorem afterSteadyTaps_firstTap {s : State} (hidle : s.pollIdle) (t0 d : Nat) :
    AfterSteadyTaps s t0 d 0 (s.firstTap (secondsOf s.cfg (t0 + 0 * d))) where
  cfg := rfl
  idle := hidle
  lastTap := rfl
  tapBuf := rfl
  tapCount := rfl
  bpm h := absurd h (by decide)

theorem secondsOf_pos {c : Config} {n : Nat} (hc : c.Constraints) (hn : 0 < n) : 0 < secondsOf c n :=
  div_pos (Nat.cast_pos.2 hn) (Nat.cast_pos.2 hc.timeHz_ge)

/-- The next tap ends an interval of `d` again. -/
theorem AfterSteadyTaps.endInterval {s t : State} {t0 d k : Nat} (h : AfterSteadyTaps s t0 d k t) :
    AfterSteadyTaps s t0 d (k + 1) (t.endInterval (secondsOf s.cfg (t0 + (k + 1) * d))) := by
  have hinterval : secondsOf s.cfg (t0 + (k + 1) * d) - t.te.lastTap = secondsOf s.cfg d := by
    rw [h.lastTap, secondsOf_nextTap, add_sub_cancel_left]
  have hwindow : pushTap t.te.tapBuf (secondsOf s.cfg (t0 + (k + 1) * d) - t.te.lastTap) =
      List.replicate (min (k + 1) 4) (secondsOf s.cfg d) := by
    rw [hinterval, h.tapBuf, pushTap_replicate]
  constructor
  case cfg => exact h.cfg
  case idle => exact h.idle
  case lastTap => rfl
  case tapBuf => exact hwindow
  case tapCount => exact congrArg (· + 1) h.tapCount
  case bpm =>
    intro _
    rw [State.endInterval, hwindow, setBpm_te, State.setTe_cfg, h.cfg, tempoOfTaps_replicate _ (by omega)]

theorem runCommands_steadyGesture {s : State} {d : Nat} (hc : s.cfg.Constraints) (hidle : s.pollIdle) (hd : 0 < d)
    (t0 k : Nat) : ∃ t, runCommands (steadyGesture t0 d k) s = .next t ∧ AfterSteadyTaps s t0 d k t := by
  induction k with
  | zero => exact ⟨_, runCommands_begin_tap hidle _ [], afterSteadyTaps_firstTap hidle t0 d⟩
  | succ k ih =>
    obtain ⟨t, ht, h⟩ := ih
    have hcount : 1 ≤ t.te.tapCount := by rw [h.tapCount]; omega
    have hlater : t.te.lastTap < secondsOf t.cfg (t0 + (k + 1) * d) := by
      rw [h.cfg, h.lastTap, secondsOf_nextTap]
      exact lt_add_of_pos_right _ (secondsOf_pos hc hd)
    refine ⟨_, ?_, h.endInterval⟩
    rw [steadyGesture_succ, runCommands_append, ht, andThen_next, runCommands, execTTap_idle h.idle,
      tap_later hcount hlater, h.cfg]
    rfl

/-- Settles O54: by induction on the number of intervals, each the same and so equal to the mean of the window. -/
theorem steadyTapsSetTheTempo : Obligations.SteadyTapsSetTheTempo := by
  unfold Obligations.SteadyTapsSetTheTempo
  intro s t0 d k hwf hidle hd hk
  have hc := (Config.wf_iff _).1 hwf
  obtain ⟨t, ht, h⟩ := runCommands_steadyGesture hc hidle hd t0 k
  exact ⟨t, ht, (h.bpm hk).trans (clamp_eq_max_min hc.tempo_le), h.tapBuf, h.tapCount⟩

end Sys2Proof.Machine
end

section
/-! SUPPORT. POLL as its component operations (43_poll.md): a push commutes with each of them (R197), and POLL is the
drain, then the commands that they are, in order (R190). -/

namespace Sys2Proof.Machine

/-! ### A change that a push carries through -/

/-- A change of nothing that a push reads or writes. -/
structure OutsidePush (g : State → State) : Prop where
  cfg : ∀ s, (g s).cfg = s.cfg
  rb : ∀ s, (g s).rb = s.rb
  isr : ∀ s, (g s).isr = s.isr
  setRb : ∀ s r, (g s).setRb r = g (s.setRb r)
  setIsr : ∀ s k, (g s).setIsr k = g (s.setIsr k)

section
variable {g : State → State} (hg : OutsidePush g)
include hg

theorem endInterrupt_carries (s : State) : endInterrupt (g s) = g (endInterrupt s) := by
  simp only [endInterrupt, hg.cfg, hg.rb, hg.setRb, hg.setIsr]

theorem finishPush_carries (s : State) : finishPush (g s) = g (finishPush s) := by
  cases h : s.isr with
  | idle => rw [finishPush_idle h, finishPush_idle ((hg.isr s).trans h)]
  | wrote => rw [finishPush_wrote h, finishPush_wrote ((hg.isr s).trans h), endInterrupt_carries hg]

theorem takeInterrupt_carries (v : Snapshot) (s : State) : CarriesThrough g (takeInterrupt v) s := by
  unfold CarriesThrough takeInterrupt memWrite
  rw [hg.cfg, hg.rb, hg.setRb]
  split
  · simp only [andThen_next, hg.setIsr]
  · rfl

theorem execRbPush_carries (v : Snapshot) (s : State) : CarriesThrough g (exec (.rbPush v)) s := by
  have hp1 : CarriesThrough g (fun y => takeInterrupt v (finishPush y)) s := by
    unfold CarriesThrough
    dsimp only
    rw [finishPush_carries hg]
    exact takeInterrupt_carries hg v (finishPush s)
  exact hp1.andThen fun t _ => carriesThrough_next (endInterrupt_carries hg t)

end

/-! ### A component of POLL is outside a push -/

theorem tick_setRb (n : Nat) (r : Ring) (s : State) : (tick n s).setRb r = tick n (s.setRb r) := by
  unfold tick
  rw [apply_ite (State.setRb · r)]
  rfl

theorem tick_setIsr (n : Nat) (k : IsrStage) (s : State) : (tick n s).setIsr k = tick n (s.setIsr k) := by
  unfold tick
  rw [apply_ite (State.setIsr · k)]
  rfl

theorem runPart_setRb (p : PollPart) (r : Ring) (s : State) : (runPart p s).setRb r = runPart p (s.setRb r) := by
  cases p with
  | encDrain e => cases e <;> rfl
  | wireTempo d => rfl
  | encBtn e l => cases e <;> rfl
  | tick n => exact tick_setRb n r s

theorem runPart_setIsr (p : PollPart) (k : IsrStage) (s : State) :
    (runPart p s).setIsr k = runPart p (s.setIsr k) := by
  cases p with
  | encDrain e => cases e <;> rfl
  | wireTempo d => rfl
  | encBtn e l => cases e <;> rfl
  | tick n => exact tick_setIsr n k s

theorem runPart_outsidePush (p : PollPart) : OutsidePush (runPart p) where
  cfg s := (runPart_frame p s).cfg
  rb s := (runPart_frame p s).rb
  isr s := (runPart_frame p s).isr
  setRb s r := runPart_setRb p r s
  setIsr s k := runPart_setIsr p k s

/-- Settles O20: a push reads and writes the configuration, the ring and `ISR.stage` only, and no component reads or
writes the last two or writes the first. -/
theorem pushCommutesWithPollParts : Obligations.PushCommutesWithPollParts := by
  unfold Obligations.PushCommutesWithPollParts
  exact fun part v s => execRbPush_carries (runPart_outsidePush part) v s

/-! ### POLL is its drain, then its components -/

/-- Two sequences that go on alike from where the first part ends are the same. -/
theorem andThen_congr {o : Result} {f k : State → Result} (h : ∀ t, o = .next t → f t = k t) :
    andThen o f = andThen o k := by
  cases o with
  | next t => exact h t rfl
  | fault r => rfl
  | refused r => rfl

theorem drainRing_pollIdle {s t : State} (hs : s.pollIdle) (h : drainRing s = .next t) : t.pollIdle := by
  obtain ⟨hframe, hdrain⟩ := finishDrain_frame h
  exact ⟨hdrain, hframe.pollRest.trans hs.2⟩

/-- After RB.DRAIN, POLL is between operations (R38). -/
theorem execRbDrain_pollIdle {s t : State} (h : exec .rbDrain s = .next t) : t.pollIdle := by
  obtain ⟨u, hu, ht⟩ := onPoll_eq_next h
  exact drainRing_pollIdle (finishPoll_frame hu).2 ht

theorem setPollRest_outsideDrain (ps : List PollPart) : OutsideDrain (State.setPollRest · ps) where
  cfg _ := rfl
  readIdx _ := rfl
  drain _ := rfl
  enc s e := State.setPollRest_enc s ps e
  setEnc s e x := by cases e <;> rfl
  setDrain _ _ := rfl
  popSlot _ _ := rfl

/-- The drain of a POLL is RB.DRAIN: it does not read what comes after it. -/
theorem finishDrain_startPoll (n : Nat) (b0 b1 : Bool) (s : State) :
    finishDrain (2 * s.cfg.cap) (startPoll n b0 b1 s) =
      andThen (drainRing s) fun t => .next (t.setPollRest (pollParts n b0 b1)) :=
  finishDrain_carries (setPollRest_outsideDrain (pollParts n b0 b1)) (P := fun _ => True) (fun _ _ _ _ => trivial)
    (fun _ _ _ _ => rfl) (2 * s.cfg.cap) (s := drainC0 s) trivial

/-- With nothing left over, the components still to perform after a drain are those the POLL has put there. -/
theorem finishRest_setPollRest {s : State} (h : s.pollRest = []) (ps : List PollPart) :
    finishRest (s.setPollRest ps) = finishParts ps s := by
  have hself : (s.setPollRest ps).setPollRest [] = s := by rw [← h]; rfl
  rw [finishRest, hself, State.setPollRest_pollRest]

theorem finishPoll_startPoll (n : Nat) (b0 b1 : Bool) {s : State} (hs : s.pollIdle) :
    finishPoll (startPoll n b0 b1 s) = andThen (drainRing s) fun t => .next (finishParts (pollParts n b0 b1) t) := by
  calc finishPoll (startPoll n b0 b1 s)
    _ = andThen (finishDrain (2 * s.cfg.cap) (startPoll n b0 b1 s)) fun t => .next (finishRest t) := rfl
    _ = andThen (drainRing s) fun t => .next (finishRest (t.setPollRest (pollParts n b0 b1))) := by
      rw [finishDrain_startPoll, andThen_assoc]; rfl
    _ = andThen (drainRing s) fun t => .next (finishParts (pollParts n b0 b1) t) :=
      andThen_congr fun t ht => by rw [finishRest_setPollRest (drainRing_pollIdle hs ht).2]

/-- POLL is RB.DRAIN, then its components, from every state (R190). -/
theorem execPoll_eq (n : Nat) (b0 b1 : Bool) (s : State) :
    exec (.poll n b0 b1) s = andThen (exec .rbDrain s) fun t => .next (finishParts (pollParts n b0 b1) t) := by
  calc exec (.poll n b0 b1) s
    _ = andThen (finishPoll s) fun t => finishPoll (startPoll n b0 b1 t) := rfl
    _ = andThen (finishPoll s) fun t => andThen (drainRing t) fun u => .next (finishParts (pollParts n b0 b1) u) :=
      andThen_congr fun t ht => finishPoll_startPoll n b0 b1 (finishPoll_frame ht).2
    _ = andThen (exec .rbDrain s) fun u => .next (finishParts (pollParts n b0 b1) u) := (andThen_assoc _ _ _).symm

/-! ### A component is a command of its own -/

theorem PartFrame.pollIdle {s t : State} (h : PartFrame s t) (hs : s.pollIdle) : t.pollIdle :=
  ⟨h.drain.trans hs.1, h.pollRest.trans hs.2⟩

/-- The command that performs a component operation, POLL being between operations (R192 to R194). -/
def PollPart.command (s : State) : PollPart → Instr
  | .encDrain e => .encDrain e
  | .wireTempo d => .tSetBpm (s.te.bpm + d * (s.cfg.bpmStep : Int))
  | .encBtn e level => .encBtn e level
  | .tick n => .tTick n

theorem exec_command (p : PollPart) {s : State} (h : s.pollIdle) : exec (p.command s) s = .next (runPart p s) := by
  cases p <;> exact exec_idle rfl h

/-- A component's command, then what follows. -/
theorem andThen_exec_command (p : PollPart) {s : State} (h : s.pollIdle) {o : Result} {f : State → Result}
    (ho : (runPart p s).pollIdle → o = f (runPart p s)) : o = andThen (exec (p.command s) s) f := by
  rw [exec_command p h, andThen_next]
  exact ho ((runPart_frame p s).pollIdle h)

/-- The T.SETBPM that a turn of encoder 0 asks for, or nothing, is what its ENC.DRAIN puts next (R193). -/
theorem exec_wiring (s : State) {t : State} (h : t.pollIdle) :
    (if s.enc0.pendingDelta = 0 then .next t
      else exec (.tSetBpm (t.te.bpm + s.enc0.pendingDelta * (t.cfg.bpmStep : Int))) t) =
      .next (runParts (wiredPart (.encDrain .enc0) s) t) := by
  by_cases hd : s.enc0.pendingDelta = 0
  · rw [if_pos hd, wiredPart, if_pos hd, runParts]
  · rw [if_neg hd, wiredPart, if_neg hd]
    exact exec_command (.wireTempo s.enc0.pendingDelta) h

/-- Settles O58: after the drain POLL is between operations, so each component is the outcome of its own command. -/
theorem pollIsAComposition : Obligations.PollIsAComposition := by
  unfold Obligations.PollIsAComposition
  intro n b0 b1 s
  rw [execPoll_eq]
  refine andThen_congr fun u hu => ?_
  refine andThen_exec_command (.encDrain .enc0) (execRbDrain_pollIdle hu) fun h2 => ?_
  rw [exec_wiring u h2, andThen_next]
  have h3 := (runParts_frame (wiredPart (.encDrain .enc0) u) _).pollIdle h2
  refine andThen_exec_command (.encBtn .enc0 b0) h3 fun h4 => ?_
  refine andThen_exec_command (.encDrain .enc1) h4 fun h5 => ?_
  refine andThen_exec_command (.encBtn .enc1 b1) h5 fun h6 => ?_
  exact (exec_command (.tick n) h6).symm

end Sys2Proof.Machine
end
